-- ==== Sys2Proof/Word.lean ====
section
/-! DEFINITION. The word types of the machine (00_scope.md R8, R12). -/

namespace Sys2Proof

/-- A register value, an address or an ARM instruction word: 32 bits, arithmetic modulo 2^32 (R8, R12). -/
abbrev Word := BitVec 32

/-- A Thumb halfword, or one 16-bit half of a timer channel (R8, R60). -/
abbrev Half := BitVec 16

/-- One byte, the address unit (R8). -/
abbrev Byte := BitVec 8

/-- The number of one of the 16 general registers (10_state.md R20). -/
abbrev Reg := Fin 16

/-- The number of a low register, R0 to R7 (46_thumb.md R185). -/
abbrev LowReg := Fin 8

end Sys2Proof
end

