-- ==== Sys2Proof/Config.lean ====
section
/-! DEFINITION. The platform configuration `Cfg` of 00_scope.md R9 and R10, and the model's one free value. -/

namespace Sys2Proof

/-- One contiguous range of the address space (20_memory.md R40, R41). -/
structure Region where
  base : Nat
  size : Nat
deriving DecidableEq, Repr

/-- The platform configuration of 00_scope.md R9. The offsets count from the base of the I/O window. -/
structure Cfg where
  boot : Region
  gram : Region
  sram : Region
  cart : Region
  io : Region
  ieOff : Nat
  ifOff : Nat
  imeOff : Nat
  tmrOff : Nat
  tmrChannels : Nat
deriving DecidableEq, Repr

/-- The answer of the timer collaborator to the n-th TimerRead: a free value, any 16 bits
(20_memory.md R60, 93 I8). It has no body, so no proof can see which value it is. Log entry 3. -/
opaque Config.timerAnswer : Nat → Half

end Sys2Proof
end

