-- ==== Sys2Proof/Syntax.lean ====
section
/-! DEFINITION. The instructions: one constructor for each of the 40 rows of spec/opcode_table.json
(30_encoding.md R100). A field the hardware ignores is kept, so that encoding gives back every bit and an
UnknownInstruction event can report the word (40_execution_cycle.md R119). -/

namespace Sys2Proof

/-- The condition codes in the order of their 4-bit numbers, 0000 to 1111 (30_encoding.md R81). -/
inductive Cond where
  | eq | ne | cs | cc | mi | pl | vs | vc | hi | ls | ge | lt | gt | le | al | nv
deriving DecidableEq, Repr

/-- Operand2 (30_encoding.md R82, R90, R91): a rotated immediate, or a plain register whose bits [11:4] have
no effect. -/
inductive Operand2 where
  | imm (rot : BitVec 4) (imm8 : Byte)
  | reg (ignored : BitVec 8) (rm : Reg)
deriving DecidableEq, Repr

/-- The operands of an ARM data-processing word (30_encoding.md R82). -/
structure DpArgs where
  cond : Cond
  setFlags : Bool
  rn : Reg
  rd : Reg
  op2 : Operand2
deriving DecidableEq, Repr

/-- The operands of an ARM block transfer (30_encoding.md R85): P, U, S, W, Rn and the register bitmap. -/
structure BlockArgs where
  cond : Cond
  pre : Bool
  up : Bool
  sBit : Bool
  writeBack : Bool
  rn : Reg
  list : BitVec 16
deriving DecidableEq, Repr

/-- The operands of an ARM single transfer (30_encoding.md R89): I, P, U, W, Rn, Rd and the 12-bit offset.
B and L choose the instruction. -/
structure SdtArgs where
  cond : Cond
  iBit : Bool
  pre : Bool
  up : Bool
  writeBack : Bool
  rn : Reg
  rd : Reg
  off : BitVec 12
deriving DecidableEq, Repr

/-- One constructor per row of the opcode table, in the table's order. -/
inductive Instr where
  -- ARM
  | swi (cond : Cond) (comment : BitVec 24)
  | bx (cond : Cond) (rm : Reg)
  | stm (f : BlockArgs)
  | ldm (f : BlockArgs)
  | b (cond : Cond) (imm24 : BitVec 24)
  | bl (cond : Cond) (imm24 : BitVec 24)
  | armAnd (f : DpArgs)
  | armEor (f : DpArgs)
  | sub (f : DpArgs)
  | rsb (f : DpArgs)
  | add (f : DpArgs)
  | adcUnknown (f : DpArgs)
  | sbcUnknown (f : DpArgs)
  | rscUnknown (f : DpArgs)
  | tstUnknown (f : DpArgs)
  | teqUnknown (f : DpArgs)
  | cmp (f : DpArgs)
  | cmnUnknown (f : DpArgs)
  | armOrr (f : DpArgs)
  | mov (f : DpArgs)
  | bicUnknown (f : DpArgs)
  | mvnUnknown (f : DpArgs)
  | str (f : SdtArgs)
  | strb (f : SdtArgs)
  | ldr (f : SdtArgs)
  | ldrb (f : SdtArgs)
  | coprocUnknown (cond : Cond) (op : BitVec 2) (body : BitVec 24)
  -- Thumb
  | lslImm (amount : BitVec 5) (rs rd : LowReg)
  | lsrImm (amount : BitVec 5) (rs rd : LowReg)
  | asrImm (amount : BitVec 5) (rs rd : LowReg)
  | movImm8 (rd : LowReg) (imm8 : Byte)
  | cmpImm8 (rd : LowReg) (imm8 : Byte)
  | addImm8 (rd : LowReg) (imm8 : Byte)
  | subImm8 (rd : LowReg) (imm8 : Byte)
  | thumbAnd (rs rd : LowReg)
  | thumbEor (rs rd : LowReg)
  | thumbOrr (rs rd : LowReg)
  | movLow (rs rd : LowReg)
  | thumbB (offset11 : BitVec 11)
  | thumbUnknown (h : Half)
deriving DecidableEq, Repr

/-- The condition of an ARM instruction; a Thumb instruction has none (40_execution_cycle.md R113, R114). -/
def Instr.cond? : Instr → Option Cond
  | .swi c _ | .bx c _ | .b c _ | .bl c _ | .coprocUnknown c _ _ => some c
  | .stm f | .ldm f => some f.cond
  | .armAnd f | .armEor f | .sub f | .rsb f | .add f | .adcUnknown f | .sbcUnknown f | .rscUnknown f
  | .tstUnknown f | .teqUnknown f | .cmp f | .cmnUnknown f | .armOrr f | .mov f | .bicUnknown f
  | .mvnUnknown f => some f.cond
  | .str f | .strb f | .ldr f | .ldrb f => some f.cond
  | .lslImm _ _ _ | .lsrImm _ _ _ | .asrImm _ _ _ | .movImm8 _ _ | .cmpImm8 _ _ | .addImm8 _ _
  | .subImm8 _ _ | .thumbAnd _ _ | .thumbEor _ _ | .thumbOrr _ _ | .movLow _ _ | .thumbB _
  | .thumbUnknown _ => none

/-- The opcode-table row a constructor stands for: the mnemonic of spec/opcode_table.json and the row's match
value (which tells the ARM AND, EOR, ORR and B from the Thumb ones). -/
def Instr.row : Instr → String × Nat
  | .swi _ _ => ("SWI", 0x0F000000)
  | .bx _ _ => ("BX", 0x012FFF10)
  | .stm _ => ("STM", 0x08000000)
  | .ldm _ => ("LDM", 0x08100000)
  | .b _ _ => ("B", 0x0A000000)
  | .bl _ _ => ("BL", 0x0B000000)
  | .armAnd _ => ("AND", 0x00000000)
  | .armEor _ => ("EOR", 0x00200000)
  | .sub _ => ("SUB", 0x00400000)
  | .rsb _ => ("RSB", 0x00600000)
  | .add _ => ("ADD", 0x00800000)
  | .adcUnknown _ => ("ADC__unknown", 0x00A00000)
  | .sbcUnknown _ => ("SBC__unknown", 0x00C00000)
  | .rscUnknown _ => ("RSC__unknown", 0x00E00000)
  | .tstUnknown _ => ("TST__unknown", 0x01000000)
  | .teqUnknown _ => ("TEQ__unknown", 0x01200000)
  | .cmp _ => ("CMP", 0x01400000)
  | .cmnUnknown _ => ("CMN__unknown", 0x01600000)
  | .armOrr _ => ("ORR", 0x01800000)
  | .mov _ => ("MOV", 0x01A00000)
  | .bicUnknown _ => ("BIC__unknown", 0x01C00000)
  | .mvnUnknown _ => ("MVN__unknown", 0x01E00000)
  | .str _ => ("STR", 0x04000000)
  | .strb _ => ("STRB", 0x04400000)
  | .ldr _ => ("LDR", 0x04100000)
  | .ldrb _ => ("LDRB", 0x04500000)
  | .coprocUnknown _ _ _ => ("UNKNOWN__ARM_coprocessor_space", 0x0C000000)
  | .lslImm _ _ _ => ("LSL_imm", 0x0000)
  | .lsrImm _ _ _ => ("LSR_imm", 0x0800)
  | .asrImm _ _ _ => ("ASR_imm", 0x1000)
  | .movImm8 _ _ => ("MOV_imm8", 0x2000)
  | .cmpImm8 _ _ => ("CMP_imm8", 0x2800)
  | .addImm8 _ _ => ("ADD_imm8", 0x3000)
  | .subImm8 _ _ => ("SUB_imm8", 0x3800)
  | .thumbAnd _ _ => ("AND", 0x4000)
  | .thumbEor _ _ => ("EOR", 0x4040)
  | .thumbOrr _ _ => ("ORR", 0x4300)
  | .movLow _ _ => ("MOV_low", 0x4600)
  | .thumbB _ => ("B", 0xE000)
  | .thumbUnknown _ => ("UNKNOWN__Thumb__every_other_halfword", 0x0000)

end Sys2Proof
end

