-- ==== Sys2Proof/WellFormed.lean ====
section
/-! DEFINITION. Which instruction terms stand for a word of the instruction set: the checks the types of
Syntax.lean do not already make. -/

namespace Sys2Proof

/-- Does a TEQ term spell the BX pattern `word & 0x0FFFFFF0 == 0x012FFF10` (30_encoding.md R83)? BX is tested
before data processing (R86), so such a term stands for no word: opcode 1001, I = 0, S = 0, Rn = Rd = 15 and
operand2 bits [11:4] = 0xF1. -/
def DpArgs.spellsBx (f : DpArgs) : Bool :=
  match f.op2 with
  | .imm _ _ => false
  | .reg ignored _ => !f.setFlags && f.rn == 15 && f.rd == 15 && ignored == 0xF1#8

/-- Does some Thumb pattern of 30_encoding.md R97 match the halfword? -/
def thumbMatches (h : Half) : Bool :=
  match (h.extractLsb' 13 3).toNat with
  | 0 => h.extractLsb' 11 2 != 3#2
  | 1 => true
  | 2 =>
    h.extractLsb' 6 10 == 0b0100000000#10 || h.extractLsb' 6 10 == 0b0100000001#10
      || h.extractLsb' 6 10 == 0b0100001100#10 || h.extractLsb' 6 10 == 0b0100011000#10
  | 7 => h.extractLsb' 11 2 == 0#2
  | _ => false

/-- An instruction term is well formed when some word decodes to it: the coprocessor space has bits [27:24] in
1100, 1101, 1110 (30_encoding.md R86, R98), a TEQ term is not BX (R99), and an unknown halfword matches no
Thumb pattern (R97). Every other term is well formed. -/
def Instr.wf : Instr → Bool
  | .coprocUnknown _ op _ => op != 3#2
  | .teqUnknown f => !f.spellsBx
  | .thumbUnknown h => !thumbMatches h
  | .swi _ _ | .bx _ _ | .stm _ | .ldm _ | .b _ _ | .bl _ _ | .armAnd _ | .armEor _ | .sub _ | .rsb _
  | .add _ | .adcUnknown _ | .sbcUnknown _ | .rscUnknown _ | .tstUnknown _ | .cmp _ | .cmnUnknown _
  | .armOrr _ | .mov _ | .bicUnknown _ | .mvnUnknown _ | .str _ | .strb _ | .ldr _ | .ldrb _
  | .lslImm _ _ _ | .lsrImm _ _ _ | .asrImm _ _ _ | .movImm8 _ _ | .cmpImm8 _ _ | .addImm8 _ _
  | .subImm8 _ _ | .thumbAnd _ _ | .thumbEor _ _ | .thumbOrr _ _ | .movLow _ _ | .thumbB _ => true

end Sys2Proof
end

