-- ==== Sys2Proof/Decode.lean ====
section
/-! DEFINITION. The decoder of 30_encoding.md (R86, R97, R99, R100), total on every word, and after it the encoder
written from the formats of R82 to R89 and R95. -/

namespace Sys2Proof

/-- The condition named by bits [31:28] (R81). -/
def condOfBits (v : BitVec 4) : Cond :=
  match v.toNat with
  | 0 => .eq | 1 => .ne | 2 => .cs | 3 => .cc | 4 => .mi | 5 => .pl | 6 => .vs | 7 => .vc
  | 8 => .hi | 9 => .ls | 10 => .ge | 11 => .lt | 12 => .gt | 13 => .le | 14 => .al | _ => .nv

/-- The 4-bit number of a condition (R81). -/
def Cond.bits : Cond → BitVec 4
  | .eq => 0 | .ne => 1 | .cs => 2 | .cc => 3 | .mi => 4 | .pl => 5 | .vs => 6 | .vc => 7
  | .hi => 8 | .ls => 9 | .ge => 10 | .lt => 11 | .gt => 12 | .le => 13 | .al => 14 | .nv => 15

/-- The register named by the 4-bit field whose lowest bit is `lo`. -/
def regAt (w : Word) (lo : Nat) : Reg := (w.extractLsb' lo 4).toFin

/-- The low register named by the 3-bit field whose lowest bit is `lo` (R95). -/
def lowAt (h : Half) (lo : Nat) : LowReg := (h.extractLsb' lo 3).toFin

/-- Bit `i` of an ARM word, as a flag. -/
def flagAt (w : Word) (i : Nat) : Bool := w.extractLsb' i 1 == 1#1

/-- The operands of a data-processing word (R82, R90, R91). -/
def dpArgsOf (w : Word) : DpArgs where
  cond := condOfBits (w.extractLsb' 28 4)
  setFlags := flagAt w 20
  rn := regAt w 16
  rd := regAt w 12
  op2 := if flagAt w 25 then .imm (w.extractLsb' 8 4) (w.extractLsb' 0 8)
         else .reg (w.extractLsb' 4 8) (regAt w 0)

/-- The operands of a block-transfer word (R85). -/
def blockArgsOf (w : Word) : BlockArgs where
  cond := condOfBits (w.extractLsb' 28 4)
  pre := flagAt w 24
  up := flagAt w 23
  sBit := flagAt w 22
  writeBack := flagAt w 21
  rn := regAt w 16
  list := w.extractLsb' 0 16

/-- The operands of a single-transfer word (R89). -/
def sdtArgsOf (w : Word) : SdtArgs where
  cond := condOfBits (w.extractLsb' 28 4)
  iBit := flagAt w 25
  pre := flagAt w 24
  up := flagAt w 23
  writeBack := flagAt w 21
  rn := regAt w 16
  rd := regAt w 12
  off := w.extractLsb' 0 12

/-- A data-processing word by its opcode, bits [24:21] (R99). -/
def decodeDp (w : Word) : Instr :=
  let f := dpArgsOf w
  match (w.extractLsb' 21 4).toNat with
  | 0 => .armAnd f
  | 1 => .armEor f
  | 2 => .sub f
  | 3 => .rsb f
  | 4 => .add f
  | 5 => .adcUnknown f
  | 6 => .sbcUnknown f
  | 7 => .rscUnknown f
  | 8 => .tstUnknown f
  | 9 => .teqUnknown f
  | 10 => .cmp f
  | 11 => .cmnUnknown f
  | 12 => .armOrr f
  | 13 => .mov f
  | 14 => .bicUnknown f
  | _ => .mvnUnknown f

/-- A single-transfer word by B, bit 22, and L, bit 20 (R89). -/
def decodeSdt (w : Word) : Instr :=
  let f := sdtArgsOf w
  if flagAt w 20 then (if flagAt w 22 then .ldrb f else .ldr f)
  else (if flagAt w 22 then .strb f else .str f)

/-- The ARM decoder: the classes of R86 in their fixed order. -/
def decodeArm (w : Word) : Instr :=
  let cond := condOfBits (w.extractLsb' 28 4)
  if w.extractLsb' 24 4 = 0b1111#4 then .swi cond (w.extractLsb' 0 24)
  else if w.extractLsb' 4 24 = 0x12FFF1#24 then .bx cond (regAt w 0)
  else if w.extractLsb' 25 3 = 0b100#3 then
    (if flagAt w 20 then .ldm (blockArgsOf w) else .stm (blockArgsOf w))
  else if w.extractLsb' 25 3 = 0b101#3 then
    (if flagAt w 24 then .bl cond (w.extractLsb' 0 24) else .b cond (w.extractLsb' 0 24))
  else if w.extractLsb' 26 2 = 0b00#2 then decodeDp w
  else if w.extractLsb' 26 2 = 0b01#2 then decodeSdt w
  else .coprocUnknown cond (w.extractLsb' 24 2) (w.extractLsb' 0 24)

/-- The Thumb decoder (R97). -/
def decodeThumb (h : Half) : Instr :=
  match (h.extractLsb' 13 3).toNat with
  | 0 =>
    match (h.extractLsb' 11 2).toNat with
    | 0 => .lslImm (h.extractLsb' 6 5) (lowAt h 3) (lowAt h 0)
    | 1 => .lsrImm (h.extractLsb' 6 5) (lowAt h 3) (lowAt h 0)
    | 2 => .asrImm (h.extractLsb' 6 5) (lowAt h 3) (lowAt h 0)
    | _ => .thumbUnknown h
  | 1 =>
    match (h.extractLsb' 11 2).toNat with
    | 0 => .movImm8 (lowAt h 8) (h.extractLsb' 0 8)
    | 1 => .cmpImm8 (lowAt h 8) (h.extractLsb' 0 8)
    | 2 => .addImm8 (lowAt h 8) (h.extractLsb' 0 8)
    | _ => .subImm8 (lowAt h 8) (h.extractLsb' 0 8)
  | 2 =>
    if h.extractLsb' 10 6 = 0b010000#6 then
      (match (h.extractLsb' 6 4).toNat with
       | 0 => .thumbAnd (lowAt h 3) (lowAt h 0)
       | 1 => .thumbEor (lowAt h 3) (lowAt h 0)
       | 12 => .thumbOrr (lowAt h 3) (lowAt h 0)
       | _ => .thumbUnknown h)
    else if h.extractLsb' 6 10 = 0b0100011000#10 then .movLow (lowAt h 3) (lowAt h 0)
    else .thumbUnknown h
  | 7 => if h.extractLsb' 11 2 = 0#2 then .thumbB (h.extractLsb' 0 11) else .thumbUnknown h
  | _ => .thumbUnknown h

/-- What the machine fetches: one ARM word or one Thumb halfword (R80). -/
inductive Code where
  | arm (w : Word)
  | thumb (h : Half)
deriving DecidableEq, Repr

/-- The instruction a fetched code stands for. -/
def decode : Code → Instr
  | .arm w => decodeArm w
  | .thumb h => decodeThumb h

/-- Why a byte list holds no instruction: it ends before the fetch width (R80). Every complete code decodes. -/
inductive DecodeError where
  | truncated
deriving DecidableEq, Repr

/-- The first instruction of a byte list, little-endian (20_memory.md R46), and the bytes after it. `thumb` is the
T bit, which alone selects the decoder (R80). -/
def decodeBytes (thumb : Bool) : List Byte → Except DecodeError (Instr × List Byte)
  | b0 :: b1 :: rest =>
    if thumb then .ok (decodeThumb (b1 ++ b0), rest)
    else
      match rest with
      | b2 :: b3 :: rest' => .ok (decodeArm (b3 ++ b2 ++ b1 ++ b0), rest')
      | _ => .error .truncated
  | _ => .error .truncated

/-! The encoder. -/

/-- Bit I of a data-processing word: 1 for an immediate operand2 (R82). -/
def Operand2.iBit : Operand2 → BitVec 1
  | .imm _ _ => 1#1
  | .reg _ _ => 0#1

/-- Bits [11:0] of a data-processing word (R82). -/
def Operand2.bits : Operand2 → BitVec 12
  | .imm rot imm8 => rot ++ imm8
  | .reg ignored rm => ignored ++ BitVec.ofFin (w := 4) rm

/-- A data-processing word with the given opcode (R82). -/
def encodeDp (opcode : BitVec 4) (f : DpArgs) : Word :=
  f.cond.bits ++ 0b00#2 ++ f.op2.iBit ++ opcode ++ BitVec.ofBool f.setFlags
    ++ BitVec.ofFin (w := 4) f.rn ++ BitVec.ofFin (w := 4) f.rd ++ f.op2.bits

/-- A block-transfer word with the given L bit (R85). -/
def encodeBlock (l : BitVec 1) (f : BlockArgs) : Word :=
  f.cond.bits ++ 0b100#3 ++ BitVec.ofBool f.pre ++ BitVec.ofBool f.up ++ BitVec.ofBool f.sBit
    ++ BitVec.ofBool f.writeBack ++ l ++ BitVec.ofFin (w := 4) f.rn ++ f.list

/-- A single-transfer word with the given B and L bits (R89). -/
def encodeSdt (byteBit l : BitVec 1) (f : SdtArgs) : Word :=
  f.cond.bits ++ 0b01#2 ++ BitVec.ofBool f.iBit ++ BitVec.ofBool f.pre ++ BitVec.ofBool f.up ++ byteBit
    ++ BitVec.ofBool f.writeBack ++ l ++ BitVec.ofFin (w := 4) f.rn ++ BitVec.ofFin (w := 4) f.rd ++ f.off

/-- A Thumb halfword with two low registers in bits [5:0] (R95). -/
def encodeLow (top : BitVec 10) (rs rd : LowReg) : Half :=
  top ++ BitVec.ofFin (w := 3) rs ++ BitVec.ofFin (w := 3) rd

/-- A Thumb halfword of the 8-bit-immediate group (R95). -/
def encodeImm8 (op : BitVec 2) (rd : LowReg) (imm8 : Byte) : Half :=
  0b001#3 ++ op ++ BitVec.ofFin (w := 3) rd ++ imm8

/-- The word or halfword of an instruction. -/
def encode : Instr → Code
  | .swi c comment => .arm (c.bits ++ 0b1111#4 ++ comment)
  | .bx c rm => .arm (c.bits ++ 0x12FFF1#24 ++ BitVec.ofFin (w := 4) rm)
  | .stm f => .arm (encodeBlock 0#1 f)
  | .ldm f => .arm (encodeBlock 1#1 f)
  | .b c imm24 => .arm (c.bits ++ 0b1010#4 ++ imm24)
  | .bl c imm24 => .arm (c.bits ++ 0b1011#4 ++ imm24)
  | .armAnd f => .arm (encodeDp 0b0000#4 f)
  | .armEor f => .arm (encodeDp 0b0001#4 f)
  | .sub f => .arm (encodeDp 0b0010#4 f)
  | .rsb f => .arm (encodeDp 0b0011#4 f)
  | .add f => .arm (encodeDp 0b0100#4 f)
  | .adcUnknown f => .arm (encodeDp 0b0101#4 f)
  | .sbcUnknown f => .arm (encodeDp 0b0110#4 f)
  | .rscUnknown f => .arm (encodeDp 0b0111#4 f)
  | .tstUnknown f => .arm (encodeDp 0b1000#4 f)
  | .teqUnknown f => .arm (encodeDp 0b1001#4 f)
  | .cmp f => .arm (encodeDp 0b1010#4 f)
  | .cmnUnknown f => .arm (encodeDp 0b1011#4 f)
  | .armOrr f => .arm (encodeDp 0b1100#4 f)
  | .mov f => .arm (encodeDp 0b1101#4 f)
  | .bicUnknown f => .arm (encodeDp 0b1110#4 f)
  | .mvnUnknown f => .arm (encodeDp 0b1111#4 f)
  | .str f => .arm (encodeSdt 0#1 0#1 f)
  | .strb f => .arm (encodeSdt 1#1 0#1 f)
  | .ldr f => .arm (encodeSdt 0#1 1#1 f)
  | .ldrb f => .arm (encodeSdt 1#1 1#1 f)
  | .coprocUnknown c op body => .arm (c.bits ++ 0b11#2 ++ op ++ body)
  | .lslImm amount rs rd => .thumb (encodeLow (0b00000#5 ++ amount) rs rd)
  | .lsrImm amount rs rd => .thumb (encodeLow (0b00001#5 ++ amount) rs rd)
  | .asrImm amount rs rd => .thumb (encodeLow (0b00010#5 ++ amount) rs rd)
  | .movImm8 rd imm8 => .thumb (encodeImm8 0b00#2 rd imm8)
  | .cmpImm8 rd imm8 => .thumb (encodeImm8 0b01#2 rd imm8)
  | .addImm8 rd imm8 => .thumb (encodeImm8 0b10#2 rd imm8)
  | .subImm8 rd imm8 => .thumb (encodeImm8 0b11#2 rd imm8)
  | .thumbAnd rs rd => .thumb (encodeLow 0b0100000000#10 rs rd)
  | .thumbEor rs rd => .thumb (encodeLow 0b0100000001#10 rs rd)
  | .thumbOrr rs rd => .thumb (encodeLow 0b0100001100#10 rs rd)
  | .movLow rs rd => .thumb (encodeLow 0b0100011000#10 rs rd)
  | .thumbB offset11 => .thumb (0b11100#5 ++ offset11)
  | .thumbUnknown h => .thumb h

/-- The bytes of a code in memory, lowest address first (20_memory.md R46). -/
def Code.bytes : Code → List Byte
  | .arm w => [w.extractLsb' 0 8, w.extractLsb' 8 8, w.extractLsb' 16 8, w.extractLsb' 24 8]
  | .thumb h => [h.extractLsb' 0 8, h.extractLsb' 8 8]

/-- The instruction bits as an UnknownInstruction event reports them: the word, or the halfword zero-extended
(40_execution_cycle.md R119, R120). -/
def Code.bits : Code → Word
  | .arm w => w
  | .thumb h => h.zeroExtend 32

/-- Is it a Thumb halfword? -/
def Code.isThumb : Code → Bool
  | .arm _ => false
  | .thumb _ => true

/-- The code a table word stands for: a row of at most 16 bits is a Thumb row, any other an ARM row (R100). -/
def codeOfTableWord (nbits w : Nat) : Code :=
  if nbits ≤ 16 then .thumb (BitVec.ofNat 16 (w % 2 ^ nbits)) else .arm (BitVec.ofNat 32 (w % 2 ^ nbits))

/-- The instruction this decoder reads from an opcode-table word: its bytes as memory holds them, decoded. -/
def decodeTableWord (nbits w : Nat) : Option Instr :=
  let c := codeOfTableWord nbits w
  match decodeBytes c.isThumb c.bytes with
  | .ok (i, _) => some i
  | .error _ => none

end Sys2Proof
end

