-- ==== Sys2Proof/Machine/Platform.lean ====
section
/-! DEFINITION. The default configuration (00_scope.md R9, 20_memory.md R69) and when a configuration is well formed
(R10). -/

namespace Sys2Proof.Machine

/-- The default configuration of 00_scope.md R9. -/
def defaultCfg : Cfg where
  boot := { base := 0x00000000, size := 0x00004000 }
  gram := { base := 0x02000000, size := 0x00040000 }
  sram := { base := 0x03000000, size := 0x00008000 }
  cart := { base := 0x08000000, size := 0x02000000 }
  io := { base := 0x04000000, size := 0x00000400 }
  ieOff := 0x200
  ifOff := 0x204
  imeOff := 0x208
  tmrOff := 0x100
  tmrChannels := 4

/-- A region has size > 0 and does not wrap: base + size ≤ 2^32 (R10). -/
def regionOk (r : Region) : Bool := decide (0 < r.size) && decide (r.base + r.size ≤ 2 ^ 32)

/-- Do the ranges `[a, a + m)` and `[b, b + n)` have no common offset? -/
def rangesDisjoint (a m b n : Nat) : Bool := decide (min (a + m) (b + n) ≤ max a b)

/-- 00_scope.md R10: every region is sound; the three interrupt-register ranges and the timer range lie inside the
I/O window and do not overlap each other. Regions may overlap. -/
def cfgOk (c : Cfg) : Bool :=
  regionOk c.boot && regionOk c.gram && regionOk c.sram && regionOk c.cart && regionOk c.io
    && decide (c.ieOff + 4 ≤ c.io.size) && decide (c.ifOff + 4 ≤ c.io.size)
    && decide (c.imeOff + 4 ≤ c.io.size) && decide (c.tmrOff + 4 * c.tmrChannels ≤ c.io.size)
    && rangesDisjoint c.ieOff 4 c.ifOff 4 && rangesDisjoint c.ieOff 4 c.imeOff 4
    && rangesDisjoint c.ifOff 4 c.imeOff 4
    && rangesDisjoint c.ieOff 4 c.tmrOff (4 * c.tmrChannels)
    && rangesDisjoint c.ifOff 4 c.tmrOff (4 * c.tmrChannels)
    && rangesDisjoint c.imeOff 4 c.tmrOff (4 * c.tmrChannels)

end Sys2Proof.Machine
end

