-- ==== Sys2Proof/Machine/State.lean ====
section
/-! DEFINITION. The state of the CORE (10_state.md R38), its events (60_exceptions.md R210), and the reasons a step
or a host action can stop. -/

namespace Sys2Proof.Machine

/-- One byte array of the address space (10_state.md R33), by offset from the region's base: offsets strictly
rising, no entry equal to 0, which is what an unlisted offset reads as (20_memory.md R67, 70 R231, R233). -/
abbrev Memory := List Host.Cell

/-- Why an access is made (20_memory.md R50). -/
inductive AccessKind where
  | fetch | read | write | host
deriving DecidableEq, Repr

/-- The width of an access: 1, 2 or 4 bytes (20_memory.md R63). -/
inductive Width where
  | byte | half | word
deriving DecidableEq, Repr

/-- The instruction set an instruction belongs to (60_exceptions.md R210). -/
inductive Isa where
  | arm | thumb
deriving DecidableEq, Repr

/-- The half of a timer channel's register pair: h = 0 is low, h = 1 is high (20_memory.md R60). -/
inductive TimerHalf where
  | low | high
deriving DecidableEq, Repr

/-- The events of 60_exceptions.md R210 and R227. -/
inductive Event where
  | unknownInstruction (isa : Isa) (addr : Word) (bits : Word)
  | invalidAddress (kind : AccessKind) (addr : Word) (n : Width)
  | readOnlyViolation (kind : AccessKind) (addr : Word) (n : Width)
  | softwareInterrupt (addr : Word) (comment : BitVec 24)
  | timerWrite (ch : Nat) (h : TimerHalf) (value : Half) (laneMask : BitVec 2)
  | timerRead (ch : Nat) (h : TimerHalf) (answer : Half)
deriving DecidableEq, Repr

/-- The faults that stop the machine: none. "No condition in this core terminates the process"
(60_exceptions.md R211, 40_execution_cycle.md R123), so nothing raises one and there is nothing to be safe or
unsafe about. -/
inductive Fault where
deriving DecidableEq, Repr

/-- What the model refuses. -/
inductive Refusal where
  /-- An instruction without a meaning. No arm of `exec` answers it: every row of the opcode table has its meaning.
  Safe. -/
  | notModelled (mnemonic : String)
  /-- Raised by the host actions `loadBootImage` and `loadImage` once `imagesLoaded` is true: the action is not
  available (20_memory.md R67, 93 I12). No instruction raises it. Safe. -/
  | imageLoadAfterFirstStep
deriving DecidableEq, Repr

/-- The whole state (10_state.md R38), and three fields of the model's own: `cfg`, `events` and `timerDraws`. -/
structure State where
  /-- The platform configuration, a parameter that no action writes (00_scope.md R9, 10_state.md R38). Log 1. -/
  cfg : Cfg
  /-- The 16 general registers; `x[15]` is the pc (R20, R23). -/
  x : Vector Word 16
  /-- Status word bit 31 (R26). -/
  n : Bool
  /-- Status word bit 30 (R27). -/
  z : Bool
  /-- Status word bit 29 (R28). -/
  c : Bool
  /-- Status word bit 28 (R29). -/
  v : Bool
  /-- Status word bit 5: false is ARM, true is Thumb (R30). -/
  t : Bool
  /-- Boot code, read-only (R33). -/
  boot : Memory
  /-- General RAM (R33). -/
  gram : Memory
  /-- Scratch RAM (R33). -/
  sram : Memory
  /-- Cartridge image, read-only (R33). -/
  cart : Memory
  /-- The flat fallback array of the I/O window (R33). -/
  iofb : Memory
  /-- Interrupt enable (R31). -/
  ie : Word
  /-- Interrupt flags, write-one-to-clear (R31). -/
  ifr : Word
  /-- Interrupt master enable (R31). -/
  ime : Word
  /-- Has the first step run (R34)? -/
  imagesLoaded : Bool
  /-- The output of the last action: its ordered event list (60_exceptions.md R210). Nothing reads it. Log 2. -/
  events : List Event
  /-- How many answers of the timer collaborator have been drawn (20_memory.md R60). Log 3. -/
  timerDraws : Nat
deriving DecidableEq, Repr

/-- The state at construction under a configuration (70_reset_and_hazards.md R233). -/
def State.construct (cfg : Cfg) : State where
  cfg := cfg
  x := Vector.replicate 16 0
  n := false
  z := false
  c := false
  v := false
  t := false
  boot := []
  gram := []
  sram := []
  cart := []
  iofb := []
  ie := 0
  ifr := 0
  ime := 0
  imagesLoaded := false
  events := []
  timerDraws := 0

/-- The machine right after reset with no image loaded, under the default configuration (R231, R233). Log 6. -/
def State.reset : State := State.construct defaultCfg

end Sys2Proof.Machine
end

