-- ==== Sys2Proof/Machine/Ops.lean ====
section
/-! DEFINITION. The operations every meaning is written with: registers, events, the byte arrays and the bus of
20_memory.md. -/

namespace Sys2Proof.Machine

/-! Registers and the status word. -/

/-- Read a general register (10_state.md R20). -/
def State.reg (s : State) (r : Reg) : Word := s.x.get r

/-- Write a general register; no register is hardwired (R20). -/
def State.setReg (s : State) (r : Reg) (v : Word) : State := { s with x := s.x.set r.val v r.isLt }

/-- The program counter, `x[15]` (R23). -/
def State.pc (s : State) : Word := s.reg 15

/-- Write the program counter (00_scope.md R13). -/
def State.setPc (s : State) (v : Word) : State := s.setReg 15 v

/-- The status word: N, Z, C, V in bits 31 to 28, T in bit 5, every other bit 0 (R25). -/
def State.statusWord (s : State) : Word :=
  BitVec.ofBool s.n ++ BitVec.ofBool s.z ++ BitVec.ofBool s.c ++ BitVec.ofBool s.v ++ 0#22
    ++ BitVec.ofBool s.t ++ 0#5

/-! Events. -/

/-- Append an event to the step's list; nothing else changes (00_scope.md R15). -/
def emit (e : Event) (s : State) : State := { s with events := s.events ++ [e] }

/-- The condition that stands in the place of an exception: emit UnknownInstruction and change nothing more, so
that execution goes on at the advanced pc (00_scope.md R15, 60_exceptions.md R212, R216). -/
def raiseUnknown (isa : Isa) (ia bits : Word) (s : State) : State :=
  emit (.unknownInstruction isa ia bits) s

/-- The address of the ARM instruction being executed: the pc has already advanced by 4 (40_execution_cycle.md
R111). -/
def armIa (s : State) : Word := s.pc - 4#32

/-- The address of the Thumb instruction being executed: the pc has already advanced by 2 (R111). -/
def thumbIa (s : State) : Word := s.pc - 2#32

/-! Byte arrays. -/

/-- The byte at an offset; an unlisted offset reads 0. -/
def Memory.read : Memory → Nat → Byte
  | [], _ => 0#8
  | (k, v) :: m, a => if a = k then v else Memory.read m a

/-- Store a byte at an offset, keeping the canonical form: storing 0 removes the entry. -/
def Memory.write : Memory → Nat → Byte → Memory
  | [], a, b => if b = 0#8 then [] else [(a, b)]
  | (k, v) :: m, a, b =>
    if a < k then (if b = 0#8 then (k, v) :: m else (a, b) :: (k, v) :: m)
    else if a = k then (if b = 0#8 then m else (a, b) :: m)
    else (k, v) :: Memory.write m a b

/-- The offsets of a canonical array that starts at or above `lo`: strictly rising, no byte 0. -/
def Memory.wfFrom : Nat → Memory → Bool
  | _, [] => true
  | lo, (k, v) :: m => decide (lo ≤ k) && v != 0#8 && Memory.wfFrom (k + 1) m

/-- The canonical form: offsets strictly rising, no entry equal to what an unlisted offset reads as. -/
def Memory.wf (m : Memory) : Bool := Memory.wfFrom 0 m

/-- Does every listed offset lie below the array's size (10_state.md R33)? -/
def Memory.below (size : Nat) (m : Memory) : Bool := m.all fun c => decide (c.1 < size)

/-- The array that holds a list of bytes from an offset on, and 0 everywhere else (20_memory.md R67). -/
def Memory.ofBytes : Nat → List Byte → Memory
  | _, [] => []
  | a, b :: bs => if b = 0#8 then Memory.ofBytes (a + 1) bs else (a, b) :: Memory.ofBytes (a + 1) bs

/-! Bytes of words, little-endian (20_memory.md R45). -/

/-- The number of bytes of an access. -/
def Width.bytes : Width → Nat
  | .byte => 1
  | .half => 2
  | .word => 4

/-- Bits [8k+7:8k] of a 32-bit value (R45, R57). -/
def byteOf (v : Word) (k : Nat) : Byte := v.extractLsb' (8 * k) 8

/-- The `n` low bytes of a value from byte `k` on, least significant first. -/
def bytesFrom (v : Word) : Nat → Nat → List Byte
  | _, 0 => []
  | k, n + 1 => byteOf v k :: bytesFrom v (k + 1) n

/-- The value whose bytes are the list, least significant first; upper bits 0 (R50). -/
def wordOfBytes : List Byte → Word
  | [] => 0#32
  | b :: bs => b.zeroExtend 32 ||| (wordOfBytes bs <<< 8)

/-- The word with byte lane `k` replaced (R57). -/
def setLane (w : Word) (k : Nat) (b : Byte) : Word :=
  (w &&& ~~~(0xFF#32 <<< (8 * k))) ||| (b.zeroExtend 32 <<< (8 * k))

/-- The word with the bits written as 1 in byte lane `k` cleared (R58). -/
def clearLane (w : Word) (k : Nat) (b : Byte) : Word := w &&& ~~~(b.zeroExtend 32 <<< (8 * k))

/-! The region table (20_memory.md R40 to R42) and the I/O sub-dispatch (R56). -/

/-- The region kinds in precedence order (R40). -/
inductive RegionKind where
  | boot | gram | sram | cart | io
deriving DecidableEq, Repr

/-- Does the address lie in the region, compared unsigned with no wrap (R41)? -/
def inRegion (r : Region) (a : Word) : Bool :=
  decide (r.base ≤ a.toNat) && decide (a.toNat - r.base < r.size)

/-- The first region that contains the address, if any (R42). -/
def resolve (c : Cfg) (a : Word) : Option RegionKind :=
  if inRegion c.boot a then some .boot
  else if inRegion c.gram a then some .gram
  else if inRegion c.sram a then some .sram
  else if inRegion c.cart a then some .cart
  else if inRegion c.io a then some .io
  else none

/-- What one byte address reaches. -/
inductive Target where
  | boot (off : Nat)
  | gram (off : Nat)
  | sram (off : Nat)
  | cart (off : Nat)
  | ie (lane : Nat)
  | ifr (lane : Nat)
  | ime (lane : Nat)
  | timer (ch : Nat) (h : TimerHalf) (lane : Nat)
  | iofb (off : Nat)
  | unmapped
deriving DecidableEq, Repr

/-- The half selector of a timer byte is bit 1 of its address (R60). -/
def halfOf (a : Word) : TimerHalf := if a.getLsbD 1 then .high else .low

/-- The lane of a timer byte within its half is bit 0 of its address (R60). -/
def laneOf (a : Word) : Nat := if a.getLsbD 0 then 1 else 0

/-- The I/O sub-dispatch by offset `o`, in the order of R56. -/
def ioTarget (c : Cfg) (o : Nat) (a : Word) : Target :=
  if c.ieOff ≤ o ∧ o < c.ieOff + 4 then .ie (o - c.ieOff)
  else if c.ifOff ≤ o ∧ o < c.ifOff + 4 then .ifr (o - c.ifOff)
  else if c.imeOff ≤ o ∧ o < c.imeOff + 4 then .ime (o - c.imeOff)
  else if c.tmrOff ≤ o ∧ o < c.tmrOff + 4 * c.tmrChannels then
    .timer ((o - c.tmrOff) / 4) (halfOf a) (laneOf a)
  else .iofb o

/-- What a byte address reaches (R48, R52, R56). -/
def target (c : Cfg) (a : Word) : Target :=
  match resolve c a with
  | some .boot => .boot (a.toNat - c.boot.base)
  | some .gram => .gram (a.toNat - c.gram.base)
  | some .sram => .sram (a.toNat - c.sram.base)
  | some .cart => .cart (a.toNat - c.cart.base)
  | some .io => ioTarget c (a.toNat - c.io.base) a
  | none => .unmapped

/-- Is the byte in no region (R41)? -/
def isUnmapped (c : Cfg) (a : Word) : Bool := target c a == .unmapped

/-- Is the byte in a read-only region, BOOT or CART (R40)? -/
def isReadOnly (c : Cfg) (a : Word) : Bool :=
  match target c a with
  | .boot _ | .cart _ => true
  | _ => false

/-- The `n` byte addresses of an access, modulo 2^32 (R44). -/
def byteAddrs : Word → Nat → List Word
  | _, 0 => []
  | a, n + 1 => a :: byteAddrs (a + 1#32) n

/-- The byte the CORE itself holds at a target: what a read there returns without asking anyone. A timer byte is
not the CORE's (`none`); an unmapped byte reads 0 (R48, R57, R58). -/
def State.held (s : State) : Target → Option Byte
  | .boot o => some (s.boot.read o)
  | .gram o => some (s.gram.read o)
  | .sram o => some (s.sram.read o)
  | .cart o => some (s.cart.read o)
  | .ie l => some (byteOf s.ie l)
  | .ifr l => some (byteOf s.ifr l)
  | .ime l => some (byteOf s.ime l)
  | .timer _ _ _ => none
  | .iofb o => some (s.iofb.read o)
  | .unmapped => some 0#8

/-- The byte the CORE itself holds at an address. -/
def State.peek (s : State) (a : Word) : Option Byte := s.held (target s.cfg a)

/-! Reads (20_memory.md R48 to R51, R60). -/

/-- A timer channel half: the key of one interaction with the collaborator (R60). -/
abbrev TimerKey := Nat × TimerHalf

/-- Lane `l` of a 16-bit timer value (R60). -/
def halfLane (v : Half) (l : Nat) : Byte := v.extractLsb' (8 * l) 8

/-- Ask the timer collaborator: the answer is the next free value, and the interaction is recorded (R60). -/
def drawTimer (key : TimerKey) (s : State) : Half × State :=
  let t := Config.timerAnswer s.timerDraws
  (t, emit (.timerRead key.1 key.2 t) { s with timerDraws := s.timerDraws + 1 })

/-- Read one byte. `asked` holds the answers this access already has, so that the timer bytes of one access that
share a channel half make one interaction (R60). -/
def readByte (a : Word) (asked : List (TimerKey × Half)) (s : State) :
    Byte × List (TimerKey × Half) × State :=
  match target s.cfg a with
  | .timer ch h l =>
    match asked.lookup (ch, h) with
    | some t => (halfLane t l, asked, s)
    | none =>
      let drawn := drawTimer (ch, h) s
      (halfLane drawn.1 l, ((ch, h), drawn.1) :: asked, drawn.2)
  | _ => ((s.peek a).getD 0#8, asked, s)

/-- Read the bytes of an access in ascending order. -/
def readBytes : List Word → List (TimerKey × Half) → State → List Byte × State
  | [], _, s => ([], s)
  | a :: as, asked, s =>
    let first := readByte a asked s
    let others := readBytes as first.2.1 first.2.2
    (first.1 :: others.1, others.2)

/-- One InvalidAddress event if some byte of the access is unmapped (R51). -/
def noteUnmapped (kind : AccessKind) (addr : Word) (n : Width) (s : State) : State :=
  if (byteAddrs addr n.bytes).any (isUnmapped s.cfg) then emit (.invalidAddress kind addr n) s else s

/-- `read8`, `read16` and `read32` (R50). -/
def readN (kind : AccessKind) (addr : Word) (n : Width) (s : State) : Word × State :=
  let got := readBytes (byteAddrs addr n.bytes) [] s
  (wordOfBytes got.1, noteUnmapped kind addr n got.2)

/-! Writes (20_memory.md R52 to R54, R57, R58, R60). -/

/-- Store one byte at a target, or drop it (R52, R57, R58). A timer byte touches no storage of the CORE (R60). -/
def storeAt (target : Target) (b : Byte) (s : State) : State :=
  match target with
  | .gram o => { s with gram := s.gram.write o b }
  | .sram o => { s with sram := s.sram.write o b }
  | .iofb o => { s with iofb := s.iofb.write o b }
  | .ie l => { s with ie := setLane s.ie l b }
  | .ifr l => { s with ifr := clearLane s.ifr l b }
  | .ime l => { s with ime := setLane s.ime l b }
  | .boot _ | .cart _ | .timer _ _ _ | .unmapped => s

/-- `writeByte`: store one byte by what its address reaches (R52). -/
def writeByte (a : Word) (b : Byte) (s : State) : State := storeAt (target s.cfg a) b s

/-- Store the bytes of an access in ascending order (R53). -/
def writeBytes : List (Word × Byte) → State → State
  | [], s => s
  | (a, b) :: rest, s => writeBytes rest (writeByte a b s)

/-- The bytes of one access that go to one timer channel half: the value and the lanes written (R60). -/
structure TimerGroup where
  key : TimerKey
  value : Half
  mask : BitVec 2
deriving DecidableEq, Repr

/-- Put a byte into its group, opening the group at its first byte (R60). -/
def addToGroups (key : TimerKey) (l : Nat) (b : Byte) : List TimerGroup → List TimerGroup
  | [] => [{ key := key, value := b.zeroExtend 16 <<< (8 * l), mask := 1#2 <<< l }]
  | g :: gs =>
    if g.key = key then
      { g with value := g.value ||| (b.zeroExtend 16 <<< (8 * l)), mask := g.mask ||| (1#2 <<< l) } :: gs
    else g :: addToGroups key l b gs

/-- The timer groups of an access, in the ascending order of their first bytes (R60). -/
def timerGroups (c : Cfg) : List (Word × Byte) → List TimerGroup → List TimerGroup
  | [], gs => gs
  | (a, b) :: rest, gs =>
    match target c a with
    | .timer ch h l => timerGroups c rest (addToGroups (ch, h) l b gs)
    | _ => timerGroups c rest gs

/-- Send the groups to the timer collaborator: one TimerWrite event each (R60). -/
def sendGroups : List TimerGroup → State → State
  | [], s => s
  | g :: gs, s => sendGroups gs (emit (.timerWrite g.key.1 g.key.2 g.value g.mask) s)

/-- One ReadOnlyViolation event if some byte of the access is in BOOT or CART (R54). -/
def noteReadOnly (kind : AccessKind) (addr : Word) (n : Width) (s : State) : State :=
  if (byteAddrs addr n.bytes).any (isReadOnly s.cfg) then emit (.readOnlyViolation kind addr n) s else s

/-- `write8`, `write16` and `write32`: the low bytes of `v` (R53). -/
def writeN (kind : AccessKind) (addr : Word) (n : Width) (v : Word) (s : State) : State :=
  let bytes := (byteAddrs addr n.bytes).zip (bytesFrom v 0 n.bytes)
  noteReadOnly kind addr n
    (noteUnmapped kind addr n (sendGroups (timerGroups s.cfg bytes []) (writeBytes bytes s)))

end Sys2Proof.Machine
end

