-- ==== Sys2Proof/Machine/Flags.lean ====
section
/-! DEFINITION. The flag computations (00_scope.md R13, 41_arm_data_processing.md R131) and the condition test
(40_execution_cycle.md R115, R116). -/

namespace Sys2Proof.Machine

/-- `NZ(v)`: N and Z from a result; C and V keep their values (R13, 10_state.md R28). -/
def setNZ (r : Word) (s : State) : State := { s with n := r.msb, z := r == 0#32 }

/-- Carry-out of an unsigned addition (R131). -/
def addCarry (a b : Word) : Bool := decide (2 ^ 32 ≤ a.toNat + b.toNat)

/-- Signed overflow of an addition with result `r` (R131). -/
def addOverflow (a b r : Word) : Bool := a.msb == b.msb && r.msb != a.msb

/-- The "no-borrow" of an unsigned subtraction (R131). -/
def subCarry (a b : Word) : Bool := decide (b.toNat ≤ a.toNat)

/-- Signed overflow of the subtraction `a - b` with result `r` (R131). -/
def subOverflow (a b r : Word) : Bool := a.msb != b.msb && r.msb != a.msb

/-- `addFlags(a, b, r)` (R131). -/
def addFlags (a b r : Word) (s : State) : State :=
  { s with n := r.msb, z := r == 0#32, c := addCarry a b, v := addOverflow a b r }

/-- `subFlags(a, b, r)` (R131). -/
def subFlags (a b r : Word) (s : State) : State :=
  { s with n := r.msb, z := r == 0#32, c := subCarry a b, v := subOverflow a b r }

/-- The documented condition table (R115); every other code passes (R116). -/
def condPasses (cond : Cond) (s : State) : Bool :=
  match cond with
  | .eq => s.z
  | .ne => !s.z
  | .mi => s.n
  | .pl => !s.n
  | .vs => s.v
  | .vc => !s.v
  | .al => true
  | .cs | .cc | .hi | .ls | .ge | .lt | .gt | .le | .nv => true

/-- Run an ARM instruction if its condition passes; a skipped one changes nothing (R112, R117). -/
def whenCond (cond : Cond) (body : State → State) (s : State) : Host.Outcome State Fault Refusal :=
  if condPasses cond s then .next (body s) else .next s

end Sys2Proof.Machine
end

