-- ==== Sys2Proof/Machine/Operands.lean ====
section
/-! DEFINITION. Every operand form: operand2 (30_encoding.md R90, R91), branch offsets (R92, R96), single-transfer
addresses (44_arm_single_transfer.md R170) and block-transfer addresses (43_arm_block_transfer.md R160). -/

namespace Sys2Proof.Machine

/-- The value of operand2: an 8-bit immediate rotated right by twice the rotate field, or a register; R15 reads the
advanced pc (R90, R91). -/
def op2Value (o : Operand2) (s : State) : Word :=
  match o with
  | .imm rot imm8 => (imm8.zeroExtend 32).rotateRight (2 * rot.toNat)
  | .reg _ rm => s.reg rm

/-- The ARM branch offset: 24 bits sign-extended, times 4 (R92). -/
def branchOffset (imm24 : BitVec 24) : Word := imm24.signExtend 32 <<< 2

/-- The Thumb branch offset: 11 bits sign-extended, times 2 (R96). -/
def thumbBranchOffset (offset11 : BitVec 11) : Word := offset11.signExtend 32 <<< 1

/-- A low register as a general register (46_thumb.md R185). -/
def lowReg (r : LowReg) : Reg := ⟨r.val, Nat.lt_of_lt_of_le r.isLt (by decide)⟩

/-- `adj`: the base plus or minus the zero-extended 12-bit offset (R93, R170). -/
def sdtAdjusted (f : SdtArgs) (s : State) : Word :=
  if f.up then s.reg f.rn + f.off.zeroExtend 32 else s.reg f.rn - f.off.zeroExtend 32

/-- `ea`: the address of the access; the adjusted base when pre-indexed, else the base (R170). -/
def sdtAddress (f : SdtArgs) (s : State) : Word :=
  if f.pre then sdtAdjusted f s else s.reg f.rn

/-- All register numbers, ascending. -/
def allRegs : List Reg := [0, 1, 2, 3, 4, 5, 6, 7, 8, 9, 10, 11, 12, 13, 14, 15]

/-- The registers a bitmap selects, ascending (R85, R160). -/
def regsOf (list : BitVec 16) : List Reg := allRegs.filter fun r => list.getLsbD r.val

/-- `n = popcount(list)` (R94). -/
def regCount (list : BitVec 16) : Nat := (regsOf list).length

/-- `4 * n` as a 32-bit value (R160). -/
def blockBytes (list : BitVec 16) : Word := BitVec.ofNat 32 (4 * regCount list)

/-- `start`: the lowest address of a block transfer, by P and U (R160). -/
def blockStart (f : BlockArgs) (s : State) : Word :=
  match f.pre, f.up with
  | false, true => s.reg f.rn
  | true, true => s.reg f.rn + 4#32
  | false, false => s.reg f.rn - blockBytes f.list + 4#32
  | true, false => s.reg f.rn - blockBytes f.list

/-- `wb`: the base after write-back (R160). -/
def blockWriteBack (f : BlockArgs) (s : State) : Word :=
  if f.up then s.reg f.rn + blockBytes f.list else s.reg f.rn - blockBytes f.list

end Sys2Proof.Machine
end

