-- ==== Sys2Proof/Machine/BlockTransfer.lean ====
section
/-! DEFINITION. The ARM block transfers (43_arm_block_transfer.md). -/

namespace Sys2Proof.Machine

/-- Load registers in order from consecutive words (R161). -/
def loadRegs : List Reg → Word → State → State
  | [], _, s => s
  | r :: rs, addr, s =>
    let got := readN .read addr .word s
    loadRegs rs (addr + 4#32) (got.2.setReg r got.1)

/-- Store registers in order to consecutive words (R162). -/
def storeRegs : List Reg → Word → State → State
  | [], _, s => s
  | r :: rs, addr, s => storeRegs rs (addr + 4#32) (writeN .write addr .word (s.reg r) s)

/-- LDM: write-back before the loads, so that a loaded Rn wins (R161). The S bit is ignored (R160). -/
def execLdm (f : BlockArgs) (s : State) : Host.Outcome State Fault Refusal :=
  whenCond f.cond (fun s =>
    let start := blockStart f s
    let s' := if f.writeBack then s.setReg f.rn (blockWriteBack f s) else s
    loadRegs (regsOf f.list) start s') s

/-- STM: write-back after the stores, so that a listed Rn stores the original base (R162). The S bit is ignored
(R160). -/
def execStm (f : BlockArgs) (s : State) : Host.Outcome State Fault Refusal :=
  whenCond f.cond (fun s =>
    let s' := storeRegs (regsOf f.list) (blockStart f s) s
    if f.writeBack then s'.setReg f.rn (blockWriteBack f s) else s') s

end Sys2Proof.Machine
end

