-- ==== Sys2Proof/Machine/Branch.lean ====
section
/-! DEFINITION. The ARM branches (42_arm_branch.md). The pc has already advanced to `ia + 4`. -/

namespace Sys2Proof.Machine

/-- B: `pc <- pc + off` (R150). -/
def execB (cond : Cond) (imm24 : BitVec 24) (s : State) : Host.Outcome State Fault Refusal :=
  whenCond cond (fun s => s.setPc (s.pc + branchOffset imm24)) s

/-- BL: link `ia + 4` in R14, then branch (R151). -/
def execBl (cond : Cond) (imm24 : BitVec 24) (s : State) : Host.Outcome State Fault Refusal :=
  whenCond cond (fun s => (s.setReg 14 s.pc).setPc (s.pc + branchOffset imm24)) s

/-- BX: T is bit 0 of the target, the pc is the target with bit 0 cleared (R153). -/
def execBx (cond : Cond) (rm : Reg) (s : State) : Host.Outcome State Fault Refusal :=
  whenCond cond (fun s =>
    let target := s.reg rm
    { s with t := target.getLsbD 0 }.setPc (target &&& 0xFFFFFFFE#32)) s

end Sys2Proof.Machine
end

