-- ==== Sys2Proof/Machine/DataProcessing.lean ====
section
/-! DEFINITION. The ARM data-processing instructions (41_arm_data_processing.md). -/

namespace Sys2Proof.Machine

/-- A logical operation: write `op(Rn, operand2)` to Rd, and N and Z from it when S = 1 (R130, R132, R133, R138).
Operands are read before the write. -/
def execLogical (op : Word → Word → Word) (f : DpArgs) (s : State) : Host.Outcome State Fault Refusal :=
  whenCond f.cond (fun s =>
    let r := op (s.reg f.rn) (op2Value f.op2 s)
    let s' := s.setReg f.rd r
    if f.setFlags then setNZ r s' else s') s

/-- The subtraction `a - b`: write it to Rd, and all four flags when S = 1 (R131, R134, R135). -/
def subTo (f : DpArgs) (a b : Word) (s : State) : State :=
  let r := a - b
  let s' := s.setReg f.rd r
  if f.setFlags then subFlags a b r s' else s'

/-- An unsupported opcode: UnknownInstruction with the word itself (R140). -/
def execUnknownDp (opcode : BitVec 4) (f : DpArgs) (s : State) : Host.Outcome State Fault Refusal :=
  whenCond f.cond (fun s => raiseUnknown .arm (armIa s) (encodeDp opcode f) s) s

/-- AND (R132). -/
def execArmAnd (f : DpArgs) (s : State) : Host.Outcome State Fault Refusal :=
  execLogical (fun a b => a &&& b) f s

/-- EOR (R133). -/
def execArmEor (f : DpArgs) (s : State) : Host.Outcome State Fault Refusal :=
  execLogical (fun a b => a ^^^ b) f s

/-- SUB: Rn - operand2 (R134). -/
def execSub (f : DpArgs) (s : State) : Host.Outcome State Fault Refusal :=
  whenCond f.cond (fun s => subTo f (s.reg f.rn) (op2Value f.op2 s) s) s

/-- RSB: operand2 - Rn (R135). -/
def execRsb (f : DpArgs) (s : State) : Host.Outcome State Fault Refusal :=
  whenCond f.cond (fun s => subTo f (op2Value f.op2 s) (s.reg f.rn) s) s

/-- ADD: Rn + operand2, and all four flags when S = 1 (R136). -/
def execAdd (f : DpArgs) (s : State) : Host.Outcome State Fault Refusal :=
  whenCond f.cond (fun s =>
    let a := s.reg f.rn
    let b := op2Value f.op2 s
    let r := a + b
    let s' := s.setReg f.rd r
    if f.setFlags then addFlags a b r s' else s') s

/-- CMP: the flags of Rn - operand2, whatever S is; no register is written (R137). -/
def execCmp (f : DpArgs) (s : State) : Host.Outcome State Fault Refusal :=
  whenCond f.cond (fun s =>
    let a := s.reg f.rn
    let b := op2Value f.op2 s
    subFlags a b (a - b) s) s

/-- ORR (R138). -/
def execArmOrr (f : DpArgs) (s : State) : Host.Outcome State Fault Refusal :=
  execLogical (fun a b => a ||| b) f s

/-- MOV: operand2; the Rn field is ignored (R139). -/
def execMov (f : DpArgs) (s : State) : Host.Outcome State Fault Refusal :=
  execLogical (fun _ b => b) f s

/-- ADC is unsupported (R140). -/
def execAdcUnknown (f : DpArgs) (s : State) : Host.Outcome State Fault Refusal :=
  execUnknownDp 0b0101#4 f s

/-- SBC is unsupported (R140). -/
def execSbcUnknown (f : DpArgs) (s : State) : Host.Outcome State Fault Refusal :=
  execUnknownDp 0b0110#4 f s

/-- RSC is unsupported (R140). -/
def execRscUnknown (f : DpArgs) (s : State) : Host.Outcome State Fault Refusal :=
  execUnknownDp 0b0111#4 f s

/-- TST is unsupported (R140). -/
def execTstUnknown (f : DpArgs) (s : State) : Host.Outcome State Fault Refusal :=
  execUnknownDp 0b1000#4 f s

/-- TEQ is unsupported; the BX pattern inside it decodes to BX (R140, 30_encoding.md R86). -/
def execTeqUnknown (f : DpArgs) (s : State) : Host.Outcome State Fault Refusal :=
  execUnknownDp 0b1001#4 f s

/-- CMN is unsupported (R140). -/
def execCmnUnknown (f : DpArgs) (s : State) : Host.Outcome State Fault Refusal :=
  execUnknownDp 0b1011#4 f s

/-- BIC is unsupported (R140). -/
def execBicUnknown (f : DpArgs) (s : State) : Host.Outcome State Fault Refusal :=
  execUnknownDp 0b1110#4 f s

/-- MVN is unsupported (R140). -/
def execMvnUnknown (f : DpArgs) (s : State) : Host.Outcome State Fault Refusal :=
  execUnknownDp 0b1111#4 f s

end Sys2Proof.Machine
end

