-- ==== Sys2Proof/Machine/SingleTransfer.lean ====
section
/-! DEFINITION. The ARM single transfers (44_arm_single_transfer.md). Bit 25 is ignored (R170). -/

namespace Sys2Proof.Machine

/-- A load of the given width: read, then write the base back if W = 1, then write Rd, so that the loaded value wins
when Rd = Rn (R171). A byte is zero-extended (R172). -/
def loadTo (n : Width) (f : SdtArgs) (s : State) : State :=
  let got := readN .read (sdtAddress f s) n s
  let s' := if f.writeBack then got.2.setReg f.rn (sdtAdjusted f s) else got.2
  s'.setReg f.rd got.1

/-- A store of the given width: write Rd as it is, then write the base back if W = 1 (R173). -/
def storeFrom (n : Width) (f : SdtArgs) (s : State) : State :=
  let s' := writeN .write (sdtAddress f s) n (s.reg f.rd) s
  if f.writeBack then s'.setReg f.rn (sdtAdjusted f s) else s'

/-- LDR (R171). -/
def execLdr (f : SdtArgs) (s : State) : Host.Outcome State Fault Refusal :=
  whenCond f.cond (loadTo .word f) s

/-- LDRB (R172). -/
def execLdrb (f : SdtArgs) (s : State) : Host.Outcome State Fault Refusal :=
  whenCond f.cond (loadTo .byte f) s

/-- STR (R173). -/
def execStr (f : SdtArgs) (s : State) : Host.Outcome State Fault Refusal :=
  whenCond f.cond (storeFrom .word f) s

/-- STRB: the low byte of Rd (R174). -/
def execStrb (f : SdtArgs) (s : State) : Host.Outcome State Fault Refusal :=
  whenCond f.cond (storeFrom .byte f) s

end Sys2Proof.Machine
end

