-- ==== Sys2Proof/Machine/System.lean ====
section
/-! DEFINITION. SWI (45_arm_swi.md) and the ARM coprocessor space (40_execution_cycle.md R119). -/

namespace Sys2Proof.Machine

/-- SWI: emit SoftwareInterrupt with the instruction's address and comment; nothing else changes (R180). -/
def execSwi (cond : Cond) (comment : BitVec 24) (s : State) : Host.Outcome State Fault Refusal :=
  whenCond cond (fun s => emit (.softwareInterrupt (armIa s) comment) s) s

/-- The coprocessor space: UnknownInstruction with the word itself (R119, 30_encoding.md R98). -/
def execCoprocUnknown (cond : Cond) (op : BitVec 2) (body : BitVec 24) (s : State) :
    Host.Outcome State Fault Refusal :=
  whenCond cond (fun s => raiseUnknown .arm (armIa s) (encode (.coprocUnknown cond op body)).bits s) s

end Sys2Proof.Machine
end

