-- ==== Sys2Proof/Machine/Thumb.lean ====
section
/-! DEFINITION. The Thumb instructions (46_thumb.md). They have no condition; the pc has already advanced to
`ia + 2`. -/

namespace Sys2Proof.Machine

/-- Write a result to a low register, and N and Z from it; C and V are unchanged (R187 to R190, R194 to R196). -/
def writeLowNZ (rd : LowReg) (r : Word) (s : State) : State := setNZ r (s.setReg (lowReg rd) r)

/-- LSL by an amount from 0 to 31 (R187). -/
def execLslImm (amount : BitVec 5) (rs rd : LowReg) (s : State) : Host.Outcome State Fault Refusal :=
  .next (writeLowNZ rd (s.reg (lowReg rs) <<< amount.toNat) s)

/-- LSR by an amount from 0 to 31; amount 0 is a shift by zero (R188). -/
def execLsrImm (amount : BitVec 5) (rs rd : LowReg) (s : State) : Host.Outcome State Fault Refusal :=
  .next (writeLowNZ rd (s.reg (lowReg rs) >>> amount.toNat) s)

/-- ASR by an amount from 0 to 31; amount 0 is a shift by zero (R189). -/
def execAsrImm (amount : BitVec 5) (rs rd : LowReg) (s : State) : Host.Outcome State Fault Refusal :=
  .next (writeLowNZ rd ((s.reg (lowReg rs)).sshiftRight amount.toNat) s)

/-- MOV Rd, #imm8 (R190). -/
def execMovImm8 (rd : LowReg) (imm8 : Byte) (s : State) : Host.Outcome State Fault Refusal :=
  .next (writeLowNZ rd (imm8.zeroExtend 32) s)

/-- CMP Rd, #imm8: the flags of the subtraction, no register written (R191). -/
def execCmpImm8 (rd : LowReg) (imm8 : Byte) (s : State) : Host.Outcome State Fault Refusal :=
  let a := s.reg (lowReg rd)
  let b := imm8.zeroExtend 32
  .next (subFlags a b (a - b) s)

/-- ADD Rd, #imm8 (R192). -/
def execAddImm8 (rd : LowReg) (imm8 : Byte) (s : State) : Host.Outcome State Fault Refusal :=
  let a := s.reg (lowReg rd)
  let b := imm8.zeroExtend 32
  .next (addFlags a b (a + b) (s.setReg (lowReg rd) (a + b)))

/-- SUB Rd, #imm8 (R193). -/
def execSubImm8 (rd : LowReg) (imm8 : Byte) (s : State) : Host.Outcome State Fault Refusal :=
  let a := s.reg (lowReg rd)
  let b := imm8.zeroExtend 32
  .next (subFlags a b (a - b) (s.setReg (lowReg rd) (a - b)))

/-- AND Rd, Rs (R194). -/
def execThumbAnd (rs rd : LowReg) (s : State) : Host.Outcome State Fault Refusal :=
  .next (writeLowNZ rd (s.reg (lowReg rd) &&& s.reg (lowReg rs)) s)

/-- EOR Rd, Rs (R195). -/
def execThumbEor (rs rd : LowReg) (s : State) : Host.Outcome State Fault Refusal :=
  .next (writeLowNZ rd (s.reg (lowReg rd) ^^^ s.reg (lowReg rs)) s)

/-- ORR Rd, Rs (R196). -/
def execThumbOrr (rs rd : LowReg) (s : State) : Host.Outcome State Fault Refusal :=
  .next (writeLowNZ rd (s.reg (lowReg rd) ||| s.reg (lowReg rs)) s)

/-- MOV Rd, Rs between low registers: no flag changes (R197). -/
def execMovLow (rs rd : LowReg) (s : State) : Host.Outcome State Fault Refusal :=
  .next (s.setReg (lowReg rd) (s.reg (lowReg rs)))

/-- B: `pc <- pc + off` (R200). -/
def execThumbB (offset11 : BitVec 11) (s : State) : Host.Outcome State Fault Refusal :=
  .next (s.setPc (s.pc + thumbBranchOffset offset11))

/-- Every other halfword: UnknownInstruction with the halfword zero-extended (40_execution_cycle.md R120). -/
def execThumbUnknown (h : Half) (s : State) : Host.Outcome State Fault Refusal :=
  .next (raiseUnknown .thumb (thumbIa s) (h.zeroExtend 32) s)

end Sys2Proof.Machine
end

