-- ==== Sys2Proof/Machine/Dispatch.lean ====
section
/-! DEFINITION. One instruction, executed in the state after the fetch: the pc has already advanced
(40_execution_cycle.md R111 to R113). -/

namespace Sys2Proof.Machine

def exec (i : Instr) (s : State) : Host.Outcome State Fault Refusal :=
  match i with
  | .swi cond comment => Sys2Proof.Machine.execSwi cond comment s
  | .bx cond rm => Sys2Proof.Machine.execBx cond rm s
  | .stm f => Sys2Proof.Machine.execStm f s
  | .ldm f => Sys2Proof.Machine.execLdm f s
  | .b cond imm24 => Sys2Proof.Machine.execB cond imm24 s
  | .bl cond imm24 => Sys2Proof.Machine.execBl cond imm24 s
  | .armAnd f => Sys2Proof.Machine.execArmAnd f s
  | .armEor f => Sys2Proof.Machine.execArmEor f s
  | .sub f => Sys2Proof.Machine.execSub f s
  | .rsb f => Sys2Proof.Machine.execRsb f s
  | .add f => Sys2Proof.Machine.execAdd f s
  | .adcUnknown f => Sys2Proof.Machine.execAdcUnknown f s
  | .sbcUnknown f => Sys2Proof.Machine.execSbcUnknown f s
  | .rscUnknown f => Sys2Proof.Machine.execRscUnknown f s
  | .tstUnknown f => Sys2Proof.Machine.execTstUnknown f s
  | .teqUnknown f => Sys2Proof.Machine.execTeqUnknown f s
  | .cmp f => Sys2Proof.Machine.execCmp f s
  | .cmnUnknown f => Sys2Proof.Machine.execCmnUnknown f s
  | .armOrr f => Sys2Proof.Machine.execArmOrr f s
  | .mov f => Sys2Proof.Machine.execMov f s
  | .bicUnknown f => Sys2Proof.Machine.execBicUnknown f s
  | .mvnUnknown f => Sys2Proof.Machine.execMvnUnknown f s
  | .str f => Sys2Proof.Machine.execStr f s
  | .strb f => Sys2Proof.Machine.execStrb f s
  | .ldr f => Sys2Proof.Machine.execLdr f s
  | .ldrb f => Sys2Proof.Machine.execLdrb f s
  | .coprocUnknown cond op body => Sys2Proof.Machine.execCoprocUnknown cond op body s
  | .lslImm amount rs rd => Sys2Proof.Machine.execLslImm amount rs rd s
  | .lsrImm amount rs rd => Sys2Proof.Machine.execLsrImm amount rs rd s
  | .asrImm amount rs rd => Sys2Proof.Machine.execAsrImm amount rs rd s
  | .movImm8 rd imm8 => Sys2Proof.Machine.execMovImm8 rd imm8 s
  | .cmpImm8 rd imm8 => Sys2Proof.Machine.execCmpImm8 rd imm8 s
  | .addImm8 rd imm8 => Sys2Proof.Machine.execAddImm8 rd imm8 s
  | .subImm8 rd imm8 => Sys2Proof.Machine.execSubImm8 rd imm8 s
  | .thumbAnd rs rd => Sys2Proof.Machine.execThumbAnd rs rd s
  | .thumbEor rs rd => Sys2Proof.Machine.execThumbEor rs rd s
  | .thumbOrr rs rd => Sys2Proof.Machine.execThumbOrr rs rd s
  | .movLow rs rd => Sys2Proof.Machine.execMovLow rs rd s
  | .thumbB offset11 => Sys2Proof.Machine.execThumbB offset11 s
  | .thumbUnknown h => Sys2Proof.Machine.execThumbUnknown h s

end Sys2Proof.Machine
end

