-- ==== Sys2Proof/Machine/Fetch.lean ====
section
/-! DEFINITION. The fetch and the pc advance (40_execution_cycle.md R111, 20_memory.md R61), the end of a step, and
how a word is placed where the next step fetches. -/

namespace Sys2Proof.Machine

/-- A step starts with an empty event list (60_exceptions.md R210). -/
def beginStep (s : State) : State := { s with events := [] }

/-- The bus read of the fetch, at the pc as it is: 4 bytes in ARM state, 2 in Thumb state (R61, R62). -/
def fetchCode (s : State) : Code × State :=
  if s.t then
    let got := readN .fetch s.pc .half s
    (.thumb (got.1.extractLsb' 0 16), got.2)
  else
    let got := readN .fetch s.pc .word s
    (.arm got.1, got.2)

/-- The fetch width in bytes (R80, R111). -/
def fetchWidth (s : State) : Word := if s.t then 2#32 else 4#32

/-- Fetch, advance the pc by the fetch width modulo 2^32, and decode (R111). -/
def fetchDecode (s : State) : Instr × State :=
  let got := fetchCode s
  (decode got.1, got.2.setPc (s.pc + fetchWidth s))

/-- The end of a step: the images count as loaded from now on (R111, 10_state.md R34). -/
def retire (s : State) : State := { s with imagesLoaded := true }

/-- Put a byte where a fetch from the address reads it, whatever the region: what an image load or an earlier write
would have left there. A timer byte and an unmapped byte have no storage and stay as they are. -/
def placeByte (a : Word) (b : Byte) (s : State) : State :=
  match target s.cfg a with
  | .boot o => { s with boot := s.boot.write o b }
  | .gram o => { s with gram := s.gram.write o b }
  | .sram o => { s with sram := s.sram.write o b }
  | .cart o => { s with cart := s.cart.write o b }
  | .iofb o => { s with iofb := s.iofb.write o b }
  | .ie l => { s with ie := setLane s.ie l b }
  | .ifr l => { s with ifr := setLane s.ifr l b }
  | .ime l => { s with ime := setLane s.ime l b }
  | .timer _ _ _ | .unmapped => s

/-- Put bytes at consecutive addresses. -/
def placeBytes : Word → List Byte → State → State
  | _, [], s => s
  | a, b :: bs, s => placeBytes (a + 1#32) bs (placeByte a b s)

/-- Place a code at the pc and select its decoder with the T bit. -/
def placeCode (code : Code) (s : State) : State := placeBytes s.pc code.bytes { s with t := code.isThumb }

end Sys2Proof.Machine
end

