-- ==== Sys2Proof/Machine/Step.lean ====
section
/-! DEFINITION. One step of the CORE (40_execution_cycle.md R110, R111). -/

namespace Sys2Proof.Machine

/-- `step()`: fetch, advance, execute, retire (R111). -/
def step (s : State) : Host.Outcome State Fault Refusal :=
  let fetched := fetchDecode (beginStep s)
  match exec fetched.1 fetched.2 with
  | .next t => .next (retire t)
  | .fault r => .fault r
  | .refused r => .refused r

/-- The state in which the next step fetches and runs the opcode-table word `w` of `nbits` bits: the word placed at
the pc, and T selecting its decoder. It stands for the image load of 70_reset_and_hazards.md R234. Log 7. -/
def State.withFetchWord (s : State) (nbits w : Nat) : State := placeCode (codeOfTableWord nbits w) s

end Sys2Proof.Machine
end

