-- ==== Sys2Proof/Machine/HostActions.lean ====
section
/-! DEFINITION. What the host may do between two steps (70_reset_and_hazards.md R236). Each action begins with an empty
event list, so that `events` is the output of the last action (log 2). -/

namespace Sys2Proof.Machine

/-- `reset()`: registers, status word and volatile storage to 0; the images, `imagesLoaded` and the configuration
stay (R230, R231). The collaborator is not reset, so its later answers stay unconstrained. -/
def resetAction (s : State) : State :=
  { s with
    x := Vector.replicate 16 0
    n := false, z := false, c := false, v := false, t := false
    gram := [], sram := [], iofb := []
    ie := 0, ifr := 0, ime := 0
    events := [] }

/-- `loadImage(bytes)`: truncated to `CART_MAX`, zero-filled; refused once a step has run (20_memory.md R67). -/
def loadImage (bytes : List Byte) (s : State) : Host.Outcome State Fault Refusal :=
  if s.imagesLoaded then .refused .imageLoadAfterFirstStep
  else .next { s with cart := Memory.ofBytes 0 (bytes.take s.cfg.cart.size), events := [] }

/-- The boot image is seeded the same way, truncated to `BOOT_SIZE` (R67). -/
def loadBootImage (bytes : List Byte) (s : State) : Host.Outcome State Fault Refusal :=
  if s.imagesLoaded then .refused .imageLoadAfterFirstStep
  else .next { s with boot := Memory.ofBytes 0 (bytes.take s.cfg.boot.size), events := [] }

/-- An inspection read, side effects included (20_memory.md R66). -/
def hostRead (addr : Word) (n : Width) (s : State) : Word × State := readN .host addr n (beginStep s)

/-- An inspection write, side effects included (R66). -/
def hostWrite (addr : Word) (n : Width) (v : Word) (s : State) : State :=
  writeN .host addr n v (beginStep s)

/-- A peripheral raises interrupt flags: `IF <- IF | mask` (R59). -/
def raiseIF (mask : Word) (s : State) : State := { s with ifr := s.ifr ||| mask, events := [] }

/-- The host's moves after construction (R236). Ending the run is no move of the machine (R237). -/
inductive HostAction where
  | loadBootImage (bytes : List Byte)
  | loadImage (bytes : List Byte)
  | step
  | reset
  | read (addr : Word) (n : Width)
  | write (addr : Word) (n : Width) (v : Word)
  | raiseIF (mask : Word)
deriving DecidableEq, Repr

/-- One move of the host. -/
def hostAct (act : HostAction) (s : State) : Host.Outcome State Fault Refusal :=
  match act with
  | .loadBootImage bytes => loadBootImage bytes s
  | .loadImage bytes => loadImage bytes s
  | .step => step s
  | .reset => .next (resetAction s)
  | .read addr n => .next (hostRead addr n s).2
  | .write addr n v => .next (hostWrite addr n v s)
  | .raiseIF mask => .next (raiseIF mask s)

end Sys2Proof.Machine
end

