-- ==== Sys2Proof/Safety.lean ====
section
/-! DEFINITION. The terms in which claims speak of safe states and safe runs. -/

namespace Sys2Proof.Machine

/-- A byte array as the machine keeps it: canonical, and every listed offset inside the array (10_state.md R33). -/
def storeOk (size : Nat) (m : Memory) : Bool := m.wf && Memory.below size m

/-- What holds of every state the machine reaches: the configuration is well formed (00_scope.md R10), and the five
byte arrays are canonical and of their sizes (10_state.md R33). -/
def State.Inv (s : State) : Prop :=
  cfgOk s.cfg = true ∧ storeOk s.cfg.boot.size s.boot = true ∧ storeOk s.cfg.gram.size s.gram = true
    ∧ storeOk s.cfg.sram.size s.sram = true ∧ storeOk s.cfg.cart.size s.cart = true
    ∧ storeOk s.cfg.io.size s.iofb = true

/-- The storage the bus reaches, and what no instruction writes through a register: equal in both states. -/
structure SameBus (s s' : State) : Prop where
  cfg : s'.cfg = s.cfg
  boot : s'.boot = s.boot
  gram : s'.gram = s.gram
  sram : s'.sram = s.sram
  cart : s'.cart = s.cart
  iofb : s'.iofb = s.iofb
  ie : s'.ie = s.ie
  ifr : s'.ifr = s.ifr
  ime : s'.ime = s.ime
  imagesLoaded : s'.imagesLoaded = s.imagesLoaded

/-- The flags N, Z, C, V and the state bit T, equal in both states. -/
structure SameStatus (s s' : State) : Prop where
  n : s'.n = s.n
  z : s'.z = s.z
  c : s'.c = s.c
  v : s'.v = s.v
  t : s'.t = s.t

/-- Every register but the named ones is unchanged. -/
def SameRegsBut (rs : List Reg) (s s' : State) : Prop := ∀ r, r ∉ rs → s'.reg r = s.reg r

/-- No event was emitted and no timer answer drawn. -/
structure Silent (s s' : State) : Prop where
  events : s'.events = s.events
  timerDraws : s'.timerDraws = s.timerDraws

/-- Is the byte address in the timer range? -/
def isTimer (c : Cfg) (a : Word) : Bool :=
  match target c a with
  | .timer _ _ _ => true
  | _ => false

/-- The channel half a timer byte belongs to: the key of its interaction with the collaborator (20_memory.md R60). -/
def Target.timerKey : Target → Option TimerKey
  | .timer ch h _ => some (ch, h)
  | _ => none

/-- Is the event an UnknownInstruction? A claim excludes it by a premise over the run's events (60_exceptions.md
R212). -/
def Event.isUnknown : Event → Bool
  | .unknownInstruction _ _ _ => true
  | _ => false

/-- The last action met no unknown instruction. -/
def State.noUnknown (s : State) : Bool := s.events.all fun e => !e.isUnknown

/-- No bus condition in the last action: no unmapped byte and no dropped write. -/
def State.busClean (s : State) : Bool :=
  s.events.all fun e =>
    match e with
    | .invalidAddress _ _ _ | .readOnlyViolation _ _ _ => false
    | _ => true

/-- The state of a finished program by the self-loop convention: at `B self`, 0xEAFFFFFF in ARM state or 0xE7FF in
Thumb state (40_execution_cycle.md R123, 70 R237). -/
def State.atSelfLoop (s : State) : Bool :=
  (fetchCode s).1 == (if s.t then Code.thumb 0xE7FF#16 else Code.arm 0xEAFFFFFF#32)

end Sys2Proof.Machine
end

