-- ==== Sys2Proof/Certificates/Slice0/Obligations.lean ====
section
/-! DEFINITION. The statements for the provers, from the numbered rules of spec/. -/

namespace Sys2Proof.Claims

open Sys2Proof Sys2Proof.Machine

/-! Terms the statements share. -/

/-- What an instruction that writes only the named registers (and perhaps N, Z, C, V, of which the statement speaks
itself) leaves unchanged: every other register, all the bus's storage, every byte of memory, T, and the output. -/
structure RegFrame (rs : List Reg) (s t : State) : Prop where
  regs : SameRegsBut rs s t
  bus : SameBus s t
  mem : ∀ a, t.peek a = s.peek a
  silent : Silent s t
  tBit : t.t = s.t

/-- N and Z are those of the result `r` (00_scope.md R13). -/
def NZof (r : Word) (t : State) : Prop := t.n = r.getLsbD 31 ∧ t.z = decide (r.toNat = 0)

/-- N, Z, C and V of the addition `a + b` (R131). -/
def AddFlagsOf (a b : Word) (t : State) : Prop :=
  NZof (a + b) t ∧ t.c = decide (a.toNat + b.toNat ≥ 2 ^ 32)
    ∧ t.v = (decide (a.getLsbD 31 = b.getLsbD 31) && decide ((a + b).getLsbD 31 ≠ a.getLsbD 31))

/-- N, Z, C and V of the subtraction `a - b` (R131). -/
def SubFlagsOf (a b : Word) (t : State) : Prop :=
  NZof (a - b) t ∧ t.c = decide (a.toNat ≥ b.toNat)
    ∧ t.v = (decide (a.getLsbD 31 ≠ b.getLsbD 31) && decide ((a - b).getLsbD 31 ≠ a.getLsbD 31))

/-- N, Z, C and V are unchanged. -/
def SameFlags (s t : State) : Prop := t.n = s.n ∧ t.z = s.z ∧ t.c = s.c ∧ t.v = s.v

/-- A data-processing word (bits [27:26] = 00) with this opcode, not 1001, decodes to this instruction, with the
fields of R82. -/
def DpEncoding (opcode : BitVec 4) (mk : DpArgs → Instr) : Prop :=
  ∀ w : Word, w.extractLsb' 26 2 = 0#2 → w.extractLsb' 21 4 = opcode → decodeArm w = mk (dpArgsOf w)

/-- The encoding of a logical data-processing instruction, and its effect when the condition passes: Rd, and N and Z
if S; C and V never. -/
def LogicalEffect (opcode : BitVec 4) (mk : DpArgs → Instr) (op : Word → Word → Word) : Prop :=
  DpEncoding opcode mk ∧ ∀ (f : DpArgs) (s : State), condPasses f.cond s = true →
    ∃ t, exec (mk f) s = .next t ∧ t.reg f.rd = op (s.reg f.rn) (op2Value f.op2 s)
      ∧ (f.setFlags = true → NZof (op (s.reg f.rn) (op2Value f.op2 s)) t ∧ t.c = s.c ∧ t.v = s.v)
      ∧ (f.setFlags = false → SameFlags s t)
      ∧ RegFrame [f.rd] s t

/-- The encoding of an arithmetic data-processing instruction, and its effect when the condition passes: Rd, and the
four flags if S. -/
def ArithmeticEffect (opcode : BitVec 4) (mk : DpArgs → Instr) (result : DpArgs → State → Word)
    (flags : DpArgs → State → State → Prop) : Prop :=
  DpEncoding opcode mk ∧ ∀ (f : DpArgs) (s : State), condPasses f.cond s = true →
    ∃ t, exec (mk f) s = .next t ∧ t.reg f.rd = result f s
      ∧ (f.setFlags = true → flags f s t) ∧ (f.setFlags = false → SameFlags s t)
      ∧ RegFrame [f.rd] s t

/-- An instruction whose only effect is one event: every field but the event list is as before. -/
def OnlyEmits (i : Instr) (s : State) (e : Event) : Prop :=
  exec i s = .next { s with events := s.events ++ [e] }

/-- The effect of a Thumb instruction that writes `r` to Rd and sets N and Z from it; C and V are unchanged. -/
def ThumbNZEffect (i : Instr) (rd : LowReg) (s : State) (r : Word) : Prop :=
  ∃ t, exec i s = .next t ∧ t.reg (lowReg rd) = r ∧ NZof r t ∧ t.c = s.c ∧ t.v = s.v
    ∧ RegFrame [lowReg rd] s t

/-- What a byte address reads as after one store of the byte `b` to it (20_memory.md R52, R57, R58, R60): storage
takes the byte, IF clears the bits written as 1, a read-only or unmapped byte keeps what it read as, and a timer byte
is not the CORE's. -/
def afterStore (s : State) (a : Word) (b : Byte) : Option Byte :=
  match target s.cfg a with
  | .gram _ | .sram _ | .iofb _ | .ie _ | .ime _ => some b
  | .ifr _ => (s.peek a).map fun old => old &&& ~~~b
  | .boot _ | .cart _ | .unmapped => s.peek a
  | .timer _ _ _ => none

/-- The byte `k` of an access that begins at `addr`, modulo 2^32 (R44). -/
def nth (addr : Word) (k : Nat) : Word := addr + BitVec.ofNat 32 k

/-- No byte of the access lies in the timer range. -/
def noTimer (c : Cfg) (addr : Word) (n : Nat) : Prop := ∀ k < n, isTimer c (nth addr k) = false

/-- The InvalidAddress event of an access, if it has one (R51). -/
def invalidEvents (c : Cfg) (kind : AccessKind) (addr : Word) (n : Width) : List Event :=
  if ∃ k < n.bytes, target c (nth addr k) = .unmapped then [.invalidAddress kind addr n] else []

/-- The ReadOnlyViolation event of a write access, if it has one (R54). -/
def readOnlyEvents (c : Cfg) (kind : AccessKind) (addr : Word) (n : Width) : List Event :=
  if ∃ k < n.bytes, (resolve c (nth addr k) = some .boot ∨ resolve c (nth addr k) = some .cart)
  then [.readOnlyViolation kind addr n] else []

/-- The little-endian value of the CORE's own bytes from `addr` on (R45), each timer byte taken as 0. -/
def valueAt (s : State) (addr : Word) (n : Width) : Word :=
  match n with
  | .byte => ((s.peek addr).getD 0#8).zeroExtend 32
  | .half => (((s.peek (nth addr 1)).getD 0#8) ++ ((s.peek addr).getD 0#8)).zeroExtend 32
  | .word => ((s.peek (nth addr 3)).getD 0#8) ++ ((s.peek (nth addr 2)).getD 0#8)
      ++ ((s.peek (nth addr 1)).getD 0#8) ++ ((s.peek addr).getD 0#8)

/-- Plain writable storage: GRAM, SRAM and the I/O window's fallback array (R55). -/
def plainByte (c : Cfg) (a : Word) : Prop :=
  ∃ o, target c a = .gram o ∨ target c a = .sram o ∨ target c a = .iofb o

/-- Every fetch that covers the address reads the byte `b` there: from any state that still holds the byte that `t`
holds at `a`, in ARM and in Thumb state, wherever in the fetched word or halfword the address lies. -/
def SeenByFetch (t : State) (a : Word) (b : Byte) : Prop :=
  ∀ u : State, u.cfg = t.cfg → u.peek a = t.peek a →
    ∀ k < (if u.t then 2 else 4), nth u.pc k = a → (fetchCode u).1.bytes[k]? = some b

/-- The channel halves an access of `n` bytes touches, each once, in the order of their first bytes (R60). -/
def timerKeys (c : Cfg) (addr : Word) (n : Nat) : List TimerKey :=
  ((List.range n).filterMap fun k => (target c (nth addr k)).timerKey).eraseDups

/-- What a load leaves unchanged beside the registers it writes: the bus's storage, every byte, and the status. -/
structure LoadFrame (s t : State) : Prop where
  bus : SameBus s t
  mem : ∀ a, t.peek a = s.peek a
  status : SameStatus s t

/-- What a store leaves unchanged beside memory: the configuration, the images, the status and the timer draws. -/
structure StoreFrame (s t : State) : Prop where
  cfg : t.cfg = s.cfg
  boot : t.boot = s.boot
  cart : t.cart = s.cart
  imagesLoaded : t.imagesLoaded = s.imagesLoaded
  status : SameStatus s t
  timerDraws : t.timerDraws = s.timerDraws

/-- `adj` of R170: the base plus or minus the offset. -/
def sdtAdj (f : SdtArgs) (s : State) : Word :=
  if f.up then s.reg f.rn + BitVec.ofNat 32 f.off.toNat else s.reg f.rn - BitVec.ofNat 32 f.off.toNat

/-- The address used, by the table of R175. -/
def sdtEa (f : SdtArgs) (s : State) : Word := if f.pre then sdtAdj f s else s.reg f.rn

/-- The encoding of LDR and LDRB (R171, R172), and their effect when the condition passes: Rd takes what one bus read
at the address used answers, the base takes `adj` with W = 1 unless Rd is the base. Outside the timer range, whose
answers are free (R60), that value is the one the bytes hold, and the only event is the access's InvalidAddress, if
it has one. -/
def LoadEffect (mk : SdtArgs → Instr) (n : Width) : Prop :=
  (∀ w : Word, w.extractLsb' 26 2 = 0b01#2 → w.getLsbD 20 = true → w.getLsbD 22 = (n == .byte) →
    decodeArm w = mk (sdtArgsOf w))
  ∧ ∀ (f : SdtArgs) (s : State), condPasses f.cond s = true →
    ∃ t, exec (mk f) s = .next t
      ∧ t.reg f.rd = (readN .read (sdtEa f s) n s).1
      ∧ t.events = (readN .read (sdtEa f s) n s).2.events
      ∧ t.timerDraws = (readN .read (sdtEa f s) n s).2.timerDraws
      ∧ (noTimer s.cfg (sdtEa f s) n.bytes → t.reg f.rd = valueAt s (sdtEa f s) n
          ∧ t.events = s.events ++ invalidEvents s.cfg .read (sdtEa f s) n ∧ t.timerDraws = s.timerDraws)
      ∧ (f.writeBack = true → f.rn ≠ f.rd → t.reg f.rn = sdtAdj f s)
      ∧ (f.writeBack = true → SameRegsBut [f.rd, f.rn] s t)
      ∧ (f.writeBack = false → SameRegsBut [f.rd] s t)
      ∧ LoadFrame s t

/-- The encoding of STR and STRB (R173, R174), and their effect when the condition passes: the bytes of Rd at the
address used, every other byte as before, the base `adj` with W = 1, and the events of one bus write, which outside
the timer range are its InvalidAddress and its ReadOnlyViolation, each if it has one. -/
def StoreEffect (mk : SdtArgs → Instr) (n : Width) : Prop :=
  (∀ w : Word, w.extractLsb' 26 2 = 0b01#2 → w.getLsbD 20 = false → w.getLsbD 22 = (n == .byte) →
    decodeArm w = mk (sdtArgsOf w))
  ∧ ∀ (f : SdtArgs) (s : State), s.Inv → condPasses f.cond s = true →
    ∃ t, exec (mk f) s = .next t
      ∧ (∀ k < n.bytes, t.peek (nth (sdtEa f s) k)
          = afterStore s (nth (sdtEa f s) k) ((s.reg f.rd).extractLsb' (8 * k) 8))
      ∧ (∀ a, (∀ k < n.bytes, a ≠ nth (sdtEa f s) k) → t.peek a = s.peek a)
      ∧ t.events = (writeN .write (sdtEa f s) n (s.reg f.rd) s).events
      ∧ (noTimer s.cfg (sdtEa f s) n.bytes → t.events = s.events
          ++ invalidEvents s.cfg .write (sdtEa f s) n ++ readOnlyEvents s.cfg .write (sdtEa f s) n)
      ∧ (f.writeBack = true → t.reg f.rn = sdtAdj f s ∧ SameRegsBut [f.rn] s t)
      ∧ (f.writeBack = false → SameRegsBut [] s t)
      ∧ StoreFrame s t

/-- How many registers below number `m` the bitmap selects; `listed f 16` is the population count (R94). -/
def listed (f : BlockArgs) (m : Nat) : Nat := (List.range m).countP fun i => f.list.getLsbD i

/-- The first address of a block transfer, by the table of R164. -/
def blockFirst (f : BlockArgs) (s : State) : Word :=
  let b := s.reg f.rn
  let n := BitVec.ofNat 32 (listed f 16)
  match f.pre, f.up with
  | false, true => b
  | true, true => b + 4
  | false, false => b - 4 * n + 4
  | true, false => b - 4 * n

/-- The base after write-back, by the table of R164. -/
def blockBase (f : BlockArgs) (s : State) : Word :=
  if f.up then s.reg f.rn + 4 * BitVec.ofNat 32 (listed f 16)
  else s.reg f.rn - 4 * BitVec.ofNat 32 (listed f 16)

/-- The address of a listed register's word: registers go up with the addresses (R160). -/
def blockAddr (f : BlockArgs) (s : State) (r : Reg) : Word :=
  blockFirst f s + 4 * BitVec.ofNat 32 (listed f r.val)

/-- The listed registers, ascending (R160). -/
def listedRegs (f : BlockArgs) : List Reg := (List.finRange 16).filter fun r => f.list.getLsbD r.val

/-- The register `old` with byte lane `l` replaced by the low byte of `v`, bit by bit. -/
def LaneReplaced (old new : Word) (l : Nat) (v : Word) : Prop :=
  ∀ i < 32, new.getLsbD i = if i / 8 = l then v.getLsbD (i % 8) else old.getLsbD i

/-- The end of a step: after an instruction that answered a next state, the images count as loaded (R111). -/
def thenLoaded (o : Host.Outcome State Fault Refusal) : Host.Outcome State Fault Refusal :=
  match o with
  | .next t => .next { t with imagesLoaded := true }
  | .fault r => .fault r
  | .refused r => .refused r

/-- Swap the C flag of a state. -/
def withC (b : Bool) (s : State) : State := { s with c := b }

/-- Put events before a state's own. -/
def withEarlier (es : List Event) (s : State) : State := { s with events := es ++ s.events }

/-- The opcode map of 30_encoding.md R100 for ARM: mnemonic, mask, match, in decode priority. -/
def armRows : List (String × Nat × Nat) :=
  [("SWI", 0x0F000000, 0x0F000000), ("BX", 0x0FFFFFF0, 0x012FFF10),
   ("STM", 0x0E100000, 0x08000000), ("LDM", 0x0E100000, 0x08100000),
   ("B", 0x0F000000, 0x0A000000), ("BL", 0x0F000000, 0x0B000000),
   ("AND", 0x0DE00000, 0x00000000), ("EOR", 0x0DE00000, 0x00200000),
   ("SUB", 0x0DE00000, 0x00400000), ("RSB", 0x0DE00000, 0x00600000),
   ("ADD", 0x0DE00000, 0x00800000)]
  ++ [("ADC__unknown", 0x0DE00000, 0x00A00000), ("SBC__unknown", 0x0DE00000, 0x00C00000),
   ("RSC__unknown", 0x0DE00000, 0x00E00000), ("TST__unknown", 0x0DE00000, 0x01000000),
   ("TEQ__unknown", 0x0DE00000, 0x01200000), ("CMP", 0x0DE00000, 0x01400000),
   ("CMN__unknown", 0x0DE00000, 0x01600000), ("ORR", 0x0DE00000, 0x01800000),
   ("MOV", 0x0DE00000, 0x01A00000), ("BIC__unknown", 0x0DE00000, 0x01C00000),
   ("MVN__unknown", 0x0DE00000, 0x01E00000)]
  ++ [("STR", 0x0C500000, 0x04000000), ("STRB", 0x0C500000, 0x04400000),
   ("LDR", 0x0C500000, 0x04100000), ("LDRB", 0x0C500000, 0x04500000),
   ("UNKNOWN__ARM_coprocessor_space", 0x0C000000, 0x0C000000)]

/-- The opcode map of R100 for Thumb. -/
def thumbRows : List (String × Nat × Nat) :=
  [("LSL_imm", 0xF800, 0x0000), ("LSR_imm", 0xF800, 0x0800), ("ASR_imm", 0xF800, 0x1000),
   ("MOV_imm8", 0xF800, 0x2000), ("CMP_imm8", 0xF800, 0x2800), ("ADD_imm8", 0xF800, 0x3000),
   ("SUB_imm8", 0xF800, 0x3800), ("AND", 0xFFC0, 0x4000), ("EOR", 0xFFC0, 0x4040),
   ("ORR", 0xFFC0, 0x4300), ("MOV_low", 0xFFC0, 0x4600), ("B", 0xF800, 0xE000),
   ("UNKNOWN__Thumb__every_other_halfword", 0x0000, 0x0000)]

/-- The first row with `(w & mask) == match`: its mnemonic and match value. -/
def firstRow (rows : List (String × Nat × Nat)) (w : Nat) : Option (String × Nat) :=
  (rows.find? fun r => w &&& r.2.1 == r.2.2).map fun r => (r.1, r.2.2)

end Sys2Proof.Claims

open Sys2Proof Sys2Proof.Machine Sys2Proof.Claims

/-! ## Encoding -/

/-- Words written out from the formats of 30_encoding.md decode to what they stand for: one of each family. -/
def Obligations.SpecWordsDecode : Prop :=
  -- cond 1110, 00, I = 1, 0100, S = 0, Rn 0000, Rd 0000, rotate 0000, imm8 00000011
  decodeArm 0b11100010100000000000000000000011#32
      = .add { cond := .al, setFlags := false, rn := 0, rd := 0, op2 := .imm 0#4 3#8 }
  -- cond 1110, 00, I = 0, 1101, S = 0, Rn 0000, Rd 1111, ignored 00000000, Rm 1110
  ∧ decodeArm 0b11100001101000001111000000001110#32
      = .mov { cond := .al, setFlags := false, rn := 0, rd := 15, op2 := .reg 0#8 14 }
  -- cond 0001, 101, L = 0, imm24
  ∧ decodeArm 0b00011010111111111111111111111101#32 = .b .ne 0xFFFFFD#24
  -- cond 1110, 100, P = 1, U = 0, S = 0, W = 1, L = 1, Rn 0000, list {R1, R2}
  ∧ decodeArm 0b11101001001100000000000000000110#32
      = .ldm { cond := .al, pre := true, up := false, sBit := false, writeBack := true, rn := 0, list := 6#16 }
  -- cond 1110, 01, I = 0, P = 1, U = 0, B = 0, W = 1, L = 0, Rn 0000, Rd 0001, offset 4
  ∧ decodeArm 0b11100101001000000001000000000100#32
      = .str { cond := .al, iBit := false, pre := true, up := false, writeBack := true, rn := 0, rd := 1,
               off := 4#12 }
  -- cond 1110, 1111, comment 5
  ∧ decodeArm 0b11101111000000000000000000000101#32 = .swi .al 5#24
  -- 000, 10, offset5 00100, Rs 001, Rd 000
  ∧ decodeThumb 0b0001000100001000#16 = .asrImm 4#5 1 0
  -- 001, 01, Rd 001, imm8 10
  ∧ decodeThumb 0b0010100100001010#16 = .cmpImm8 1 10#8
  -- 010000, 1100, Rs 001, Rd 000
  ∧ decodeThumb 0b0100001100001000#16 = .thumbOrr 1 0
  -- 11100, offset11
  ∧ decodeThumb 0b1110011111111111#16 = .thumbB 0x7FF#11

/-- Decoding an encoded well-formed instruction gives it back, with every operand at every value the encoding
admits. -/
def Obligations.DecodeInvertsEncode : Prop :=
  ∀ i : Instr, i.wf = true → decode (encode i) = i

/-- Every word and every halfword decodes to a well-formed instruction whose encoding is that very word: the decoder
is total, drops no bit, and no two instructions share a word. -/
def Obligations.EncodeInvertsDecode : Prop :=
  ∀ c : Code, (decode c).wf = true ∧ encode (decode c) = c

/-- The decoder follows the opcode map of R100: the first row whose `(w & mask) == match` decides. -/
def Obligations.DecodeFollowsOpcodeMap : Prop :=
  (∀ w : Word, firstRow armRows w.toNat = some (decodeArm w).row)
  ∧ (∀ h : Half, firstRow thumbRows h.toNat = some (decodeThumb h).row)

/-! ## Conditions and operands -/

/-- The condition table of R115 by the codes' numbers, and the nine codes of R116 that always pass. -/
def Obligations.ConditionTable : Prop :=
  ∀ s : State,
    (condPasses (condOfBits 0b0000#4) s = true ↔ s.z = true)
    ∧ (condPasses (condOfBits 0b0001#4) s = true ↔ s.z = false)
    ∧ (condPasses (condOfBits 0b0100#4) s = true ↔ s.n = true)
    ∧ (condPasses (condOfBits 0b0101#4) s = true ↔ s.n = false)
    ∧ (condPasses (condOfBits 0b0110#4) s = true ↔ s.v = true)
    ∧ (condPasses (condOfBits 0b0111#4) s = true ↔ s.v = false)
    ∧ condPasses (condOfBits 0b1110#4) s = true
    ∧ ∀ code ∈ [0b0010#4, 0b0011#4, 0b1000#4, 0b1001#4, 0b1010#4, 0b1011#4, 0b1100#4, 0b1101#4, 0b1111#4],
        condPasses (condOfBits code) s = true

/-- R117: an ARM instruction whose condition fails changes nothing at all, and its step keeps only what the fetch did:
the advanced pc and the fetch's own events and draws. -/
def Obligations.FailedConditionSkips : Prop :=
  ∀ (i : Instr) (c : Cond), i.cond? = some c →
    (∀ s, condPasses c s = false → exec i s = .next s)
    ∧ (∀ s s', fetchDecode (beginStep s) = (i, s') → condPasses c s' = false → step s = .next (retire s'))

/-- R90: with I = 1, operand2 is the word's 8 low bits rotated right by twice its rotate field, bit by bit, and
rotating the result left by the same amount and masking to 8 bits recovers them. -/
def Obligations.ImmediateOperandRotates : Prop :=
  ∀ (w : Word) (s : State), w.getLsbD 25 = true →
    let imm8 := w.extractLsb' 0 8
    let rot := (w.extractLsb' 8 4).toNat
    (∀ j < 32, (op2Value (dpArgsOf w).op2 s).getLsbD j = imm8.getLsbD ((j + 2 * rot) % 32))
    ∧ (op2Value (dpArgsOf w).op2 s).rotateLeft (2 * rot) &&& 0xFF#32 = imm8.zeroExtend 32

/-- R91: a register operand2 is the register of bits [3:0], whatever bits [11:4] hold, and with Rm = 15 it is the
advanced pc `ia + 4`. -/
def Obligations.RegisterOperandIgnoresShiftField : Prop :=
  (∀ (w : Word) (s : State), w.getLsbD 25 = false →
    op2Value (dpArgsOf w).op2 s = s.reg (w.extractLsb' 0 4).toFin)
  ∧ (∀ s : State, s.t = false → ∀ ignored,
      op2Value (.reg ignored 15) (fetchDecode s).2 = s.pc + 4)

/-! ## ARM data processing -/

/-- AND, EOR, ORR and MOV (R132, R133, R138, R139): their opcodes, the result in Rd, N and Z only if S, C and V never;
their frame. -/
def Obligations.LogicalInstructions : Prop :=
  LogicalEffect 0b0000#4 .armAnd (fun a b => a &&& b) ∧ LogicalEffect 0b0001#4 .armEor (fun a b => a ^^^ b)
  ∧ LogicalEffect 0b1100#4 .armOrr (fun a b => a ||| b) ∧ LogicalEffect 0b1101#4 .mov (fun _ b => b)

/-- SUB, RSB and ADD (R134, R135, R136 with the flags of R131): their opcodes, the result in Rd, all four flags only
if S; their frame. -/
def Obligations.ArithmeticInstructions : Prop :=
  ArithmeticEffect 0b0010#4 .sub (fun f s => s.reg f.rn - op2Value f.op2 s)
      (fun f s t => SubFlagsOf (s.reg f.rn) (op2Value f.op2 s) t)
  ∧ ArithmeticEffect 0b0011#4 .rsb (fun f s => op2Value f.op2 s - s.reg f.rn)
      (fun f s t => SubFlagsOf (op2Value f.op2 s) (s.reg f.rn) t)
  ∧ ArithmeticEffect 0b0100#4 .add (fun f s => s.reg f.rn + op2Value f.op2 s)
      (fun f s t => AddFlagsOf (s.reg f.rn) (op2Value f.op2 s) t)

/-- CMP (R137): its opcode, and the flags of Rn - operand2, whatever the Rd field and the S bit hold; no register is
written. -/
def Obligations.CompareInstruction : Prop :=
  DpEncoding 0b1010#4 .cmp ∧ ∀ (f : DpArgs) (s : State), condPasses f.cond s = true →
    ∃ t, exec (.cmp f) s = .next t ∧ SubFlagsOf (s.reg f.rn) (op2Value f.op2 s) t ∧ RegFrame [] s t

/-- The V flag of R131 is signed overflow: the exact signed result is not the signed value of the 32-bit result. -/
def Obligations.OverflowFlagIsSignedOverflow : Prop :=
  ∀ a b : Word,
    (addOverflow a b (a + b) = true ↔ (a + b).toInt ≠ a.toInt + b.toInt)
    ∧ (subOverflow a b (a - b) = true ↔ (a - b).toInt ≠ a.toInt - b.toInt)

/-- ADC, SBC, RSC, TST, TEQ, CMN, BIC and MVN (R140) and the coprocessor space (R119): the only effect is one
UnknownInstruction event with the instruction's address and word. -/
def Obligations.UnsupportedArmWordsOnlyReport : Prop :=
  (∀ (f : DpArgs) (s : State), condPasses f.cond s = true →
    ∀ i ∈ [Instr.adcUnknown f, .sbcUnknown f, .rscUnknown f, .tstUnknown f, .teqUnknown f, .cmnUnknown f,
        .bicUnknown f, .mvnUnknown f],
      OnlyEmits i s (.unknownInstruction .arm (s.pc - 4) (encode i).bits))
  ∧ (∀ (c : Cond) (op : BitVec 2) (body : BitVec 24) (s : State), condPasses c s = true →
      OnlyEmits (.coprocUnknown c op body) s
        (.unknownInstruction .arm (s.pc - 4) (encode (.coprocUnknown c op body)).bits))

/-- R119 by the word: a word of the class UNKNOWN (bits [27:24] in 1100, 1101, 1110), or a data-processing word with
an unsupported opcode that is not BX, reports itself, bit for bit, and does nothing else. -/
def Obligations.UnknownArmWordReportsItself : Prop :=
  ∀ (w : Word) (s : State), condPasses (condOfBits (w.extractLsb' 28 4)) s = true →
    (w.extractLsb' 24 4 ∈ [0b1100#4, 0b1101#4, 0b1110#4]
      ∨ (w.extractLsb' 26 2 = 0#2 ∧ w &&& 0x0FFFFFF0#32 ≠ 0x012FFF10#32
          ∧ w.extractLsb' 21 4 ∈ [5#4, 6#4, 7#4, 8#4, 9#4, 11#4, 14#4, 15#4])) →
    OnlyEmits (decodeArm w) s (.unknownInstruction .arm (s.pc - 4) w)

/-! ## ARM branches and SWI -/

/-- B (R150): its encoding; the pc becomes `(ia + 4) + 4 * imm24`, modulo 2^32, so it keeps `ia`'s alignment;
0xFFFFFF branches to `ia` itself; nothing else changes. -/
def Obligations.BranchInstruction : Prop :=
  (∀ w : Word, w.extractLsb' 24 4 = 0b1010#4 →
    decodeArm w = .b (condOfBits (w.extractLsb' 28 4)) (w.extractLsb' 0 24))
  ∧ ∀ (c : Cond) (imm24 : BitVec 24) (s : State), condPasses c s = true →
    ∃ t, exec (.b c imm24) s = .next t ∧ t.pc = (s.pc - 4) + 4 + BitVec.ofInt 32 (4 * imm24.toInt)
      ∧ t.pc.extractLsb' 0 2 = (s.pc - 4).extractLsb' 0 2
      ∧ (imm24 = 0xFFFFFF#24 → t.pc = s.pc - 4)
      ∧ SameFlags s t ∧ RegFrame [15] s t

/-- BL (R151): its encoding; R14 holds `ia + 4`, the pc is B's target; nothing else changes. -/
def Obligations.BranchWithLinkInstruction : Prop :=
  (∀ w : Word, w.extractLsb' 24 4 = 0b1011#4 →
    decodeArm w = .bl (condOfBits (w.extractLsb' 28 4)) (w.extractLsb' 0 24))
  ∧ ∀ (c : Cond) (imm24 : BitVec 24) (s : State), condPasses c s = true →
    ∃ t, exec (.bl c imm24) s = .next t ∧ t.reg 14 = (s.pc - 4) + 4
      ∧ t.pc = (s.pc - 4) + 4 + BitVec.ofInt 32 (4 * imm24.toInt)
      ∧ SameFlags s t ∧ RegFrame [14, 15] s t

/-- BX (R153): its encoding; T is bit 0 of the register read, the pc is the register with bit 0 cleared; no flag and
nothing else changes. -/
def Obligations.BranchExchangeInstruction : Prop :=
  (∀ w : Word, w.extractLsb' 4 24 = 0x12FFF1#24 →
    decodeArm w = .bx (condOfBits (w.extractLsb' 28 4)) (w.extractLsb' 0 4).toFin)
  ∧ ∀ (c : Cond) (rm : Reg) (s : State), condPasses c s = true →
    ∃ t, exec (.bx c rm) s = .next t ∧ t.t = (s.reg rm).getLsbD 0
      ∧ t.pc.toNat = (s.reg rm).toNat - (s.reg rm).toNat % 2
      ∧ SameFlags s t ∧ SameRegsBut [15] s t ∧ SameBus s t ∧ (∀ a, t.peek a = s.peek a) ∧ Silent s t

/-- SWI (R180): its encoding; the only effect is one SoftwareInterrupt event with the instruction's address and its
comment field, whatever the comment. -/
def Obligations.SoftwareInterruptOnlyReports : Prop :=
  (∀ w : Word, w.extractLsb' 24 4 = 0b1111#4 →
    decodeArm w = .swi (condOfBits (w.extractLsb' 28 4)) (w.extractLsb' 0 24))
  ∧ ∀ (c : Cond) (comment : BitVec 24) (s : State), condPasses c s = true →
    OnlyEmits (.swi c comment) s (.softwareInterrupt (s.pc - 4) comment)

/-! ## ARM transfers -/

/-- LDR and LDRB (R171, R172 with the addresses of R170 and R175). -/
def Obligations.LoadInstructions : Prop := LoadEffect .ldr .word ∧ LoadEffect .ldrb .byte

/-- STR and STRB (R173, R174 with the addresses of R170 and R175). -/
def Obligations.StoreInstructions : Prop := StoreEffect .str .word ∧ StoreEffect .strb .byte

/-- LDM (R161 with the addresses of R160 and R164): its encoding; each listed register takes the word at its address,
a listed base takes its loaded value, an unlisted base takes the write-back with W = 1, and nothing else changes. The
first clause is the order of the accesses, write-back first, for every address; the values and the events of the
others are for words outside the timer range, whose answers are free (R60). -/
def Obligations.LoadMultiple : Prop :=
  (∀ w : Word, w.extractLsb' 25 3 = 0b100#3 → w.getLsbD 20 = true → decodeArm w = .ldm (blockArgsOf w))
  ∧ ∀ (f : BlockArgs) (s : State), condPasses f.cond s = true →
    ∃ t, exec (.ldm f) s = .next t
      ∧ t = loadRegs (listedRegs f) (blockFirst f s) (if f.writeBack then s.setReg f.rn (blockBase f s) else s)
      ∧ (∀ r, f.list.getLsbD r.val = true → noTimer s.cfg (blockAddr f s r) 4 →
          t.reg r = valueAt s (blockAddr f s r) .word)
      ∧ (f.list.getLsbD f.rn.val = false → f.writeBack = true → t.reg f.rn = blockBase f s)
      ∧ (∀ r, f.list.getLsbD r.val = false → (r ≠ f.rn ∨ f.writeBack = false) → t.reg r = s.reg r)
      ∧ ((∀ r, f.list.getLsbD r.val = true → noTimer s.cfg (blockAddr f s r) 4) →
          t.events = s.events ++ (listedRegs f).flatMap (fun r => invalidEvents s.cfg .read (blockAddr f s r) .word)
          ∧ t.timerDraws = s.timerDraws)
      ∧ LoadFrame s t

/-- STM (R162 with the addresses of R160 and R164): its encoding; each listed register's original value at its
address, every other byte as before, the base written back with W = 1, and the events of the accesses in ascending
order, spelled out for words outside the timer range. -/
def Obligations.StoreMultiple : Prop :=
  (∀ w : Word, w.extractLsb' 25 3 = 0b100#3 → w.getLsbD 20 = false → decodeArm w = .stm (blockArgsOf w))
  ∧ ∀ (f : BlockArgs) (s : State), s.Inv → condPasses f.cond s = true →
    ∃ t, exec (.stm f) s = .next t
      ∧ t.events = (storeRegs (listedRegs f) (blockFirst f s) s).events
      ∧ (∀ r, f.list.getLsbD r.val = true → ∀ k < 4, t.peek (nth (blockAddr f s r) k)
          = afterStore s (nth (blockAddr f s r) k) ((s.reg r).extractLsb' (8 * k) 8))
      ∧ (∀ a, (∀ r, f.list.getLsbD r.val = true → ∀ k < 4, a ≠ nth (blockAddr f s r) k) → t.peek a = s.peek a)
      ∧ (f.writeBack = true → t.reg f.rn = blockBase f s ∧ SameRegsBut [f.rn] s t)
      ∧ (f.writeBack = false → SameRegsBut [] s t)
      ∧ ((∀ r, f.list.getLsbD r.val = true → noTimer s.cfg (blockAddr f s r) 4) →
          t.events = s.events ++ (listedRegs f).flatMap (fun r => invalidEvents s.cfg .write (blockAddr f s r) .word
            ++ readOnlyEvents s.cfg .write (blockAddr f s r) .word))
      ∧ StoreFrame s t

/-! ## Thumb -/

/-- LSL, LSR and ASR by immediate (R187, R188, R189): their encodings; multiply, divide and floor-divide by 2^amount,
amount 0 being a shift by zero; N and Z from the result, C and V unchanged; their frame. -/
def Obligations.ThumbShifts : Prop :=
  (∀ h : Half,
    (h.extractLsb' 11 5 = 0b00000#5 → decodeThumb h = .lslImm (h.extractLsb' 6 5) (lowAt h 3) (lowAt h 0))
    ∧ (h.extractLsb' 11 5 = 0b00001#5 → decodeThumb h = .lsrImm (h.extractLsb' 6 5) (lowAt h 3) (lowAt h 0))
    ∧ (h.extractLsb' 11 5 = 0b00010#5 → decodeThumb h = .asrImm (h.extractLsb' 6 5) (lowAt h 3) (lowAt h 0)))
  ∧ ∀ (amount : BitVec 5) (rs rd : LowReg) (s : State),
    ThumbNZEffect (.lslImm amount rs rd) rd s
      (BitVec.ofNat 32 ((s.reg (lowReg rs)).toNat * 2 ^ amount.toNat))
    ∧ ThumbNZEffect (.lsrImm amount rs rd) rd s
      (BitVec.ofNat 32 ((s.reg (lowReg rs)).toNat / 2 ^ amount.toNat))
    ∧ ThumbNZEffect (.asrImm amount rs rd) rd s
      (BitVec.ofInt 32 ((s.reg (lowReg rs)).toInt / 2 ^ amount.toNat))

/-- MOV, CMP, ADD and SUB with imm8 (R190 to R193): encodings, results, flags and frame; CMP writes no register. -/
def Obligations.ThumbImmediates : Prop :=
  (∀ h : Half,
    (h.extractLsb' 11 5 = 0b00100#5 → decodeThumb h = .movImm8 (lowAt h 8) (h.extractLsb' 0 8))
    ∧ (h.extractLsb' 11 5 = 0b00101#5 → decodeThumb h = .cmpImm8 (lowAt h 8) (h.extractLsb' 0 8))
    ∧ (h.extractLsb' 11 5 = 0b00110#5 → decodeThumb h = .addImm8 (lowAt h 8) (h.extractLsb' 0 8))
    ∧ (h.extractLsb' 11 5 = 0b00111#5 → decodeThumb h = .subImm8 (lowAt h 8) (h.extractLsb' 0 8)))
  ∧ ∀ (rd : LowReg) (imm8 : Byte) (s : State),
    ThumbNZEffect (.movImm8 rd imm8) rd s (BitVec.ofNat 32 imm8.toNat)
    ∧ (∃ t, exec (.cmpImm8 rd imm8) s = .next t
        ∧ SubFlagsOf (s.reg (lowReg rd)) (BitVec.ofNat 32 imm8.toNat) t ∧ RegFrame [] s t)
    ∧ (∃ t, exec (.addImm8 rd imm8) s = .next t
        ∧ t.reg (lowReg rd) = s.reg (lowReg rd) + BitVec.ofNat 32 imm8.toNat
        ∧ AddFlagsOf (s.reg (lowReg rd)) (BitVec.ofNat 32 imm8.toNat) t ∧ RegFrame [lowReg rd] s t)
    ∧ (∃ t, exec (.subImm8 rd imm8) s = .next t
        ∧ t.reg (lowReg rd) = s.reg (lowReg rd) - BitVec.ofNat 32 imm8.toNat
        ∧ SubFlagsOf (s.reg (lowReg rd)) (BitVec.ofNat 32 imm8.toNat) t ∧ RegFrame [lowReg rd] s t)

/-- AND, EOR, ORR and MOV between low registers (R194 to R197): encodings, results, N and Z (none for MOV), and
frame. -/
def Obligations.ThumbRegisterOps : Prop :=
  (∀ h : Half,
    (h.extractLsb' 6 10 = 0b0100000000#10 → decodeThumb h = .thumbAnd (lowAt h 3) (lowAt h 0))
    ∧ (h.extractLsb' 6 10 = 0b0100000001#10 → decodeThumb h = .thumbEor (lowAt h 3) (lowAt h 0))
    ∧ (h.extractLsb' 6 10 = 0b0100001100#10 → decodeThumb h = .thumbOrr (lowAt h 3) (lowAt h 0))
    ∧ (h.extractLsb' 6 10 = 0b0100011000#10 → decodeThumb h = .movLow (lowAt h 3) (lowAt h 0)))
  ∧ ∀ (rs rd : LowReg) (s : State),
    ThumbNZEffect (.thumbAnd rs rd) rd s (s.reg (lowReg rd) &&& s.reg (lowReg rs))
    ∧ ThumbNZEffect (.thumbEor rs rd) rd s (s.reg (lowReg rd) ^^^ s.reg (lowReg rs))
    ∧ ThumbNZEffect (.thumbOrr rs rd) rd s (s.reg (lowReg rd) ||| s.reg (lowReg rs))
    ∧ (∃ t, exec (.movLow rs rd) s = .next t ∧ t.reg (lowReg rd) = s.reg (lowReg rs) ∧ SameFlags s t
        ∧ RegFrame [lowReg rd] s t)

/-- The Thumb B (R200): its encoding; the pc becomes `(ia + 2) + 2 * offset11`, modulo 2^32; 0x7FF branches to `ia`;
nothing else changes. -/
def Obligations.ThumbBranch : Prop :=
  (∀ h : Half, h.extractLsb' 11 5 = 0b11100#5 → decodeThumb h = .thumbB (h.extractLsb' 0 11))
  ∧ ∀ (offset11 : BitVec 11) (s : State),
    ∃ t, exec (.thumbB offset11) s = .next t ∧ t.pc = (s.pc - 2) + 2 + BitVec.ofInt 32 (2 * offset11.toInt)
      ∧ t.pc.getLsbD 0 = (s.pc - 2).getLsbD 0
      ∧ (offset11 = 0x7FF#11 → t.pc = s.pc - 2)
      ∧ SameFlags s t ∧ RegFrame [15] s t

/-- R120: a halfword that no Thumb row of R100 matches reports itself, zero-extended, and does nothing else. -/
def Obligations.UnknownHalfwordReportsItself : Prop :=
  (∀ (h : Half) (s : State), OnlyEmits (.thumbUnknown h) s
    (.unknownInstruction .thumb (s.pc - 2) (h.zeroExtend 32)))
  ∧ (∀ h : Half, (∀ r ∈ thumbRows.take 12, h.toNat &&& r.2.1 ≠ r.2.2) → decodeThumb h = .thumbUnknown h)

/-- No Thumb instruction touches the bus, writes T, or writes a register above R7 (R15 by B alone), and only an
unknown one emits an event (R185, R186). -/
def Obligations.ThumbInstructionsStayLocal : Prop :=
  ∀ (i : Instr) (s t : State), i.cond? = none → exec i s = .next t →
    SameBus s t ∧ (∀ a, t.peek a = s.peek a) ∧ t.timerDraws = s.timerDraws ∧ t.t = s.t
    ∧ (∀ r : Reg, 8 ≤ r.val → r ≠ 15 → t.reg r = s.reg r)
    ∧ (t.pc ≠ s.pc → ∃ off, i = .thumbB off)
    ∧ (t.events ≠ s.events → ∃ h, i = .thumbUnknown h)

/-! ## The step -/

/-- A step runs the decoded instruction (R111): the fetch reads 4 bytes at the pc in ARM state and 2 in Thumb state,
the pc moves past them, the instruction they decode to runs, and then the images count as loaded. When no byte at the
pc is in the timer range, the fetched value is the one the bytes hold, and the fetch's only output is its own
InvalidAddress event. -/
def Obligations.StepRunsDecodedInstruction : Prop :=
  ∀ s : State,
    (s.t = false →
      let got := readN .fetch s.pc .word { s with events := [] }
      step s = thenLoaded (exec (decodeArm got.1) (got.2.setPc (s.pc + 4)))
      ∧ (noTimer s.cfg s.pc 4 →
          got = (valueAt s s.pc .word, { s with events := invalidEvents s.cfg .fetch s.pc .word })))
    ∧ (s.t = true →
      let got := readN .fetch s.pc .half { s with events := [] }
      step s = thenLoaded (exec (decodeThumb (got.1.extractLsb' 0 16)) (got.2.setPc (s.pc + 2)))
      ∧ (noTimer s.cfg s.pc 2 →
          got = (valueAt s s.pc .half, { s with events := invalidEvents s.cfg .fetch s.pc .half })))

/-- No condition stops the machine (R123, R211, R212): every step from every state answers a next state, in which the
images count as loaded and the configuration is the same. -/
def Obligations.EveryStepCompletes : Prop :=
  ∀ s : State, ∃ t, step s = .next t ∧ t.imagesLoaded = true ∧ t.cfg = s.cfg

/-- The invariant: a well-formed configuration, and five byte arrays that are canonical and of their sizes. Every step
keeps it. -/
def Obligations.StepKeepsInvariant : Prop :=
  ∀ s t : State, s.Inv → step s = .next t → t.Inv

/-- The reset state meets the invariant. -/
def Obligations.ResetMeetsInvariant : Prop := State.reset.Inv

/-- Every host action keeps the invariant (R236). -/
def Obligations.HostActionsKeepInvariant : Prop :=
  ∀ (act : HostAction) (s t : State), s.Inv → hostAct act s = .next t → t.Inv

/-- R55 and R52: no step, of any instruction, changes the boot code or the cartridge image, so every byte that
resolves to BOOT or CART reads as before. -/
def Obligations.ImagesNeverChange : Prop :=
  ∀ s t : State, step s = .next t →
    t.boot = s.boot ∧ t.cart = s.cart
    ∧ ∀ a, (resolve s.cfg a = some .boot ∨ resolve s.cfg a = some .cart) → t.peek a = s.peek a

/-- Thumb state is one-way (R241): from a state with T = 1, a step and every host action but `reset()` leave T = 1. -/
def Obligations.ThumbStateIsOneWay : Prop :=
  ∀ (act : HostAction) (s t : State), s.t = true → act ≠ .reset → hostAct act s = .next t → t.t = true

/-- BX is the only instruction that writes T (R30, R153). -/
def Obligations.OnlyBranchExchangeWritesT : Prop :=
  ∀ (i : Instr) (s t : State), exec i s = .next t → t.t ≠ s.t → ∃ c rm, i = .bx c rm

/-- The CORE never sets a bit of IF (R59): a step, and every host action but `raiseIF`, can only clear bits; and
`raiseIF` sets exactly the bits of its mask and changes nothing else (its own event list is empty, log 2). -/
def Obligations.InterruptFlagsSetOnlyByEnvironment : Prop :=
  (∀ (act : HostAction) (s t : State), (∀ mask, act ≠ .raiseIF mask) → hostAct act s = .next t →
    t.ifr &&& ~~~s.ifr = 0#32)
  ∧ ∀ (mask : Word) (s : State),
      hostAct (.raiseIF mask) s = .next { s with ifr := s.ifr ||| mask, events := [] }

/-- C changes no execution path (R28): two states that differ in C alone take steps whose next states differ in C
alone, when the timer collaborator answers both alike (R124). That it does is the model's free value of log 3, drawn
by the same counter in both. -/
def Obligations.CarryFlagIsUnobserved : Prop :=
  ∀ (s t : State) (b : Bool), step s = .next t → ∃ b', step (withC b s) = .next (withC b' t)

/-- The event list is output (R210): no instruction reads it back. The list as a field of State is the model's (log 2),
and so is it that both runs draw the same timer answers, whatever TimerWrites stand before (log 3): what is said is
what the CORE does when the collaborator answers alike. -/
def Obligations.EventsAreNeverReadBack : Prop :=
  ∀ (i : Instr) (s t : State) (es : List Event), exec i s = .next t →
    exec i (withEarlier es s) = .next (withEarlier es t)

/-- Only ADD, SUB, RSB, CMP and the Thumb CMP, ADD and SUB with imm8 change C or V (R28, R29, R142, R198). -/
def Obligations.CarryAndOverflowWriters : Prop :=
  ∀ (i : Instr) (s t : State), exec i s = .next t → (t.c ≠ s.c ∨ t.v ≠ s.v) →
    (∃ f, (i = .add f ∨ i = .sub f ∨ i = .rsb f) ∧ f.setFlags = true) ∨ (∃ f, i = .cmp f)
    ∨ (∃ rd imm8, i = .cmpImm8 rd imm8 ∨ i = .addImm8 rd imm8 ∨ i = .subImm8 rd imm8)

/-- Only STR, STRB and STM change a byte that the CORE holds; every other instruction leaves every byte, IE, IF and
IME as they are (R121, R63). -/
def Obligations.OnlyStoresChangeMemory : Prop :=
  ∀ (i : Instr) (s t : State), exec i s = .next t →
    (∀ f, i ≠ .str f ∧ i ≠ .strb f) → (∀ f, i ≠ .stm f) → SameBus s t ∧ ∀ a, t.peek a = s.peek a

/-- What redirects the pc: nothing but the instructions that R118 lists (a branch, a data-processing instruction with
Rd = 15 that is not CMP, a load into R15, and a base write-back of LDR, LDRB, LDM or STM to R15), and STR or STRB with
a base write-back to R15. R118's list leaves those two out, where R173 and R174 with R170 write the base back whatever
register it is: the model follows them (log 17). -/
def Obligations.PcRedirectors : Prop :=
  ∀ (i : Instr) (s t : State), exec i s = .next t → t.pc ≠ s.pc →
    (∃ c k, i = .b c k ∨ i = .bl c k) ∨ (∃ c rm, i = .bx c rm) ∨ (∃ k, i = .thumbB k)
    ∨ (∃ f, f.rd = 15 ∧ (i = .armAnd f ∨ i = .armEor f ∨ i = .sub f ∨ i = .rsb f ∨ i = .add f ∨ i = .armOrr f
        ∨ i = .mov f))
    ∨ (∃ f, (f.rd = 15 ∨ (f.rn = 15 ∧ f.writeBack = true)) ∧ (i = .ldr f ∨ i = .ldrb f))
    ∨ (∃ f, (f.rn = 15 ∧ f.writeBack = true) ∧ (i = .str f ∨ i = .strb f))
    ∨ (∃ f, (f.list.getLsbD 15 = true ∨ (f.rn = 15 ∧ f.writeBack = true)) ∧ i = .ldm f)
    ∨ (∃ f, (f.rn = 15 ∧ f.writeBack = true) ∧ i = .stm f)

/-- The self-loop (R123): at `B self`, 0xEAFFFFFF in ARM state or 0xE7FF in Thumb state, in mapped bytes outside the
timer range, a step changes no state and emits no event. -/
def Obligations.SelfLoopRepeats : Prop :=
  ∀ s : State,
    (s.t = false → noTimer s.cfg s.pc 4 → (∀ k < 4, target s.cfg (nth s.pc k) ≠ .unmapped) →
      valueAt s s.pc .word = 0xEAFFFFFF#32 → step s = .next { s with events := [], imagesLoaded := true })
    ∧ (s.t = true → noTimer s.cfg s.pc 2 → (∀ k < 2, target s.cfg (nth s.pc k) ≠ .unmapped) →
      valueAt s s.pc .half = 0xE7FF#32 → step s = .next { s with events := [], imagesLoaded := true })

/-- Running into bytes that read 0 (R242): in ARM state nothing changes but the pc, by 4; in Thumb state N and Z are
set from R0 and the pc moves by 2; the event is the fetch's InvalidAddress, if some byte is unmapped. -/
def Obligations.ZeroWordsSlide : Prop :=
  ∀ s : State,
    (s.t = false → (∀ k < 4, s.peek (nth s.pc k) = some 0) →
      step s = .next (({ s with events := invalidEvents s.cfg .fetch s.pc .word, imagesLoaded := true }
        : State).setPc (s.pc + 4)))
    ∧ (s.t = true → (∀ k < 2, s.peek (nth s.pc k) = some 0) →
      ∃ t, step s = .next t ∧ t.pc = s.pc + 2 ∧ NZof (s.reg 0) t ∧ t.c = s.c ∧ t.v = s.v ∧ t.t = true
        ∧ SameRegsBut [15] s t ∧ (∀ a, t.peek a = s.peek a) ∧ t.timerDraws = s.timerDraws
        ∧ t.events = invalidEvents s.cfg .fetch s.pc .half)

/-- A store is seen by any fetch from the next step on (R73). Each byte that STR, STRB, STM or a host write of any
width stores to plain writable storage is what every later fetch of its address reads, in ARM and in Thumb state, as
long as nothing has been stored there since. So a step after a STR to its own address runs the word stored; and after
a host write of a word at the pc in ARM state, or of a halfword in Thumb state, the fetch gives it and does nothing
else. -/
def Obligations.FetchSeesTheLastStore : Prop :=
  (∀ (f : SdtArgs) (s : State), s.Inv → condPasses f.cond s = true →
    (∃ t, exec (.str f) s = .next t ∧ ∀ k < 4, plainByte s.cfg (nth (sdtEa f s) k) →
      SeenByFetch t (nth (sdtEa f s) k) ((s.reg f.rd).extractLsb' (8 * k) 8))
    ∧ (∃ t, exec (.strb f) s = .next t ∧ (plainByte s.cfg (sdtEa f s) →
      SeenByFetch t (sdtEa f s) ((s.reg f.rd).extractLsb' 0 8))))
  ∧ (∀ (f : BlockArgs) (s : State), s.Inv → condPasses f.cond s = true →
    ∃ t, exec (.stm f) s = .next t ∧ ∀ r, f.list.getLsbD r.val = true → ∀ k < 4,
      plainByte s.cfg (nth (blockAddr f s r) k) →
      SeenByFetch t (nth (blockAddr f s r) k) ((s.reg r).extractLsb' (8 * k) 8))
  ∧ (∀ (addr : Word) (n : Width) (v : Word) (s : State), s.Inv → ∀ k < n.bytes, plainByte s.cfg (nth addr k) →
    SeenByFetch (hostWrite addr n v s) (nth addr k) (v.extractLsb' (8 * k) 8))
  ∧ (∀ (f : SdtArgs) (s s' t : State), s.Inv → fetchDecode (beginStep s) = (.str f, s') →
    condPasses f.cond s' = true → (∀ k < 4, plainByte s.cfg (nth (sdtEa f s') k)) →
    step s = .next t → t.pc = sdtEa f s' →
    step t = thenLoaded (exec (decodeArm (s'.reg f.rd)) (({ t with events := [] } : State).setPc (t.pc + 4))))
  ∧ (∀ (s : State) (w : Word), s.Inv → s.t = false → (∀ k < 4, plainByte s.cfg (nth s.pc k)) →
    fetchCode (hostWrite s.pc .word w s) = (.arm w, hostWrite s.pc .word w s))
  ∧ (∀ (s : State) (w : Word), s.Inv → s.t = true → (∀ k < 2, plainByte s.cfg (nth s.pc k)) →
    fetchCode (hostWrite s.pc .half w s) = (.thumb (w.extractLsb' 0 16), hostWrite s.pc .half w s))

/-! ## The bus -/

/-- The region table (R41, R42): the address resolves to a region exactly when the region contains it and no region
before it in the fixed order does. -/
def Obligations.RegionPrecedence : Prop :=
  ∀ (c : Cfg) (a : Word) (p : Nat), p < 5 →
    let table := [(RegionKind.boot, c.boot), (.gram, c.gram), (.sram, c.sram), (.cart, c.cart), (.io, c.io)]
    let holds := fun (r : Region) => r.base ≤ a.toNat ∧ a.toNat < r.base + r.size
    (resolve c a = (table.map Prod.fst)[p]? ↔
      (∃ r ∈ (table.map Prod.snd)[p]?, holds r) ∧ ∀ q < p, ∀ r ∈ (table.map Prod.snd)[q]?, ¬ holds r)
    ∧ (resolve c a = none ↔ ∀ r ∈ table.map Prod.snd, ¬ holds r)

/-- The default address map (R69). -/
def Obligations.DefaultAddressMap : Prop :=
  ∀ a : Word,
    target defaultCfg a =
      if a.toNat < 0x00004000 then .boot a.toNat
      else if a.toNat < 0x02000000 then .unmapped
      else if a.toNat < 0x02040000 then .gram (a.toNat - 0x02000000)
      else if a.toNat < 0x03000000 then .unmapped
      else if a.toNat < 0x03008000 then .sram (a.toNat - 0x03000000)
      else if a.toNat < 0x04000000 then .unmapped
      else if a.toNat < 0x04000100 then .iofb (a.toNat - 0x04000000)
      else if a.toNat < 0x04000110 then .timer ((a.toNat - 0x04000100) / 4) (halfOf a) (laneOf a)
      else if a.toNat < 0x04000200 then .iofb (a.toNat - 0x04000000)
      else if a.toNat < 0x04000204 then .ie (a.toNat - 0x04000200)
      else if a.toNat < 0x04000208 then .ifr (a.toNat - 0x04000204)
      else if a.toNat < 0x0400020C then .ime (a.toNat - 0x04000208)
      else if a.toNat < 0x04000400 then .iofb (a.toNat - 0x04000000)
      else if a.toNat < 0x08000000 then .unmapped
      else if a.toNat < 0x0A000000 then .cart (a.toNat - 0x08000000)
      else .unmapped

/-- A read of any width (R49, R50, R51): its only effect is its output, one TimerRead for each channel half it asks
and then one InvalidAddress if some byte is unmapped; each TimerRead draws one answer. Outside the timer range it
draws nothing, and the value is the little-endian composition of the bytes, an unmapped byte reading 0. That draws are
counted is the model's (log 3), and that the TimerReads come before the InvalidAddress is the model's reading of the
order inside one access (log 10). -/
def Obligations.ReadAccess : Prop :=
  ∀ (kind : AccessKind) (addr : Word) (n : Width) (s : State),
    (∃ asks : List Event, (∀ e ∈ asks, ∃ ch h answer, e = .timerRead ch h answer)
      ∧ (readN kind addr n s).2 = { s with
          events := s.events ++ asks ++ invalidEvents s.cfg kind addr n, timerDraws := s.timerDraws + asks.length }
      ∧ (noTimer s.cfg addr n.bytes → asks = []))
    ∧ (noTimer s.cfg addr n.bytes → (readN kind addr n s).1 = valueAt s addr n)

/-- The events of a write of any width (R51, R53, R54, R213): its TimerWrites, then one InvalidAddress if some byte is
unmapped, then one ReadOnlyViolation if some byte is read-only; and no event beside them. That the TimerWrites come
first is the model's reading of the order inside one access (log 10). -/
def Obligations.WriteAccessEvents : Prop :=
  ∀ (kind : AccessKind) (addr : Word) (n : Width) (v : Word) (s : State),
    ∃ sends : List Event, (∀ e ∈ sends, ∃ ch h value mask, e = .timerWrite ch h value mask)
      ∧ (writeN kind addr n v s).events
          = s.events ++ sends ++ invalidEvents s.cfg kind addr n ++ readOnlyEvents s.cfg kind addr n
      ∧ (noTimer s.cfg addr n.bytes → sends = [])

/-- Every byte after a write access of any width (R44, R52, R57, R58): each byte of the access as its own target says,
every other byte as before. -/
def Obligations.WriteAccessBytes : Prop :=
  ∀ (kind : AccessKind) (addr : Word) (n : Width) (v : Word) (s : State), s.Inv →
    (∀ k < n.bytes, (writeN kind addr n v s).peek (nth addr k)
      = afterStore s (nth addr k) (v.extractLsb' (8 * k) 8))
    ∧ (∀ a, (∀ k < n.bytes, a ≠ nth addr k) → (writeN kind addr n v s).peek a = s.peek a)

/-- Read after write (R55, R47): in plain writable storage, `read32` after `write32` returns the word, and narrower
reads return its bytes and halves. -/
def Obligations.ReadAfterWrite : Prop :=
  ∀ (addr : Word) (v : Word) (s : State), s.Inv →
    (∀ k < 4, plainByte s.cfg (nth addr k)) →
    (readN .read addr .word (writeN .write addr .word v s)).1 = v
    ∧ (readN .read addr .half (writeN .write addr .word v s)).1 = (v.extractLsb' 0 16).zeroExtend 32
    ∧ (readN .read (addr + 2) .half (writeN .write addr .word v s)).1 = (v.extractLsb' 16 16).zeroExtend 32
    ∧ ∀ k < 4, (readN .read (nth addr k) .byte (writeN .write addr .word v s)).1
        = (v.extractLsb' (8 * k) 8).zeroExtend 32

/-- IF is write-one-to-clear (R58): where the four bytes reach IF, a word write clears exactly the bits written as 1,
a byte write clears within its lane, a read returns IF or its lane, writing twice is writing once, and nothing else
changes. -/
def Obligations.InterruptFlagsWriteOneToClear : Prop :=
  ∀ (addr : Word) (s : State) (kind : AccessKind), (∀ k < 4, target s.cfg (nth addr k) = .ifr k) →
    (∀ m : Word, writeN kind addr .word m s = { s with ifr := s.ifr &&& ~~~m }
      ∧ writeN kind addr .word m (writeN kind addr .word m s) = writeN kind addr .word m s)
    ∧ (∀ m : Word, ∀ l < 4, writeN kind (nth addr l) .byte m s
        = { s with ifr := s.ifr &&& ~~~((m &&& 0xFF#32) <<< (8 * l)) })
    ∧ readN kind addr .word s = (s.ifr, s)
    ∧ ∀ l < 4, readN kind (nth addr l) .byte s = ((s.ifr >>> (8 * l)) &&& 0xFF#32, s)

/-- IE and IME are direct storage by byte lanes (R57): a word write stores the word, a half write of the upper half
replaces bits 31:16, a byte write replaces its lane, a read returns the register or its lane, and nothing else
changes. -/
def Obligations.InterruptEnablesAreStorage : Prop :=
  ∀ (addr : Word) (s : State) (kind : AccessKind) (v : Word),
    ((∀ k < 4, target s.cfg (nth addr k) = .ie k) →
      writeN kind addr .word v s = { s with ie := v }
      ∧ writeN kind (addr + 2) .half v s = { s with ie := v.extractLsb' 0 16 ++ s.ie.extractLsb' 0 16 }
      ∧ (∀ l < 4, ∃ ie', writeN kind (nth addr l) .byte v s = { s with ie := ie' } ∧ LaneReplaced s.ie ie' l v)
      ∧ readN kind addr .word s = (s.ie, s)
      ∧ ∀ l < 4, readN kind (nth addr l) .byte s = ((s.ie >>> (8 * l)) &&& 0xFF#32, s))
    ∧ ((∀ k < 4, target s.cfg (nth addr k) = .ime k) →
      writeN kind addr .word v s = { s with ime := v }
      ∧ writeN kind (addr + 2) .half v s = { s with ime := v.extractLsb' 0 16 ++ s.ime.extractLsb' 0 16 }
      ∧ (∀ l < 4, ∃ ime', writeN kind (nth addr l) .byte v s = { s with ime := ime' } ∧ LaneReplaced s.ime ime' l v)
      ∧ readN kind addr .word s = (s.ime, s)
      ∧ ∀ l < 4, readN kind (nth addr l) .byte s = ((s.ime >>> (8 * l)) &&& 0xFF#32, s))

/-- Timer writes (R60). Of any write access: one TimerWrite for each channel half it touches, in the order of their
first bytes, with the byte of each lane the access wrote (0 in a lane it did not write) and the mask of those lanes. So
a word write at a channel's base gives two TimerWrites, low half then high half, each with both lanes; an aligned half
write gives one with both lanes; a byte write gives one, with its byte and mask in its lane; and these change no storage
of the CORE. That the TimerWrites come before the other events of their access is log 10. -/
def Obligations.TimerWritesAreForwarded : Prop :=
  ∀ (addr : Word) (s : State) (kind : AccessKind) (v : Word),
    (∀ n : Width, ∃ (value : TimerKey → Half) (mask : TimerKey → BitVec 2),
      (∀ k < n.bytes, ∀ ch h l, target s.cfg (nth addr k) = .timer ch h l →
        (value (ch, h)).extractLsb' (8 * l) 8 = v.extractLsb' (8 * k) 8 ∧ (mask (ch, h)).getLsbD l = true)
      ∧ (∀ ch h, ∀ l < 2, (∀ k < n.bytes, target s.cfg (nth addr k) ≠ .timer ch h l) →
        (value (ch, h)).extractLsb' (8 * l) 8 = 0#8 ∧ (mask (ch, h)).getLsbD l = false)
      ∧ (writeN kind addr n v s).events = s.events
          ++ (timerKeys s.cfg addr n.bytes).map (fun key => .timerWrite key.1 key.2 (value key) (mask key))
          ++ invalidEvents s.cfg kind addr n ++ readOnlyEvents s.cfg kind addr n)
    ∧ (∀ ch, target s.cfg addr = .timer ch .low 0 → target s.cfg (nth addr 1) = .timer ch .low 1 →
      target s.cfg (nth addr 2) = .timer ch .high 0 → target s.cfg (nth addr 3) = .timer ch .high 1 →
      writeN kind addr .word v s = { s with events := s.events ++
        [.timerWrite ch .low (v.extractLsb' 0 16) 0b11#2, .timerWrite ch .high (v.extractLsb' 16 16) 0b11#2] })
    ∧ (∀ ch h, target s.cfg addr = .timer ch h 0 → target s.cfg (nth addr 1) = .timer ch h 1 →
      writeN kind addr .half v s = { s with events := s.events ++
        [.timerWrite ch h (v.extractLsb' 0 16) 0b11#2] })
    ∧ (∀ ch h, target s.cfg addr = .timer ch h 0 → writeN kind addr .byte v s = { s with events := s.events ++
        [.timerWrite ch h (0#8 ++ v.extractLsb' 0 8) 0b01#2] })
    ∧ (∀ ch h, target s.cfg addr = .timer ch h 1 → writeN kind addr .byte v s = { s with events := s.events ++
        [.timerWrite ch h (v.extractLsb' 0 8 ++ 0#8) 0b10#2] })

/-- Timer reads (R60). Of any read access: there is an answer for each channel half it touches; a timer byte of
the value is its lane of that answer, every other byte is the CORE's own, the bits above are 0; one TimerRead is
recorded for each half, in the order of their first bytes, and nothing else of the CORE changes. So a word read at a
channel's base asks the low half and then the high half; an aligned half read and a byte read ask once; and LDRB takes
one lane of one answer. Nothing constrains what an answer is; that draws are counted is the model's (log 3), and that
the TimerReads come before the access's InvalidAddress is log 10. -/
def Obligations.TimerReadsAskTheCollaborator : Prop :=
  (∀ (addr : Word) (s : State) (kind : AccessKind),
    (∀ n : Width, ∃ answer : TimerKey → Half,
      (∀ k < n.bytes, (readN kind addr n s).1.extractLsb' (8 * k) 8 =
        match target s.cfg (nth addr k) with
        | .timer ch h l => (answer (ch, h)).extractLsb' (8 * l) 8
        | _ => (s.peek (nth addr k)).getD 0#8)
      ∧ (readN kind addr n s).1.toNat < 2 ^ (8 * n.bytes)
      ∧ (readN kind addr n s).2 = { s with
          events := s.events ++ (timerKeys s.cfg addr n.bytes).map (fun key => .timerRead key.1 key.2 (answer key))
            ++ invalidEvents s.cfg kind addr n
          timerDraws := s.timerDraws + (timerKeys s.cfg addr n.bytes).length })
    ∧ (∀ ch, target s.cfg addr = .timer ch .low 0 → target s.cfg (nth addr 1) = .timer ch .low 1 →
      target s.cfg (nth addr 2) = .timer ch .high 0 → target s.cfg (nth addr 3) = .timer ch .high 1 →
      ∃ t0 t1 : Half, readN kind addr .word s = (t1 ++ t0, { s with
        events := s.events ++ [.timerRead ch .low t0, .timerRead ch .high t1], timerDraws := s.timerDraws + 2 }))
    ∧ (∀ ch h, target s.cfg addr = .timer ch h 0 → target s.cfg (nth addr 1) = .timer ch h 1 →
      ∃ a : Half, readN kind addr .half s = (a.zeroExtend 32, { s with
        events := s.events ++ [.timerRead ch h a], timerDraws := s.timerDraws + 1 }))
    ∧ (∀ ch h l, target s.cfg addr = .timer ch h l →
      ∃ a : Half, readN kind addr .byte s = ((a.extractLsb' (8 * l) 8).zeroExtend 32, { s with
        events := s.events ++ [.timerRead ch h a], timerDraws := s.timerDraws + 1 })))
  ∧ ∀ (f : SdtArgs) (s : State) (ch : Nat) (h : TimerHalf) (l : Nat), condPasses f.cond s = true →
      target s.cfg (sdtEa f s) = .timer ch h l →
      ∃ (t : State) (a : Half), exec (.ldrb f) s = .next t ∧ t.reg f.rd = (a.extractLsb' (8 * l) 8).zeroExtend 32
        ∧ t.events = s.events ++ [.timerRead ch h a] ∧ t.timerDraws = s.timerDraws + 1

/-! ## Reset, images and the host -/

/-- `reset()` (R230, R231): registers, status and volatile storage 0, the images, `imagesLoaded` and the configuration
kept; the next fetch is at 0 in ARM state. -/
def Obligations.ResetAction : Prop :=
  ∀ s : State, ∃ t, hostAct .reset s = .next t
    ∧ (∀ r, t.reg r = 0) ∧ t.pc = 0 ∧ t.statusWord = 0 ∧ t.t = false
    ∧ (∀ o, t.gram.read o = 0 ∧ t.sram.read o = 0 ∧ t.iofb.read o = 0)
    ∧ t.ie = 0 ∧ t.ifr = 0 ∧ t.ime = 0
    ∧ t.boot = s.boot ∧ t.cart = s.cart ∧ t.imagesLoaded = s.imagesLoaded ∧ t.cfg = s.cfg

/-- The constructed state (R233): every register and flag 0, every byte of the five arrays 0, no image loaded. -/
def Obligations.ConstructedState : Prop :=
  ∀ c : Cfg, let s := State.construct c
    (∀ r, s.reg r = 0) ∧ s.statusWord = 0 ∧ s.imagesLoaded = false ∧ s.ie = 0 ∧ s.ifr = 0 ∧ s.ime = 0
    ∧ ∀ o, s.boot.read o = 0 ∧ s.gram.read o = 0 ∧ s.sram.read o = 0 ∧ s.cart.read o = 0 ∧ s.iofb.read o = 0

/-- Image loading (R67, R68): before the first step, `loadImage` makes byte `i` of CART byte `i` of the image for i
below both the image's length and CART_MAX, and 0 otherwise, and so for the boot image, and changes nothing else (its
own event list is empty, log 2); after the first step both are refused. -/
def Obligations.ImageLoading : Prop :=
  ∀ (bytes : List Byte) (s : State),
    (s.imagesLoaded = false →
      (∃ t, hostAct (.loadImage bytes) s = .next t ∧ t = { s with cart := t.cart, events := [] }
        ∧ ∀ i, t.cart.read i = if i < s.cfg.cart.size then bytes.getD i 0 else 0)
      ∧ (∃ t, hostAct (.loadBootImage bytes) s = .next t ∧ t = { s with boot := t.boot, events := [] }
        ∧ ∀ i, t.boot.read i = if i < s.cfg.boot.size then bytes.getD i 0 else 0))
    ∧ (s.imagesLoaded = true →
      hostAct (.loadImage bytes) s = .refused .imageLoadAfterFirstStep
      ∧ hostAct (.loadBootImage bytes) s = .refused .imageLoadAfterFirstStep)

/-- The host never writes registers or flags directly (R236): every host action but `step()` and `reset()` leaves the
registers and the status as they are, and `raiseIF` sets exactly the bits of its mask. -/
def Obligations.HostNeverWritesRegisters : Prop :=
  ∀ (act : HostAction) (s t : State), act ≠ .step → act ≠ .reset → hostAct act s = .next t →
    (∀ r, t.reg r = s.reg r) ∧ SameStatus s t
    ∧ ∀ mask, act = .raiseIF mask → ∀ i < 32, t.ifr.getLsbD i = (s.ifr.getLsbD i || mask.getLsbD i)

/-- The status word's layout (R25): N, Z, C, V in bits 31 to 28, T in bit 5, every other bit 0. -/
def Obligations.StatusWordLayout : Prop :=
  ∀ (s : State) (i : Nat), i < 32 →
    s.statusWord.getLsbD i =
      (if i = 31 then s.n else if i = 30 then s.z else if i = 29 then s.c else if i = 28 then s.v
       else if i = 5 then s.t else false)
end

