-- ==== Sys2Proof/Laws/State.lean ====
section
/-! SUPPORT. The small lemmas of the state: for each update, one lemma per field, so that no later proof unfolds a record
update. -/

namespace Sys2Proof.Machine

variable (s t : State)

/-! Registers. -/

@[simp] theorem State.pc_eq_reg : s.pc = s.reg 15 := rfl
@[simp] theorem State.setPc_eq_setReg (v : Word) : s.setPc v = s.setReg 15 v := rfl

theorem State.reg_setReg (r q : Reg) (v : Word) : (s.setReg r v).reg q = if q = r then v else s.reg q := by
  simp only [State.reg, State.setReg, Vector.get_eq_getElem, Vector.getElem_set, Fin.val_inj, eq_comm]

@[simp] theorem State.reg_setReg_self (r : Reg) (v : Word) : (s.setReg r v).reg r = v := by
  simp [State.reg_setReg]

@[simp] theorem State.reg_setReg_ne {r q : Reg} (h : q ≠ r) (v : Word) : (s.setReg r v).reg q = s.reg q := by
  simp [State.reg_setReg, h]

/-- Two states with the same registers hold the same register file. -/
theorem State.x_ext {s t : State} (h : ∀ r, s.reg r = t.reg r) : s.x = t.x := by
  refine Vector.ext fun i hi => ?_
  simpa [State.reg, Vector.get_eq_getElem] using h ⟨i, hi⟩

/-! setReg. -/

@[simp] theorem setReg_cfg (r : Reg) (v : Word) : (s.setReg r v).cfg = s.cfg := rfl
@[simp] theorem setReg_n (r : Reg) (v : Word) : (s.setReg r v).n = s.n := rfl
@[simp] theorem setReg_z (r : Reg) (v : Word) : (s.setReg r v).z = s.z := rfl
@[simp] theorem setReg_c (r : Reg) (v : Word) : (s.setReg r v).c = s.c := rfl
@[simp] theorem setReg_v (r : Reg) (v : Word) : (s.setReg r v).v = s.v := rfl
@[simp] theorem setReg_t (r : Reg) (v : Word) : (s.setReg r v).t = s.t := rfl
@[simp] theorem setReg_boot (r : Reg) (v : Word) : (s.setReg r v).boot = s.boot := rfl
@[simp] theorem setReg_gram (r : Reg) (v : Word) : (s.setReg r v).gram = s.gram := rfl
@[simp] theorem setReg_sram (r : Reg) (v : Word) : (s.setReg r v).sram = s.sram := rfl
@[simp] theorem setReg_cart (r : Reg) (v : Word) : (s.setReg r v).cart = s.cart := rfl
@[simp] theorem setReg_iofb (r : Reg) (v : Word) : (s.setReg r v).iofb = s.iofb := rfl
@[simp] theorem setReg_ie (r : Reg) (v : Word) : (s.setReg r v).ie = s.ie := rfl
@[simp] theorem setReg_ifr (r : Reg) (v : Word) : (s.setReg r v).ifr = s.ifr := rfl
@[simp] theorem setReg_ime (r : Reg) (v : Word) : (s.setReg r v).ime = s.ime := rfl
@[simp] theorem setReg_imagesLoaded (r : Reg) (v : Word) : (s.setReg r v).imagesLoaded = s.imagesLoaded := rfl
@[simp] theorem setReg_events (r : Reg) (v : Word) : (s.setReg r v).events = s.events := rfl
@[simp] theorem setReg_timerDraws (r : Reg) (v : Word) : (s.setReg r v).timerDraws = s.timerDraws := rfl

/-! emit. -/

@[simp] theorem emit_cfg (e : Event) : (emit e s).cfg = s.cfg := rfl
@[simp] theorem emit_n (e : Event) : (emit e s).n = s.n := rfl
@[simp] theorem emit_z (e : Event) : (emit e s).z = s.z := rfl
@[simp] theorem emit_c (e : Event) : (emit e s).c = s.c := rfl
@[simp] theorem emit_v (e : Event) : (emit e s).v = s.v := rfl
@[simp] theorem emit_t (e : Event) : (emit e s).t = s.t := rfl
@[simp] theorem emit_boot (e : Event) : (emit e s).boot = s.boot := rfl
@[simp] theorem emit_gram (e : Event) : (emit e s).gram = s.gram := rfl
@[simp] theorem emit_sram (e : Event) : (emit e s).sram = s.sram := rfl
@[simp] theorem emit_cart (e : Event) : (emit e s).cart = s.cart := rfl
@[simp] theorem emit_iofb (e : Event) : (emit e s).iofb = s.iofb := rfl
@[simp] theorem emit_ie (e : Event) : (emit e s).ie = s.ie := rfl
@[simp] theorem emit_ifr (e : Event) : (emit e s).ifr = s.ifr := rfl
@[simp] theorem emit_ime (e : Event) : (emit e s).ime = s.ime := rfl
@[simp] theorem emit_imagesLoaded (e : Event) : (emit e s).imagesLoaded = s.imagesLoaded := rfl
@[simp] theorem emit_timerDraws (e : Event) : (emit e s).timerDraws = s.timerDraws := rfl
@[simp] theorem emit_reg (e : Event) (q : Reg) : (emit e s).reg q = s.reg q := rfl

/-! setNZ. -/

@[simp] theorem setNZ_cfg (r : Word) : (setNZ r s).cfg = s.cfg := rfl
@[simp] theorem setNZ_c (r : Word) : (setNZ r s).c = s.c := rfl
@[simp] theorem setNZ_v (r : Word) : (setNZ r s).v = s.v := rfl
@[simp] theorem setNZ_t (r : Word) : (setNZ r s).t = s.t := rfl
@[simp] theorem setNZ_boot (r : Word) : (setNZ r s).boot = s.boot := rfl
@[simp] theorem setNZ_gram (r : Word) : (setNZ r s).gram = s.gram := rfl
@[simp] theorem setNZ_sram (r : Word) : (setNZ r s).sram = s.sram := rfl
@[simp] theorem setNZ_cart (r : Word) : (setNZ r s).cart = s.cart := rfl
@[simp] theorem setNZ_iofb (r : Word) : (setNZ r s).iofb = s.iofb := rfl
@[simp] theorem setNZ_ie (r : Word) : (setNZ r s).ie = s.ie := rfl
@[simp] theorem setNZ_ifr (r : Word) : (setNZ r s).ifr = s.ifr := rfl
@[simp] theorem setNZ_ime (r : Word) : (setNZ r s).ime = s.ime := rfl
@[simp] theorem setNZ_imagesLoaded (r : Word) : (setNZ r s).imagesLoaded = s.imagesLoaded := rfl
@[simp] theorem setNZ_events (r : Word) : (setNZ r s).events = s.events := rfl
@[simp] theorem setNZ_timerDraws (r : Word) : (setNZ r s).timerDraws = s.timerDraws := rfl
@[simp] theorem setNZ_reg (r : Word) (q : Reg) : (setNZ r s).reg q = s.reg q := rfl

/-! addFlags. -/

@[simp] theorem addFlags_cfg (a b r : Word) : (addFlags a b r s).cfg = s.cfg := rfl
@[simp] theorem addFlags_t (a b r : Word) : (addFlags a b r s).t = s.t := rfl
@[simp] theorem addFlags_boot (a b r : Word) : (addFlags a b r s).boot = s.boot := rfl
@[simp] theorem addFlags_gram (a b r : Word) : (addFlags a b r s).gram = s.gram := rfl
@[simp] theorem addFlags_sram (a b r : Word) : (addFlags a b r s).sram = s.sram := rfl
@[simp] theorem addFlags_cart (a b r : Word) : (addFlags a b r s).cart = s.cart := rfl
@[simp] theorem addFlags_iofb (a b r : Word) : (addFlags a b r s).iofb = s.iofb := rfl
@[simp] theorem addFlags_ie (a b r : Word) : (addFlags a b r s).ie = s.ie := rfl
@[simp] theorem addFlags_ifr (a b r : Word) : (addFlags a b r s).ifr = s.ifr := rfl
@[simp] theorem addFlags_ime (a b r : Word) : (addFlags a b r s).ime = s.ime := rfl
@[simp] theorem addFlags_imagesLoaded (a b r : Word) : (addFlags a b r s).imagesLoaded = s.imagesLoaded := rfl
@[simp] theorem addFlags_events (a b r : Word) : (addFlags a b r s).events = s.events := rfl
@[simp] theorem addFlags_timerDraws (a b r : Word) : (addFlags a b r s).timerDraws = s.timerDraws := rfl
@[simp] theorem addFlags_reg (a b r : Word) (q : Reg) : (addFlags a b r s).reg q = s.reg q := rfl

/-! subFlags. -/

@[simp] theorem subFlags_cfg (a b r : Word) : (subFlags a b r s).cfg = s.cfg := rfl
@[simp] theorem subFlags_t (a b r : Word) : (subFlags a b r s).t = s.t := rfl
@[simp] theorem subFlags_boot (a b r : Word) : (subFlags a b r s).boot = s.boot := rfl
@[simp] theorem subFlags_gram (a b r : Word) : (subFlags a b r s).gram = s.gram := rfl
@[simp] theorem subFlags_sram (a b r : Word) : (subFlags a b r s).sram = s.sram := rfl
@[simp] theorem subFlags_cart (a b r : Word) : (subFlags a b r s).cart = s.cart := rfl
@[simp] theorem subFlags_iofb (a b r : Word) : (subFlags a b r s).iofb = s.iofb := rfl
@[simp] theorem subFlags_ie (a b r : Word) : (subFlags a b r s).ie = s.ie := rfl
@[simp] theorem subFlags_ifr (a b r : Word) : (subFlags a b r s).ifr = s.ifr := rfl
@[simp] theorem subFlags_ime (a b r : Word) : (subFlags a b r s).ime = s.ime := rfl
@[simp] theorem subFlags_imagesLoaded (a b r : Word) : (subFlags a b r s).imagesLoaded = s.imagesLoaded := rfl
@[simp] theorem subFlags_events (a b r : Word) : (subFlags a b r s).events = s.events := rfl
@[simp] theorem subFlags_timerDraws (a b r : Word) : (subFlags a b r s).timerDraws = s.timerDraws := rfl
@[simp] theorem subFlags_reg (a b r : Word) (q : Reg) : (subFlags a b r s).reg q = s.reg q := rfl

/-! beginStep. -/

@[simp] theorem beginStep_cfg : (beginStep s).cfg = s.cfg := rfl
@[simp] theorem beginStep_n : (beginStep s).n = s.n := rfl
@[simp] theorem beginStep_z : (beginStep s).z = s.z := rfl
@[simp] theorem beginStep_c : (beginStep s).c = s.c := rfl
@[simp] theorem beginStep_v : (beginStep s).v = s.v := rfl
@[simp] theorem beginStep_t : (beginStep s).t = s.t := rfl
@[simp] theorem beginStep_boot : (beginStep s).boot = s.boot := rfl
@[simp] theorem beginStep_gram : (beginStep s).gram = s.gram := rfl
@[simp] theorem beginStep_sram : (beginStep s).sram = s.sram := rfl
@[simp] theorem beginStep_cart : (beginStep s).cart = s.cart := rfl
@[simp] theorem beginStep_iofb : (beginStep s).iofb = s.iofb := rfl
@[simp] theorem beginStep_ie : (beginStep s).ie = s.ie := rfl
@[simp] theorem beginStep_ifr : (beginStep s).ifr = s.ifr := rfl
@[simp] theorem beginStep_ime : (beginStep s).ime = s.ime := rfl
@[simp] theorem beginStep_imagesLoaded : (beginStep s).imagesLoaded = s.imagesLoaded := rfl
@[simp] theorem beginStep_timerDraws : (beginStep s).timerDraws = s.timerDraws := rfl
@[simp] theorem beginStep_reg (q : Reg) : (beginStep s).reg q = s.reg q := rfl

/-! retire. -/

@[simp] theorem retire_cfg : (retire s).cfg = s.cfg := rfl
@[simp] theorem retire_n : (retire s).n = s.n := rfl
@[simp] theorem retire_z : (retire s).z = s.z := rfl
@[simp] theorem retire_c : (retire s).c = s.c := rfl
@[simp] theorem retire_v : (retire s).v = s.v := rfl
@[simp] theorem retire_t : (retire s).t = s.t := rfl
@[simp] theorem retire_boot : (retire s).boot = s.boot := rfl
@[simp] theorem retire_gram : (retire s).gram = s.gram := rfl
@[simp] theorem retire_sram : (retire s).sram = s.sram := rfl
@[simp] theorem retire_cart : (retire s).cart = s.cart := rfl
@[simp] theorem retire_iofb : (retire s).iofb = s.iofb := rfl
@[simp] theorem retire_ie : (retire s).ie = s.ie := rfl
@[simp] theorem retire_ifr : (retire s).ifr = s.ifr := rfl
@[simp] theorem retire_ime : (retire s).ime = s.ime := rfl
@[simp] theorem retire_events : (retire s).events = s.events := rfl
@[simp] theorem retire_timerDraws : (retire s).timerDraws = s.timerDraws := rfl
@[simp] theorem retire_reg (q : Reg) : (retire s).reg q = s.reg q := rfl

@[simp] theorem emit_events (e : Event) : (emit e s).events = s.events ++ [e] := rfl
@[simp] theorem setNZ_n (r : Word) : (setNZ r s).n = r.msb := rfl
@[simp] theorem setNZ_z (r : Word) : (setNZ r s).z = (r == 0#32) := rfl
@[simp] theorem addFlags_n (a b r : Word) : (addFlags a b r s).n = r.msb := rfl
@[simp] theorem addFlags_z (a b r : Word) : (addFlags a b r s).z = (r == 0#32) := rfl
@[simp] theorem addFlags_c (a b r : Word) : (addFlags a b r s).c = addCarry a b := rfl
@[simp] theorem addFlags_v (a b r : Word) : (addFlags a b r s).v = addOverflow a b r := rfl
@[simp] theorem subFlags_n (a b r : Word) : (subFlags a b r s).n = r.msb := rfl
@[simp] theorem subFlags_z (a b r : Word) : (subFlags a b r s).z = (r == 0#32) := rfl
@[simp] theorem subFlags_c (a b r : Word) : (subFlags a b r s).c = subCarry a b := rfl
@[simp] theorem subFlags_v (a b r : Word) : (subFlags a b r s).v = subOverflow a b r := rfl
@[simp] theorem beginStep_events : (beginStep s).events = [] := rfl
@[simp] theorem retire_imagesLoaded : (retire s).imagesLoaded = true := rfl
@[simp] theorem raiseUnknown_eq_emit (isa : Isa) (ia bits : Word) :
    raiseUnknown isa ia bits s = emit (.unknownInstruction isa ia bits) s := rfl

/-! What two states share. -/

variable {s t}

theorem SameBus.refl (s : State) : SameBus s s := ⟨rfl, rfl, rfl, rfl, rfl, rfl, rfl, rfl, rfl, rfl⟩

theorem SameBus.trans {u : State} (h : SameBus s t) (h' : SameBus t u) : SameBus s u :=
  ⟨h'.cfg.trans h.cfg, h'.boot.trans h.boot, h'.gram.trans h.gram, h'.sram.trans h.sram, h'.cart.trans h.cart,
    h'.iofb.trans h.iofb, h'.ie.trans h.ie, h'.ifr.trans h.ifr, h'.ime.trans h.ime,
    h'.imagesLoaded.trans h.imagesLoaded⟩

theorem SameStatus.refl (s : State) : SameStatus s s := ⟨rfl, rfl, rfl, rfl, rfl⟩

theorem SameStatus.trans {u : State} (h : SameStatus s t) (h' : SameStatus t u) : SameStatus s u :=
  ⟨h'.n.trans h.n, h'.z.trans h.z, h'.c.trans h.c, h'.v.trans h.v, h'.t.trans h.t⟩

/-- States that share the bus's storage read the same byte at every address. -/
theorem SameBus.peek (h : SameBus s t) (a : Word) : t.peek a = s.peek a := by
  simp only [State.peek, h.cfg]
  cases target s.cfg a <;>
    simp only [State.held, h.boot, h.gram, h.sram, h.cart, h.iofb, h.ie, h.ifr, h.ime]

theorem SameBus.setReg (s : State) (r : Reg) (v : Word) : SameBus s (s.setReg r v) :=
  ⟨rfl, rfl, rfl, rfl, rfl, rfl, rfl, rfl, rfl, rfl⟩

theorem SameStatus.setReg (s : State) (r : Reg) (v : Word) : SameStatus s (s.setReg r v) := ⟨rfl, rfl, rfl, rfl, rfl⟩

theorem SameBus.emit (e : Event) (s : State) : SameBus s (emit e s) :=
  ⟨rfl, rfl, rfl, rfl, rfl, rfl, rfl, rfl, rfl, rfl⟩

@[simp] theorem peek_setReg (s : State) (r : Reg) (v : Word) (a : Word) : (s.setReg r v).peek a = s.peek a := rfl
@[simp] theorem peek_emit (e : Event) (s : State) (a : Word) : (emit e s).peek a = s.peek a := rfl
@[simp] theorem peek_setNZ (r : Word) (s : State) (a : Word) : (setNZ r s).peek a = s.peek a := rfl
@[simp] theorem peek_addFlags (x y r : Word) (s : State) (a : Word) : (addFlags x y r s).peek a = s.peek a := rfl
@[simp] theorem peek_subFlags (x y r : Word) (s : State) (a : Word) : (subFlags x y r s).peek a = s.peek a := rfl
@[simp] theorem peek_beginStep (s : State) (a : Word) : (beginStep s).peek a = s.peek a := rfl
@[simp] theorem peek_retire (s : State) (a : Word) : (retire s).peek a = s.peek a := rfl

/-- The invariant speaks of the configuration and the five arrays alone. -/
theorem State.Inv.congr (h : s.Inv) (hc : t.cfg = s.cfg) (hb : t.boot = s.boot) (hg : t.gram = s.gram)
    (hs : t.sram = s.sram) (hk : t.cart = s.cart) (hi : t.iofb = s.iofb) : t.Inv := by
  simpa only [State.Inv, hc, hb, hg, hs, hk, hi] using h

theorem SameBus.inv (h : SameBus s t) (hi : s.Inv) : t.Inv :=
  hi.congr h.cfg h.boot h.gram h.sram h.cart h.iofb

end Sys2Proof.Machine
end

