-- ==== Sys2Proof/Laws/Memory.lean ====
section
/-! SUPPORT. The laws of the byte arrays: a read after a write, and that every operation keeps the canonical form. -/

namespace Sys2Proof.Machine

theorem Memory.read_write_ne (m : Memory) {a a' : Nat} (b : Byte) (h : a' ≠ a) :
    (m.write a b).read a' = m.read a' := by
  induction m with
  | nil => by_cases hb : b = 0#8 <;> simp [Memory.write, Memory.read, hb, h]
  | cons c m ih =>
    obtain ⟨k, v⟩ := c
    simp only [Memory.write]
    split
    · split <;> simp [Memory.read, h]
    · split
      · rename_i hk
        split <;> simp [Memory.read, h, ← hk]
      · simp [Memory.read, ih]

/-- An offset below every listed one reads 0. -/
theorem Memory.read_of_wfFrom {m : Memory} {lo a : Nat} (h : m.wfFrom lo = true) (ha : a < lo) : m.read a = 0#8 := by
  induction m generalizing lo with
  | nil => rfl
  | cons c m ih =>
    obtain ⟨k, v⟩ := c
    simp only [Memory.wfFrom, Bool.and_eq_true, decide_eq_true_eq] at h
    rw [Memory.read, if_neg (by omega)]
    exact ih h.2 (by omega)

theorem Memory.read_write_self_from {m : Memory} {lo : Nat} (h : m.wfFrom lo = true) (a : Nat) (b : Byte) :
    (m.write a b).read a = b := by
  induction m generalizing lo with
  | nil => by_cases hb : b = 0#8 <;> simp [Memory.write, Memory.read, hb]
  | cons c m ih =>
    obtain ⟨k, v⟩ := c
    have h' := h
    simp only [Memory.wfFrom, Bool.and_eq_true, decide_eq_true_eq] at h
    simp only [Memory.write]
    split
    · rename_i hak
      split
      · rename_i hb
        subst hb
        rw [Memory.read, if_neg (by omega)]
        exact Memory.read_of_wfFrom h.2 (by omega)
      · simp [Memory.read]
    · split
      · rename_i hk
        subst hk
        split
        · rename_i hb
          subst hb
          exact Memory.read_of_wfFrom h.2 (by omega)
        · simp [Memory.read]
      · rename_i h1 h2
        rw [Memory.read, if_neg h2]
        exact ih h.2

theorem Memory.read_write_self {m : Memory} (h : m.wf = true) (a : Nat) (b : Byte) : (m.write a b).read a = b :=
  Memory.read_write_self_from h a b

theorem Memory.wfFrom_mono {m : Memory} {lo lo' : Nat} (h : m.wfFrom lo' = true) (hle : lo ≤ lo') :
    m.wfFrom lo = true := by
  cases m with
  | nil => rfl
  | cons c m =>
    obtain ⟨k, v⟩ := c
    simp only [Memory.wfFrom, Bool.and_eq_true, decide_eq_true_eq] at h ⊢
    exact ⟨⟨by omega, h.1.2⟩, h.2⟩

theorem Memory.wfFrom_write {m : Memory} {lo : Nat} (h : m.wfFrom lo = true) {a : Nat} (ha : lo ≤ a) (b : Byte) :
    (m.write a b).wfFrom lo = true := by
  induction m generalizing lo with
  | nil => by_cases hb : b = 0#8 <;> simp [Memory.write, Memory.wfFrom, hb, ha]
  | cons c m ih =>
    obtain ⟨k, v⟩ := c
    have h' := h
    simp only [Memory.wfFrom, Bool.and_eq_true, decide_eq_true_eq] at h
    simp only [Memory.write]
    split
    · rename_i hak
      split
      · exact h'
      · rename_i hb
        simp only [Memory.wfFrom, Bool.and_eq_true, decide_eq_true_eq]
        exact ⟨⟨ha, by simpa using hb⟩, ⟨by omega, h.1.2⟩, h.2⟩
    · split
      · rename_i hk
        split
        · exact Memory.wfFrom_mono h.2 (by omega)
        · rename_i hb
          simp only [Memory.wfFrom, Bool.and_eq_true, decide_eq_true_eq]
          exact ⟨⟨ha, by simpa using hb⟩, by rw [hk]; exact h.2⟩
      · rename_i h1 h2
        simp only [Memory.wfFrom, Bool.and_eq_true, decide_eq_true_eq]
        exact ⟨h.1, ih h.2 (by omega)⟩

/-- Storing a byte keeps the canonical form. -/
theorem Memory.wf_write {m : Memory} (h : m.wf = true) (a : Nat) (b : Byte) : (m.write a b).wf = true :=
  Memory.wfFrom_write h (Nat.zero_le a) b

theorem Memory.below_write {m : Memory} {size a : Nat} (h : m.below size = true) (ha : a < size) (b : Byte) :
    (m.write a b).below size = true := by
  simp only [Memory.below, List.all_eq_true, decide_eq_true_eq] at h ⊢
  induction m with
  | nil =>
    intro c hc
    simp only [Memory.write] at hc
    split at hc
    · simp at hc
    · simp only [List.mem_singleton] at hc
      rw [hc]; exact ha
  | cons d m ih =>
    obtain ⟨k, v⟩ := d
    have hk : k < size := h (k, v) (by simp)
    have hm : ∀ c ∈ m, c.1 < size := fun c hc => h c (by simp [hc])
    intro c hc
    simp only [Memory.write] at hc
    split at hc
    · split at hc
      · exact h c hc
      · rcases List.mem_cons.1 hc with rfl | hc
        · exact ha
        · exact h c hc
    · split at hc
      · split at hc
        · exact hm c hc
        · rcases List.mem_cons.1 hc with rfl | hc
          · exact ha
          · exact hm c hc
      · rcases List.mem_cons.1 hc with rfl | hc
        · exact hk
        · exact ih hm c hc

/-- Storing a byte inside an array keeps it an array of its size. -/
theorem storeOk_write {size : Nat} {m : Memory} (h : storeOk size m = true) {a : Nat} (ha : a < size) (b : Byte) :
    storeOk size (m.write a b) = true := by
  simp only [storeOk, Bool.and_eq_true] at h ⊢
  exact ⟨Memory.wf_write h.1 a b, Memory.below_write h.2 ha b⟩

theorem Memory.wfFrom_ofBytes (lo : Nat) (bytes : List Byte) : (Memory.ofBytes lo bytes).wfFrom lo = true := by
  induction bytes generalizing lo with
  | nil => rfl
  | cons b bs ih =>
    simp only [Memory.ofBytes]
    split
    · exact Memory.wfFrom_mono (ih (lo + 1)) (by omega)
    · rename_i hb
      simp only [Memory.wfFrom, Bool.and_eq_true, decide_eq_true_eq]
      exact ⟨⟨le_refl lo, by simpa using hb⟩, ih (lo + 1)⟩

/-- A loaded image is canonical. -/
theorem Memory.wf_ofBytes (bytes : List Byte) : (Memory.ofBytes 0 bytes).wf = true :=
  Memory.wfFrom_ofBytes 0 bytes

theorem Memory.below_ofBytes (lo : Nat) (bytes : List Byte) {size : Nat} (h : lo + bytes.length ≤ size) :
    (Memory.ofBytes lo bytes).below size = true := by
  induction bytes generalizing lo with
  | nil => rfl
  | cons b bs ih =>
    simp only [List.length_cons] at h
    have ih := ih (lo + 1) (by omega)
    simp only [Memory.ofBytes]
    split
    · exact ih
    · simp only [Memory.below, List.all_cons, Bool.and_eq_true, decide_eq_true_eq] at ih ⊢
      exact ⟨by omega, ih⟩

theorem Memory.read_ofBytes (lo : Nat) (bytes : List Byte) (a : Nat) :
    (Memory.ofBytes lo bytes).read a = if lo ≤ a then bytes.getD (a - lo) 0#8 else 0#8 := by
  induction bytes generalizing lo with
  | nil => simp [Memory.ofBytes, Memory.read]
  | cons b bs ih =>
    simp only [Memory.ofBytes]
    split
    · rename_i hb
      rw [ih]
      rcases Nat.lt_trichotomy a lo with h | h | h
      · rw [if_neg (by omega), if_neg (by omega)]
      · subst h; simp [hb]
      · rw [if_pos (by omega), if_pos (by omega), show a - lo = (a - (lo + 1)) + 1 by omega]
        simp
    · rw [Memory.read]
      split
      · rename_i h; subst h; simp
      · rw [ih]
        rcases Nat.lt_or_ge a lo with h | h
        · rw [if_neg (by omega), if_neg (by omega)]
        · rw [if_pos (by omega), if_pos h, show a - lo = (a - (lo + 1)) + 1 by omega]
          simp

/-- Canonical arrays that read the same everywhere are equal. -/
theorem Memory.ext_of_wfFrom {m m' : Memory} {lo : Nat} (h : m.wfFrom lo = true) (h' : m'.wfFrom lo = true)
    (heq : ∀ a, m.read a = m'.read a) : m = m' := by
  induction m generalizing m' lo with
  | nil =>
    cases m' with
    | nil => rfl
    | cons c m' =>
      obtain ⟨k, v⟩ := c
      simp only [Memory.wfFrom, Bool.and_eq_true] at h'
      have := heq k
      simp only [Memory.read, if_true] at this
      simp [← this] at h'
  | cons c m ih =>
    obtain ⟨k, v⟩ := c
    simp only [Memory.wfFrom, Bool.and_eq_true, decide_eq_true_eq, bne_iff_ne, ne_eq] at h
    cases m' with
    | nil =>
      have := heq k
      simp only [Memory.read, if_true] at this
      exact absurd this h.1.2
    | cons c' m' =>
      obtain ⟨k', v'⟩ := c'
      simp only [Memory.wfFrom, Bool.and_eq_true, decide_eq_true_eq, bne_iff_ne, ne_eq] at h'
      have hk : k = k' := by
        rcases Nat.lt_trichotomy k k' with hlt | he | hlt
        · have := heq k
          rw [Memory.read, if_pos rfl, Memory.read, if_neg (by omega),
            Memory.read_of_wfFrom h'.2 (by omega)] at this
          exact absurd this h.1.2
        · exact he
        · have := heq k'
          rw [Memory.read, if_neg (by omega), Memory.read_of_wfFrom h.2 (by omega), Memory.read, if_pos rfl] at this
          exact absurd this.symm h'.1.2
      subst hk
      have hv : v = v' := by simpa [Memory.read] using heq k
      subst hv
      have : m = m' := ih h.2 h'.2 fun a => by
        rcases Nat.lt_or_ge a (k + 1) with ha | ha
        · rw [Memory.read_of_wfFrom h.2 ha, Memory.read_of_wfFrom h'.2 ha]
        · have := heq a
          rwa [Memory.read, if_neg (by omega), Memory.read, if_neg (by omega)] at this
      rw [this]

end Sys2Proof.Machine
end

