-- ==== Sys2Proof/Laws/Bus.lean ====
section
/-! SUPPORT. The laws of the bus: what an address reaches, and for each shared operation one lemma that says everything
it can do. -/

namespace Sys2Proof.Machine

/-! What an address reaches. -/

/-- What the target of an address says about the address: it is the base of the array or register reached, plus the
offset or lane, which lies inside (20_memory.md R41, R56). -/
def Target.At (c : Cfg) (a : Word) : Target → Prop
  | .boot o => a.toNat = c.boot.base + o ∧ o < c.boot.size
  | .gram o => a.toNat = c.gram.base + o ∧ o < c.gram.size
  | .sram o => a.toNat = c.sram.base + o ∧ o < c.sram.size
  | .cart o => a.toNat = c.cart.base + o ∧ o < c.cart.size
  | .ie l => a.toNat = c.io.base + c.ieOff + l ∧ l < 4
  | .ifr l => a.toNat = c.io.base + c.ifOff + l ∧ l < 4
  | .ime l => a.toNat = c.io.base + c.imeOff + l ∧ l < 4
  | .timer ch h l => h = halfOf a ∧ l = laneOf a ∧ c.io.base + c.tmrOff + 4 * ch ≤ a.toNat
      ∧ a.toNat < c.io.base + c.tmrOff + 4 * ch + 4
  | .iofb o => a.toNat = c.io.base + o ∧ o < c.io.size
  | .unmapped => resolve c a = none

theorem inRegion_iff {r : Region} {a : Word} :
    inRegion r a = true ↔ r.base ≤ a.toNat ∧ a.toNat - r.base < r.size := by
  simp [inRegion]

theorem inRegion_of_resolve {c : Cfg} {a : Word} {k : RegionKind} (h : resolve c a = some k) :
    inRegion (match k with
      | .boot => c.boot | .gram => c.gram | .sram => c.sram | .cart => c.cart | .io => c.io) a = true := by
  unfold resolve at h
  split_ifs at h <;> cases h <;> assumption

theorem target_at (c : Cfg) (a : Word) : (target c a).At c a := by
  unfold target
  rcases hres : resolve c a with _ | k
  · exact hres
  · have h := inRegion_iff.1 (inRegion_of_resolve hres)
    cases k with
    | io =>
      dsimp only at h ⊢
      unfold ioTarget
      split_ifs <;> simp only [Target.At] <;> first | omega | exact ⟨trivial, trivial, by omega, by omega⟩
    | _ => dsimp only [Target.At] at h ⊢; omega

/-- Does the target hold a byte of the CORE's own: an array or a register, not the timer range and not unmapped? -/
def Target.holds : Target → Bool
  | .timer _ _ _ | .unmapped => false
  | _ => true

/-- Two addresses that reach the same byte of the CORE are the same address. -/
theorem target_injective {c : Cfg} {a a' : Word} (h : target c a = target c a')
    (hs : (target c a).holds = true) : a = a' := by
  have h1 := target_at c a
  have h2 := target_at c a'
  rw [← h] at h2
  apply BitVec.eq_of_toNat_eq
  generalize target c a = T at h1 h2 hs
  cases T <;> simp only [Target.At, Target.holds, Bool.false_eq_true] at h1 h2 hs <;> omega

/-! The addresses and bytes of an access. -/

theorem mem_byteAddrs {addr : Word} {n : Nat} {a : Word} :
    a ∈ byteAddrs addr n ↔ ∃ k < n, a = addr + BitVec.ofNat 32 k := by
  induction n generalizing addr with
  | zero => simp [byteAddrs]
  | succ n ih =>
    rw [byteAddrs, List.mem_cons, ih]
    constructor
    · rintro (rfl | ⟨k, hk, rfl⟩)
      · exact ⟨0, by omega, by simp⟩
      · exact ⟨k + 1, by omega, by rw [Nat.add_comm k 1, BitVec.ofNat_add, BitVec.add_assoc]⟩
    · rintro ⟨k, hk, rfl⟩
      cases k with
      | zero => left; simp
      | succ k => exact .inr ⟨k, by omega, by rw [Nat.add_comm k 1, BitVec.ofNat_add, BitVec.add_assoc]⟩

/-- The addresses of an access of at most 2^32 bytes are different. -/
theorem byteAddrs_nodup (addr : Word) {n : Nat} (hn : n ≤ 2 ^ 32) : (byteAddrs addr n).Nodup := by
  induction n generalizing addr with
  | zero => simp [byteAddrs]
  | succ n ih =>
    rw [byteAddrs, List.nodup_cons]
    refine ⟨?_, ih _ (by omega)⟩
    rw [mem_byteAddrs]
    rintro ⟨k, hk, h⟩
    have := congrArg BitVec.toNat h
    simp only [BitVec.toNat_add, BitVec.toNat_ofNat] at this
    have := addr.isLt
    omega

@[simp] theorem byteAddrs_length (addr : Word) (n : Nat) : (byteAddrs addr n).length = n := by
  induction n generalizing addr with
  | zero => rfl
  | succ n ih => simp [byteAddrs, ih]

@[simp] theorem bytesFrom_length (v : Word) (k n : Nat) : (bytesFrom v k n).length = n := by
  induction n generalizing k with
  | zero => rfl
  | succ n ih => simp [bytesFrom, ih]

/-! Reads. -/

/-- Everything a read can do to the state: append events and draw timer answers. -/
def Drew (s t : State) : Prop := ∃ es k, t = { s with events := s.events ++ es, timerDraws := k }

theorem Drew.refl (s : State) : Drew s s := ⟨[], s.timerDraws, by simp⟩

theorem Drew.trans {s t u : State} (h : Drew s t) (h' : Drew t u) : Drew s u := by
  obtain ⟨es, k, rfl⟩ := h
  obtain ⟨es', k', rfl⟩ := h'
  exact ⟨es ++ es', k', by simp [List.append_assoc]⟩

theorem Drew.emit (e : Event) (s : State) : Drew s (emit e s) := ⟨[e], s.timerDraws, rfl⟩

theorem Drew.sameBus {s t : State} (h : Drew s t) : SameBus s t := by
  obtain ⟨es, k, rfl⟩ := h
  exact ⟨rfl, rfl, rfl, rfl, rfl, rfl, rfl, rfl, rfl, rfl⟩

theorem Drew.sameStatus {s t : State} (h : Drew s t) : SameStatus s t := by
  obtain ⟨es, k, rfl⟩ := h
  exact ⟨rfl, rfl, rfl, rfl, rfl⟩

theorem Drew.reg {s t : State} (h : Drew s t) (r : Reg) : t.reg r = s.reg r := by
  obtain ⟨es, k, rfl⟩ := h
  rfl

theorem drew_drawTimer (key : TimerKey) (s : State) : Drew s (drawTimer key s).2 :=
  ⟨_, s.timerDraws + 1, rfl⟩

theorem drew_readByte (a : Word) (asked : List (TimerKey × Half)) (s : State) :
    Drew s (readByte a asked s).2.2 := by
  unfold readByte
  split
  · split
    · exact Drew.refl s
    · exact drew_drawTimer _ s
  · exact Drew.refl s

theorem drew_readBytes (as : List Word) (asked : List (TimerKey × Half)) (s : State) :
    Drew s (readBytes as asked s).2 := by
  induction as generalizing asked s with
  | nil => exact Drew.refl s
  | cons a as ih => exact (drew_readByte a asked s).trans (ih _ _)

theorem drew_noteUnmapped (kind : AccessKind) (addr : Word) (n : Width) (s : State) :
    Drew s (noteUnmapped kind addr n s) := by
  unfold noteUnmapped
  split
  · exact Drew.emit _ s
  · exact Drew.refl s

/-- Everything a bus read can do to the state. -/
theorem drew_readN (kind : AccessKind) (addr : Word) (n : Width) (s : State) : Drew s (readN kind addr n s).2 :=
  (drew_readBytes _ _ s).trans (drew_noteUnmapped kind addr n _)

/-- A byte outside the timer range is read as it stands, with no effect. -/
theorem readByte_of_not_timer {a : Word} {s : State} (h : isTimer s.cfg a = false)
    (asked : List (TimerKey × Half)) : readByte a asked s = ((s.peek a).getD 0#8, asked, s) := by
  cases ht : target s.cfg a <;> simp_all [readByte, isTimer]

theorem readBytes_of_not_timer {as : List Word} {s : State} (h : ∀ a ∈ as, isTimer s.cfg a = false)
    (asked : List (TimerKey × Half)) :
    readBytes as asked s = (as.map fun a => (s.peek a).getD 0#8, s) := by
  induction as generalizing asked with
  | nil => rfl
  | cons a as ih =>
    simp only [readBytes, readByte_of_not_timer (h a (by simp)), ih (fun a' ha => h a' (by simp [ha])), List.map_cons]

/-- A read outside the timer range: the bytes as they stand, and the InvalidAddress event if there is one. -/
theorem readN_of_not_timer {addr : Word} {n : Width} {s : State}
    (h : ∀ a ∈ byteAddrs addr n.bytes, isTimer s.cfg a = false) (kind : AccessKind) :
    readN kind addr n s
      = (wordOfBytes ((byteAddrs addr n.bytes).map fun a => (s.peek a).getD 0#8), noteUnmapped kind addr n s) := by
  simp only [readN, readBytes_of_not_timer h]

/-! The value of a byte list, little-endian (20_memory.md R45). -/

theorem getLsbD_wordOfBytes (bs : List Byte) (i : Nat) (hi : i < 32) :
    (wordOfBytes bs).getLsbD i = (bs.getD (i / 8) 0#8).getLsbD (i % 8) := by
  induction bs generalizing i with
  | nil => simp [wordOfBytes]
  | cons b bs ih =>
    simp only [wordOfBytes, BitVec.getLsbD_or, BitVec.getLsbD_shiftLeft, hi, decide_true, Bool.true_and,
      BitVec.zeroExtend_eq_setWidth, BitVec.getLsbD_setWidth]
    by_cases h : i < 8
    · simp [h, Nat.div_eq_of_lt h, Nat.mod_eq_of_lt h]
    · rw [ih _ (by omega), show i / 8 = (i - 8) / 8 + 1 by omega, show i % 8 = (i - 8) % 8 by omega]
      simp [h, BitVec.getLsbD_of_ge b i (by omega)]

theorem wordOfBytes_byte (x : Byte) : wordOfBytes [x] = x.zeroExtend 32 := by
  simp [wordOfBytes]

theorem wordOfBytes_half (x y : Byte) : wordOfBytes [x, y] = (y ++ x).zeroExtend 32 := by
  apply BitVec.eq_of_getLsbD_eq
  intro i hi
  rw [getLsbD_wordOfBytes _ _ hi]
  by_cases h : i < 16
  · simp only [BitVec.zeroExtend_eq_setWidth, BitVec.getLsbD_setWidth, BitVec.getLsbD_append]
    interval_cases i <;> rfl
  · rw [List.getD_eq_default _ _ (by simp; omega)]
    simp only [BitVec.zeroExtend_eq_setWidth, BitVec.getLsbD_setWidth]
    rw [BitVec.getLsbD_of_ge (y ++ x) i (by omega)]
    simp

theorem wordOfBytes_word (x y z w : Byte) : wordOfBytes [x, y, z, w] = w ++ z ++ y ++ x := by
  apply BitVec.eq_of_getLsbD_eq
  intro i hi
  rw [getLsbD_wordOfBytes _ _ hi]
  simp only [BitVec.getLsbD_append]
  have hi := hi
  interval_cases i <;> rfl

/-! Writes. -/

/-- Everything a write can do to the state: change the writable arrays and the three interrupt registers, and append
events. -/
def Wrote (s t : State) : Prop :=
  ∃ g sr i e f m es,
    t = { s with gram := g, sram := sr, iofb := i, ie := e, ifr := f, ime := m, events := s.events ++ es }

theorem Wrote.refl (s : State) : Wrote s s := ⟨s.gram, s.sram, s.iofb, s.ie, s.ifr, s.ime, [], by simp⟩

theorem Wrote.trans {s t u : State} (h : Wrote s t) (h' : Wrote t u) : Wrote s u := by
  obtain ⟨g, sr, i, e, f, m, es, rfl⟩ := h
  obtain ⟨g', sr', i', e', f', m', es', rfl⟩ := h'
  exact ⟨g', sr', i', e', f', m', es ++ es', by simp [List.append_assoc]⟩

theorem Wrote.emit (e : Event) (s : State) : Wrote s (emit e s) :=
  ⟨s.gram, s.sram, s.iofb, s.ie, s.ifr, s.ime, [e], rfl⟩

/-- What a write leaves alone. -/
theorem Wrote.frame {s t : State} (h : Wrote s t) :
    t.cfg = s.cfg ∧ t.boot = s.boot ∧ t.cart = s.cart ∧ t.imagesLoaded = s.imagesLoaded ∧ SameStatus s t
      ∧ t.timerDraws = s.timerDraws ∧ ∀ r, t.reg r = s.reg r := by
  obtain ⟨g, sr, i, e, f, m, es, rfl⟩ := h
  exact ⟨rfl, rfl, rfl, rfl, ⟨rfl, rfl, rfl, rfl, rfl⟩, rfl, fun _ => rfl⟩

theorem wrote_storeAt (T : Target) (b : Byte) (s : State) : Wrote s (storeAt T b s) := by
  refine ⟨(storeAt T b s).gram, (storeAt T b s).sram, (storeAt T b s).iofb, (storeAt T b s).ie, (storeAt T b s).ifr,
    (storeAt T b s).ime, [], ?_⟩
  cases T <;> simp only [storeAt, List.append_nil]

theorem wrote_writeByte (a : Word) (b : Byte) (s : State) : Wrote s (writeByte a b s) := wrote_storeAt _ b s

theorem wrote_writeBytes (bs : List (Word × Byte)) (s : State) : Wrote s (writeBytes bs s) := by
  induction bs generalizing s with
  | nil => exact Wrote.refl s
  | cons p bs ih => exact (wrote_writeByte p.1 p.2 s).trans (ih _)

theorem wrote_sendGroups (gs : List TimerGroup) (s : State) : Wrote s (sendGroups gs s) := by
  induction gs generalizing s with
  | nil => exact Wrote.refl s
  | cons g gs ih => exact (Wrote.emit _ s).trans (ih _)

theorem wrote_noteUnmapped (kind : AccessKind) (addr : Word) (n : Width) (s : State) :
    Wrote s (noteUnmapped kind addr n s) := by
  unfold noteUnmapped
  split
  · exact Wrote.emit _ s
  · exact Wrote.refl s

theorem wrote_noteReadOnly (kind : AccessKind) (addr : Word) (n : Width) (s : State) :
    Wrote s (noteReadOnly kind addr n s) := by
  unfold noteReadOnly
  split
  · exact Wrote.emit _ s
  · exact Wrote.refl s

/-- Everything a bus write can do to the state. -/
theorem wrote_writeN (kind : AccessKind) (addr : Word) (n : Width) (v : Word) (s : State) :
    Wrote s (writeN kind addr n v s) :=
  (((wrote_writeBytes _ s).trans (wrote_sendGroups _ _)).trans (wrote_noteUnmapped _ _ _ _)).trans
    (wrote_noteReadOnly _ _ _ _)

theorem sameBus_sendGroups (gs : List TimerGroup) (s : State) : SameBus s (sendGroups gs s) := by
  induction gs generalizing s with
  | nil => exact SameBus.refl s
  | cons g gs ih => exact (SameBus.emit _ s).trans (ih _)

theorem sameBus_noteReadOnly (kind : AccessKind) (addr : Word) (n : Width) (s : State) :
    SameBus s (noteReadOnly kind addr n s) := by
  unfold noteReadOnly
  split
  · exact SameBus.emit _ s
  · exact SameBus.refl s

/-- The storage after a write access is that after its bytes. -/
theorem sameBus_writeN (kind : AccessKind) (addr : Word) (n : Width) (v : Word) (s : State) :
    SameBus (writeBytes ((byteAddrs addr n.bytes).zip (bytesFrom v 0 n.bytes)) s) (writeN kind addr n v s) :=
  ((sameBus_sendGroups _ _).trans (drew_noteUnmapped kind addr n _).sameBus).trans (sameBus_noteReadOnly _ _ _ _)

/-- Outside the timer range a write has no timer group. -/
theorem timerGroups_of_not_timer {c : Cfg} {bs : List (Word × Byte)} (h : ∀ p ∈ bs, isTimer c p.1 = false)
    (gs : List TimerGroup) : timerGroups c bs gs = gs := by
  induction bs with
  | nil => rfl
  | cons p bs ih =>
    obtain ⟨a, b⟩ := p
    have ha := h (a, b) (by simp)
    simp only [isTimer] at ha
    rw [timerGroups]
    split
    · simp_all
    · exact ih fun p hp => h p (by simp [hp])

/-- A byte store emits nothing. -/
@[simp] theorem storeAt_events (T : Target) (b : Byte) (s : State) : (storeAt T b s).events = s.events := by
  cases T <;> rfl

@[simp] theorem writeBytes_events (bs : List (Word × Byte)) (s : State) : (writeBytes bs s).events = s.events := by
  induction bs generalizing s with
  | nil => rfl
  | cons p bs ih => rw [writeBytes, ih, writeByte, storeAt_events]

/-- A write outside the timer range: its bytes, then the InvalidAddress event if there is one, then the
ReadOnlyViolation event if there is one. -/
theorem writeN_of_not_timer {addr : Word} {n : Width} {s : State}
    (h : ∀ a ∈ byteAddrs addr n.bytes, isTimer s.cfg a = false) (kind : AccessKind) (v : Word) :
    writeN kind addr n v s = noteReadOnly kind addr n (noteUnmapped kind addr n
      (writeBytes ((byteAddrs addr n.bytes).zip (bytesFrom v 0 n.bytes)) s)) := by
  simp only [writeN]
  rw [timerGroups_of_not_timer fun p hp => h p.1 (List.of_mem_zip (a := p.1) (b := p.2) hp).1]
  rfl

/-! Lanes of a register. -/

theorem getLsbD_setLane (w : Word) (l : Nat) (b : Byte) (i : Nat) (hi : i < 32) :
    (setLane w l b).getLsbD i = if 8 * l ≤ i ∧ i < 8 * l + 8 then b.getLsbD (i - 8 * l) else w.getLsbD i := by
  have hff : ∀ j, (0xFF#32).getLsbD j = decide (j < 8) := by
    intro j
    by_cases hj : j < 32
    · interval_cases j <;> rfl
    · rw [BitVec.getLsbD_of_ge _ _ (by omega)]; simp; omega
  simp only [setLane, BitVec.getLsbD_or, BitVec.getLsbD_and, BitVec.getLsbD_not, BitVec.getLsbD_shiftLeft,
    BitVec.getLsbD_setWidth, hff, hi, decide_true, Bool.true_and, BitVec.zeroExtend_eq_setWidth]
  by_cases h1 : i < 8 * l
  · rw [if_neg (by omega)]; simp [h1]
  · by_cases h2 : i < 8 * l + 8
    · rw [if_pos (by omega)]
      simp [h1, show i - 8 * l < 8 by omega, show i - 8 * l < 32 by omega]
    · rw [if_neg (by omega)]
      simp [h1, show ¬ (i - 8 * l < 8) by omega, BitVec.getLsbD_of_ge b (i - 8 * l) (by omega)]

theorem getLsbD_clearLane (w : Word) (l : Nat) (b : Byte) (i : Nat) (hi : i < 32) :
    (clearLane w l b).getLsbD i
      = (w.getLsbD i && !(decide (8 * l ≤ i ∧ i < 8 * l + 8) && b.getLsbD (i - 8 * l))) := by
  simp only [clearLane, BitVec.getLsbD_and, BitVec.getLsbD_not, BitVec.getLsbD_shiftLeft,
    BitVec.getLsbD_setWidth, hi, decide_true, Bool.true_and, BitVec.zeroExtend_eq_setWidth]
  by_cases h1 : i < 8 * l
  · simp [h1]
  · by_cases h2 : i < 8 * l + 8
    · simp [h1, h2, show i - 8 * l < 32 by omega, show 8 * l ≤ i by omega]
    · simp [h1, h2, BitVec.getLsbD_of_ge b (i - 8 * l) (by omega)]

theorem byteOf_setLane_self (w : Word) {l : Nat} (hl : l < 4) (b : Byte) : byteOf (setLane w l b) l = b := by
  apply BitVec.eq_of_getLsbD_eq
  intro i hi
  simp only [byteOf, BitVec.getLsbD_extractLsb', hi, decide_true, Bool.true_and]
  rw [getLsbD_setLane _ _ _ _ (by omega), if_pos (by omega)]
  congr 1; omega

theorem byteOf_setLane_ne (w : Word) {l k : Nat} (hk : k < 4) (h : k ≠ l) (b : Byte) :
    byteOf (setLane w l b) k = byteOf w k := by
  apply BitVec.eq_of_getLsbD_eq
  intro i hi
  simp only [byteOf, BitVec.getLsbD_extractLsb', hi, decide_true, Bool.true_and]
  rw [getLsbD_setLane _ _ _ _ (by omega), if_neg (by omega)]

theorem byteOf_clearLane_self (w : Word) {l : Nat} (hl : l < 4) (b : Byte) :
    byteOf (clearLane w l b) l = byteOf w l &&& ~~~b := by
  apply BitVec.eq_of_getLsbD_eq
  intro i hi
  simp only [byteOf, BitVec.getLsbD_extractLsb', BitVec.getLsbD_and, BitVec.getLsbD_not, hi, decide_true, Bool.true_and]
  rw [getLsbD_clearLane _ _ _ _ (by omega)]
  simp [show 8 * l + i - 8 * l = i by omega, hi]

theorem byteOf_clearLane_ne (w : Word) {l k : Nat} (hk : k < 4) (h : k ≠ l) (b : Byte) :
    byteOf (clearLane w l b) k = byteOf w k := by
  apply BitVec.eq_of_getLsbD_eq
  intro i hi
  simp only [byteOf, BitVec.getLsbD_extractLsb', hi, decide_true, Bool.true_and]
  rw [getLsbD_clearLane _ _ _ _ (by omega)]
  simp [show ¬ (8 * l ≤ 8 * k + i ∧ 8 * k + i < 8 * l + 8) by omega]

/-! One byte written, and every byte read. -/

@[simp] theorem writeByte_cfg (a : Word) (b : Byte) (s : State) : (writeByte a b s).cfg = s.cfg :=
  (wrote_writeByte a b s).frame.1

@[simp] theorem writeBytes_cfg (bs : List (Word × Byte)) (s : State) : (writeBytes bs s).cfg = s.cfg :=
  (wrote_writeBytes bs s).frame.1

@[simp] theorem storeAt_cfg (T : Target) (b : Byte) (s : State) : (storeAt T b s).cfg = s.cfg :=
  (wrote_storeAt T b s).frame.1

/-- The bytes that are read-only are those of BOOT and CART (20_memory.md R40). -/
theorem isReadOnly_iff {c : Cfg} {a : Word} :
    isReadOnly c a = true ↔ resolve c a = some .boot ∨ resolve c a = some .cart := by
  unfold isReadOnly target
  rcases h : resolve c a with _ | k
  · simp
  · cases k <;> simp
    unfold ioTarget
    split_ifs <;> simp

/-- A write that meets no timer byte, no unmapped byte and no read-only byte is its byte stores and nothing more. -/
theorem writeN_of_clean {addr : Word} {n : Width} {s : State}
    (h : ∀ a ∈ byteAddrs addr n.bytes,
      isTimer s.cfg a = false ∧ isUnmapped s.cfg a = false ∧ isReadOnly s.cfg a = false)
    (kind : AccessKind) (v : Word) :
    writeN kind addr n v s = writeBytes ((byteAddrs addr n.bytes).zip (bytesFrom v 0 n.bytes)) s := by
  rw [writeN_of_not_timer fun a ha => (h a ha).1]
  unfold noteReadOnly noteUnmapped
  rw [if_neg, if_neg]
  · simp only [writeBytes_cfg, List.any_eq_true, not_exists, not_and, Bool.not_eq_true]
    exact fun a ha => (h a ha).2.1
  · simp only [List.any_eq_true, not_exists, not_and, Bool.not_eq_true]
    intro a ha
    have hc : ∀ t : State, t.cfg = s.cfg → isReadOnly t.cfg a = false := fun t ht => ht ▸ (h a ha).2.2
    apply hc
    split
    · rw [emit_cfg, writeBytes_cfg]
    · rw [writeBytes_cfg]

/-- A byte store leaves every other byte as it reads. -/
theorem peek_writeByte_ne {a a' : Word} (h : a' ≠ a) (b : Byte) (s : State) :
    (writeByte a b s).peek a' = s.peek a' := by
  have hne : (target s.cfg a').holds = true → target s.cfg a' ≠ target s.cfg a := fun hh he =>
    h (target_injective he hh)
  have hat' := target_at s.cfg a'
  simp only [State.peek, writeByte, storeAt_cfg]
  generalize target s.cfg a = T at hne
  generalize target s.cfg a' = T' at hne hat'
  cases T <;> cases T' <;> simp only [storeAt, State.held, Target.holds, Target.At, ne_eq, forall_const,
    Target.gram.injEq, Target.sram.injEq, Target.iofb.injEq, Target.ie.injEq, Target.ifr.injEq,
    Target.ime.injEq] at hne hat' ⊢
  · rw [Memory.read_write_ne _ _ hne]
  · rw [Memory.read_write_ne _ _ hne]
  · rw [byteOf_setLane_ne _ hat'.2 hne]
  · rw [byteOf_clearLane_ne _ hat'.2 hne]
  · rw [byteOf_setLane_ne _ hat'.2 hne]
  · rw [Memory.read_write_ne _ _ hne]

/-- What a byte that read as `old` reads as after the byte `b` is stored to its target (R52, R57, R58, R60). -/
def Target.after (T : Target) (old : Option Byte) (b : Byte) : Option Byte :=
  match T with
  | .gram _ | .sram _ | .iofb _ | .ie _ | .ime _ => some b
  | .ifr _ => old.map fun o => o &&& ~~~b
  | .boot _ | .cart _ | .unmapped => old
  | .timer _ _ _ => none

theorem peek_writeByte_self {s : State} (hi : s.Inv) (a : Word) (b : Byte) :
    (writeByte a b s).peek a = (target s.cfg a).after (s.peek a) b := by
  obtain ⟨-, -, hg, hs, -, hio⟩ := hi
  simp only [storeOk, Bool.and_eq_true] at hg hs hio
  have hat := target_at s.cfg a
  simp only [State.peek, writeByte, storeAt_cfg]
  generalize target s.cfg a = T at hat
  cases T <;> simp only [storeAt, State.held, Target.after, Target.At, Option.map_some] at hat ⊢
  · rw [Memory.read_write_self hg.1]
  · rw [Memory.read_write_self hs.1]
  · rw [byteOf_setLane_self _ hat.2]
  · rw [byteOf_clearLane_self _ hat.2]
  · rw [byteOf_setLane_self _ hat.2]
  · rw [Memory.read_write_self hio.1]

/-- A byte store keeps the invariant: the offset an address reaches lies inside its array. -/
theorem inv_writeByte {s : State} (hi : s.Inv) (a : Word) (b : Byte) : (writeByte a b s).Inv := by
  have hat := target_at s.cfg a
  obtain ⟨hc, hb, hg, hs, hk, hio⟩ := hi
  unfold writeByte
  generalize target s.cfg a = T at hat
  cases T with
  | gram o => exact ⟨hc, hb, storeOk_write hg hat.2 b, hs, hk, hio⟩
  | sram o => exact ⟨hc, hb, hg, storeOk_write hs hat.2 b, hk, hio⟩
  | iofb o => exact ⟨hc, hb, hg, hs, hk, storeOk_write hio hat.2 b⟩
  | _ => exact ⟨hc, hb, hg, hs, hk, hio⟩

theorem inv_writeBytes {s : State} (hi : s.Inv) (bs : List (Word × Byte)) : (writeBytes bs s).Inv := by
  induction bs generalizing s with
  | nil => exact hi
  | cons p bs ih => exact ih (inv_writeByte hi p.1 p.2)

/-- A bus write keeps the invariant. -/
theorem inv_writeN {s : State} (hi : s.Inv) (kind : AccessKind) (addr : Word) (n : Width) (v : Word) :
    (writeN kind addr n v s).Inv :=
  (sameBus_writeN kind addr n v s).inv (inv_writeBytes hi _)

/-- A bus read keeps the invariant. -/
theorem inv_readN {s : State} (hi : s.Inv) (kind : AccessKind) (addr : Word) (n : Width) :
    (readN kind addr n s).2.Inv :=
  (drew_readN kind addr n s).sameBus.inv hi

/-- A list of byte stores leaves every other byte as it reads. -/
theorem peek_writeBytes_of_not_mem {bs : List (Word × Byte)} {a : Word} (h : ∀ b, (a, b) ∉ bs) (s : State) :
    (writeBytes bs s).peek a = s.peek a := by
  induction bs generalizing s with
  | nil => rfl
  | cons p bs ih =>
    obtain ⟨a', b'⟩ := p
    rw [writeBytes, ih (fun b hb => h b (by simp [hb]))]
    exact peek_writeByte_ne (fun he => h b' (by simp [he])) b' s

/-- A byte of a list of stores to different addresses reads as after its one store. -/
theorem peek_writeBytes_of_mem {bs : List (Word × Byte)} (hnd : (bs.map Prod.fst).Nodup) {a : Word} {b : Byte}
    (hm : (a, b) ∈ bs) {s : State} (hi : s.Inv) :
    (writeBytes bs s).peek a = (target s.cfg a).after (s.peek a) b := by
  induction bs generalizing s with
  | nil => simp at hm
  | cons p bs ih =>
    obtain ⟨a', b'⟩ := p
    simp only [List.map_cons, List.nodup_cons, List.mem_map, Prod.exists, exists_and_right, exists_eq_right,
      not_exists] at hnd
    rw [writeBytes]
    rcases List.mem_cons.1 hm with he | hm'
    · cases he
      rw [peek_writeBytes_of_not_mem hnd.1, peek_writeByte_self hi]
    · have hne : a ≠ a' := fun he => hnd.1 b (he ▸ hm')
      rw [ih hnd.2 hm' (inv_writeByte hi a' b'), peek_writeByte_ne hne, writeByte_cfg]

end Sys2Proof.Machine
end

