-- ==== Sys2Proof/Laws/Codec.lean ====
section
/-! SUPPORT. Small laws of the fields of an instruction word. -/

namespace Sys2Proof

@[simp] theorem condOfBits_bits (c : Cond) : condOfBits c.bits = c := by cases c <;> rfl

@[simp] theorem bits_condOfBits (v : BitVec 4) : (condOfBits v).bits = v := by
  revert v; decide

/-- Four bytes at rising addresses are one ARM word, and two are one Thumb halfword, least significant byte first
(20_memory.md R46); the bytes after them are left over. -/
theorem decodeBytes_bytes (c : Code) (rest : List Byte) :
    decodeBytes c.isThumb (c.bytes ++ rest) = .ok (decode c, rest) := by
  cases c with
  | arm w =>
    have h : w.extractLsb' 24 8 ++ w.extractLsb' 16 8 ++ w.extractLsb' 8 8 ++ w.extractLsb' 0 8 = w := by
      apply BitVec.eq_of_getLsbD_eq
      intro i hi
      simp only [BitVec.getLsbD_append, BitVec.getLsbD_extractLsb']
      interval_cases i <;> simp
    simp only [Code.isThumb, Code.bytes, List.cons_append, List.nil_append, decodeBytes, h, decode]
    rfl
  | thumb h =>
    have hh : h.extractLsb' 8 8 ++ h.extractLsb' 0 8 = h := by
      apply BitVec.eq_of_getLsbD_eq
      intro i hi
      simp only [BitVec.getLsbD_append, BitVec.getLsbD_extractLsb']
      interval_cases i <;> simp
    simp only [Code.isThumb, Code.bytes, List.cons_append, List.nil_append, decodeBytes, hh, decode]
    rfl

/-- The host's table word is decoded as the code it stands for. -/
theorem decodeTableWord_eq (nbits w : Nat) : decodeTableWord nbits w = some (decode (codeOfTableWord nbits w)) := by
  have := decodeBytes_bytes (codeOfTableWord nbits w) []
  rw [List.append_nil] at this
  simp only [decodeTableWord, this]

/-! Fields of a concatenation, and of an encoded word (30_encoding.md R82 to R95). -/

theorem extractLsb'_append_hi {a b : Nat} (x : BitVec a) (y : BitVec b) (lo n : Nat) (h : b ≤ lo) :
    (x ++ y).extractLsb' lo n = x.extractLsb' (lo - b) n := by
  apply BitVec.eq_of_getLsbD_eq
  intro i hi
  simp only [BitVec.getLsbD_append, BitVec.getLsbD_extractLsb', hi, decide_true, Bool.true_and]
  rw [if_neg (by omega), show lo + i - b = lo - b + i by omega]

theorem extractLsb'_append_lo {a b : Nat} (x : BitVec a) (y : BitVec b) (lo n : Nat) (h : lo + n ≤ b) :
    (x ++ y).extractLsb' lo n = y.extractLsb' lo n := by
  apply BitVec.eq_of_getLsbD_eq
  intro i hi
  simp only [BitVec.getLsbD_append, BitVec.getLsbD_extractLsb', hi, decide_true, Bool.true_and]
  rw [if_pos (by omega)]

theorem extractLsb'_whole {a : Nat} (x : BitVec a) : x.extractLsb' 0 a = x := by
  apply BitVec.eq_of_getLsbD_eq
  intro i hi
  simp only [BitVec.getLsbD_extractLsb', hi, decide_true, Bool.true_and, Nat.zero_add]

/-- A field inside a known field. -/
theorem extractLsb'_sub {a : Nat} (x : BitVec a) {lo n : Nat} {v : BitVec n} (h : x.extractLsb' lo n = v)
    (lo' n' : Nat) (hn : lo' + n' ≤ n) : x.extractLsb' (lo + lo') n' = v.extractLsb' lo' n' := by
  subst h
  apply BitVec.eq_of_getLsbD_eq
  intro i hi
  have : lo' + i < n := by omega
  simp only [BitVec.getLsbD_extractLsb', hi, this, decide_true, Bool.true_and, Nat.add_assoc]

@[simp] theorem ofBool_beq_one (b : Bool) : (BitVec.ofBool b == 1#1) = b := by cases b <;> rfl

theorem encodeDp_fields (opcode : BitVec 4) (f : DpArgs) :
    (encodeDp opcode f).extractLsb' 28 4 = f.cond.bits ∧ (encodeDp opcode f).extractLsb' 26 2 = 0#2
    ∧ (encodeDp opcode f).extractLsb' 25 1 = f.op2.iBit ∧ (encodeDp opcode f).extractLsb' 21 4 = opcode
    ∧ (encodeDp opcode f).extractLsb' 20 1 = BitVec.ofBool f.setFlags
    ∧ (encodeDp opcode f).extractLsb' 16 4 = BitVec.ofFin (w := 4) f.rn
    ∧ (encodeDp opcode f).extractLsb' 12 4 = BitVec.ofFin (w := 4) f.rd
    ∧ (encodeDp opcode f).extractLsb' 0 12 = f.op2.bits := by
  refine ⟨?_, ?_, ?_, ?_, ?_, ?_, ?_, ?_⟩ <;> unfold encodeDp <;>
    simp (disch := omega) only [extractLsb'_append_hi, extractLsb'_append_lo, extractLsb'_whole, Nat.sub_self,
      Nat.reduceSub]

theorem encodeBlock_fields (l : BitVec 1) (f : BlockArgs) :
    (encodeBlock l f).extractLsb' 28 4 = f.cond.bits ∧ (encodeBlock l f).extractLsb' 25 3 = 0b100#3
    ∧ (encodeBlock l f).extractLsb' 24 1 = BitVec.ofBool f.pre
    ∧ (encodeBlock l f).extractLsb' 23 1 = BitVec.ofBool f.up
    ∧ (encodeBlock l f).extractLsb' 22 1 = BitVec.ofBool f.sBit
    ∧ (encodeBlock l f).extractLsb' 21 1 = BitVec.ofBool f.writeBack
    ∧ (encodeBlock l f).extractLsb' 20 1 = l
    ∧ (encodeBlock l f).extractLsb' 16 4 = BitVec.ofFin (w := 4) f.rn
    ∧ (encodeBlock l f).extractLsb' 0 16 = f.list := by
  refine ⟨?_, ?_, ?_, ?_, ?_, ?_, ?_, ?_, ?_⟩ <;> unfold encodeBlock <;>
    simp (disch := omega) only [extractLsb'_append_hi, extractLsb'_append_lo, extractLsb'_whole, Nat.sub_self,
      Nat.reduceSub]

theorem encodeSdt_fields (b l : BitVec 1) (f : SdtArgs) :
    (encodeSdt b l f).extractLsb' 28 4 = f.cond.bits ∧ (encodeSdt b l f).extractLsb' 26 2 = 0b01#2
    ∧ (encodeSdt b l f).extractLsb' 25 1 = BitVec.ofBool f.iBit
    ∧ (encodeSdt b l f).extractLsb' 24 1 = BitVec.ofBool f.pre
    ∧ (encodeSdt b l f).extractLsb' 23 1 = BitVec.ofBool f.up ∧ (encodeSdt b l f).extractLsb' 22 1 = b
    ∧ (encodeSdt b l f).extractLsb' 21 1 = BitVec.ofBool f.writeBack ∧ (encodeSdt b l f).extractLsb' 20 1 = l
    ∧ (encodeSdt b l f).extractLsb' 16 4 = BitVec.ofFin (w := 4) f.rn
    ∧ (encodeSdt b l f).extractLsb' 12 4 = BitVec.ofFin (w := 4) f.rd
    ∧ (encodeSdt b l f).extractLsb' 0 12 = f.off := by
  refine ⟨?_, ?_, ?_, ?_, ?_, ?_, ?_, ?_, ?_, ?_, ?_⟩ <;> unfold encodeSdt <;>
    simp (disch := omega) only [extractLsb'_append_hi, extractLsb'_append_lo, extractLsb'_whole, Nat.sub_self,
      Nat.reduceSub]

theorem encodeLow_fields (top : BitVec 10) (rs rd : LowReg) :
    (encodeLow top rs rd).extractLsb' 6 10 = top
    ∧ (encodeLow top rs rd).extractLsb' 3 3 = BitVec.ofFin (w := 3) rs
    ∧ (encodeLow top rs rd).extractLsb' 0 3 = BitVec.ofFin (w := 3) rd := by
  refine ⟨?_, ?_, ?_⟩ <;> unfold encodeLow <;>
    simp (disch := omega) only [extractLsb'_append_hi, extractLsb'_append_lo, extractLsb'_whole, Nat.sub_self,
      Nat.reduceSub]

theorem encodeImm8_fields (op : BitVec 2) (rd : LowReg) (imm8 : Byte) :
    (encodeImm8 op rd imm8).extractLsb' 13 3 = 0b001#3 ∧ (encodeImm8 op rd imm8).extractLsb' 11 2 = op
    ∧ (encodeImm8 op rd imm8).extractLsb' 8 3 = BitVec.ofFin (w := 3) rd
    ∧ (encodeImm8 op rd imm8).extractLsb' 0 8 = imm8 := by
  refine ⟨?_, ?_, ?_, ?_⟩ <;> unfold encodeImm8 <;>
    simp (disch := omega) only [extractLsb'_append_hi, extractLsb'_append_lo, extractLsb'_whole, Nat.sub_self,
      Nat.reduceSub]

/-- Reading the fields of a data-processing word back gives its operands. -/
theorem dpArgsOf_encodeDp (opcode : BitVec 4) (f : DpArgs) : dpArgsOf (encodeDp opcode f) = f := by
  obtain ⟨h1, -, h3, -, h5, h6, h7, h8⟩ := encodeDp_fields opcode f
  have a := extractLsb'_sub _ h8 8 4 (by decide)
  have b := extractLsb'_sub _ h8 0 8 (by decide)
  have c := extractLsb'_sub _ h8 4 8 (by decide)
  have d := extractLsb'_sub _ h8 0 4 (by decide)
  simp only [Nat.zero_add] at a b c d
  obtain ⟨cond, s, rn, rd, op2⟩ := f
  simp only [dpArgsOf, flagAt, regAt, h1, h5, h6, h7, h3, condOfBits_bits, ofBool_beq_one, a, b, c, d]
  cases op2 <;>
    simp (disch := omega) only [Operand2.iBit, Operand2.bits, extractLsb'_append_hi, extractLsb'_append_lo,
      extractLsb'_whole, Nat.sub_self] <;> rfl

theorem blockArgsOf_encodeBlock (l : BitVec 1) (f : BlockArgs) : blockArgsOf (encodeBlock l f) = f := by
  obtain ⟨h1, -, h3, h4, h5, h6, -, h8, h9⟩ := encodeBlock_fields l f
  simp only [blockArgsOf, flagAt, regAt, h1, h3, h4, h5, h6, h8, h9, condOfBits_bits, ofBool_beq_one]

theorem sdtArgsOf_encodeSdt (b l : BitVec 1) (f : SdtArgs) : sdtArgsOf (encodeSdt b l f) = f := by
  obtain ⟨h1, -, h3, h4, h5, -, h7, -, h9, h10, h11⟩ := encodeSdt_fields b l f
  simp only [sdtArgsOf, flagAt, regAt, h1, h3, h4, h5, h7, h9, h10, h11, condOfBits_bits, ofBool_beq_one]

/-! The classes of the ARM decoder (30_encoding.md R86). -/

/-- Two fields that overlap and disagree are not both there. -/
theorem extractLsb'_ne {w : Word} {lo n : Nat} {v : BitVec n} {lo' n' : Nat} {v' : BitVec n'}
    (h : w.extractLsb' lo n = v) (k m j : Nat) (hk : k + m ≤ n) (hj : j + m ≤ n') (hh : lo' + j = lo + k)
    (hne : v.extractLsb' k m ≠ v'.extractLsb' j m) : w.extractLsb' lo' n' ≠ v' := by
  intro h'
  apply hne
  rw [← extractLsb'_sub _ h k m hk, ← extractLsb'_sub _ h' j m hj, hh]

theorem decodeArm_swi {w : Word} (h : w.extractLsb' 24 4 = 0b1111#4) :
    decodeArm w = .swi (condOfBits (w.extractLsb' 28 4)) (w.extractLsb' 0 24) := by
  simp only [decodeArm, h, if_true]

theorem decodeArm_bx {w : Word} (h : w.extractLsb' 4 24 = 0x12FFF1#24) :
    decodeArm w = .bx (condOfBits (w.extractLsb' 28 4)) (regAt w 0) := by
  have h1 := extractLsb'_sub _ h 20 4 (by decide)
  simp only [Nat.reduceAdd] at h1
  simp only [decodeArm, h1, h, if_true]
  rfl

theorem decodeArm_block {w : Word} (h : w.extractLsb' 25 3 = 0b100#3) :
    decodeArm w = if flagAt w 20 then .ldm (blockArgsOf w) else .stm (blockArgsOf w) := by
  have h1 : w.extractLsb' 24 4 ≠ 0b1111#4 := extractLsb'_ne h 0 3 1 (by decide) (by decide) (by decide) (by decide)
  have h2 : w.extractLsb' 4 24 ≠ 0x12FFF1#24 := extractLsb'_ne h 0 3 21 (by decide) (by decide) (by decide) (by decide)
  simp only [decodeArm, h1, h2, h, if_true, if_false]

theorem decodeArm_branch {w : Word} (h : w.extractLsb' 25 3 = 0b101#3) :
    decodeArm w = if flagAt w 24 then .bl (condOfBits (w.extractLsb' 28 4)) (w.extractLsb' 0 24)
      else .b (condOfBits (w.extractLsb' 28 4)) (w.extractLsb' 0 24) := by
  have h1 : w.extractLsb' 24 4 ≠ 0b1111#4 := extractLsb'_ne h 0 3 1 (by decide) (by decide) (by decide) (by decide)
  have h2 : w.extractLsb' 4 24 ≠ 0x12FFF1#24 := extractLsb'_ne h 0 3 21 (by decide) (by decide) (by decide) (by decide)
  have h3 : ¬ (0b101#3 = 0b100#3) := by decide
  simp only [decodeArm, h1, h2, h, h3, if_true, if_false]

theorem decodeArm_dp {w : Word} (h : w.extractLsb' 26 2 = 0b00#2) (hb : w.extractLsb' 4 24 ≠ 0x12FFF1#24) :
    decodeArm w = decodeDp w := by
  have h1 : w.extractLsb' 24 4 ≠ 0b1111#4 := extractLsb'_ne h 0 2 2 (by decide) (by decide) (by decide) (by decide)
  have h3 : w.extractLsb' 25 3 ≠ 0b100#3 := extractLsb'_ne h 0 2 1 (by decide) (by decide) (by decide) (by decide)
  have h4 : w.extractLsb' 25 3 ≠ 0b101#3 := extractLsb'_ne h 0 2 1 (by decide) (by decide) (by decide) (by decide)
  simp only [decodeArm, h1, hb, h3, h4, h, if_true, if_false]

/-- Outside opcode 1001 a data-processing word is never BX. -/
theorem decodeArm_dp_of_opcode {w : Word} {opcode : BitVec 4} (h : w.extractLsb' 26 2 = 0b00#2)
    (ho : w.extractLsb' 21 4 = opcode) (hne : opcode ≠ 9#4) : decodeArm w = decodeDp w :=
  decodeArm_dp h fun hb => hne (ho.symm.trans (extractLsb'_sub _ hb 17 4 (by decide)))

theorem decodeArm_sdt {w : Word} (h : w.extractLsb' 26 2 = 0b01#2) : decodeArm w = decodeSdt w := by
  have h1 : w.extractLsb' 24 4 ≠ 0b1111#4 := extractLsb'_ne h 0 2 2 (by decide) (by decide) (by decide) (by decide)
  have h2 : w.extractLsb' 4 24 ≠ 0x12FFF1#24 := extractLsb'_ne h 0 2 22 (by decide) (by decide) (by decide) (by decide)
  have h3 : w.extractLsb' 25 3 ≠ 0b100#3 := extractLsb'_ne h 0 2 1 (by decide) (by decide) (by decide) (by decide)
  have h4 : w.extractLsb' 25 3 ≠ 0b101#3 := extractLsb'_ne h 0 2 1 (by decide) (by decide) (by decide) (by decide)
  have h5 : ¬ (0b01#2 = 0b00#2) := by decide
  simp only [decodeArm, h1, h2, h3, h4, h, h5, if_true, if_false]

theorem decodeArm_coproc {w : Word} (h : w.extractLsb' 26 2 = 0b11#2) (hop : w.extractLsb' 24 2 ≠ 0b11#2) :
    decodeArm w = .coprocUnknown (condOfBits (w.extractLsb' 28 4)) (w.extractLsb' 24 2) (w.extractLsb' 0 24) := by
  have h1 : w.extractLsb' 24 4 ≠ 0b1111#4 := fun h' => hop (extractLsb'_sub _ h' 0 2 (by decide))
  have h2 : w.extractLsb' 4 24 ≠ 0x12FFF1#24 := extractLsb'_ne h 0 2 22 (by decide) (by decide) (by decide) (by decide)
  have h3 : w.extractLsb' 25 3 ≠ 0b100#3 := extractLsb'_ne h 0 2 1 (by decide) (by decide) (by decide) (by decide)
  have h4 : w.extractLsb' 25 3 ≠ 0b101#3 := extractLsb'_ne h 0 2 1 (by decide) (by decide) (by decide) (by decide)
  have h5 : ¬ (0b11#2 = 0b00#2) := by decide
  have h6 : ¬ (0b11#2 = 0b01#2) := by decide
  simp only [decodeArm, h1, h2, h3, h4, h, h5, h6, if_false]

/-- A one-bit field as a flag. -/
theorem flagAt_eq (w : Word) (i : Nat) : flagAt w i = w.getLsbD i := by
  have : w.extractLsb' i 1 = BitVec.ofBool (w.getLsbD i) := by
    apply BitVec.eq_of_getLsbD_eq
    intro j hj
    have : j = 0 := by omega
    subst this
    simp
  simp only [flagAt, this, ofBool_beq_one]

end Sys2Proof
end

