-- ==== Sys2Proof/Laws/Exec.lean ====
section
/-! SUPPORT. What one instruction and one step can do: the condition test, the block loops, and that every instruction
answers a next state. -/

namespace Sys2Proof.Machine

/-! The condition test. -/

theorem whenCond_pass {cond : Cond} {s : State} (h : condPasses cond s = true) (body : State → State) :
    whenCond cond body s = .next (body s) := by
  simp only [whenCond, h, if_true]

theorem whenCond_fail {cond : Cond} {s : State} (h : condPasses cond s = false) (body : State → State) :
    whenCond cond body s = .next s := by
  simp [whenCond, h]

/-- A conditional instruction does its effect or nothing. -/
theorem whenCond_cases {cond : Cond} {body : State → State} {s t : State} (h : whenCond cond body s = .next t) :
    (condPasses cond s = true ∧ t = body s) ∨ (condPasses cond s = false ∧ t = s) := by
  cases hc : condPasses cond s
  · rw [whenCond_fail hc] at h; cases h; exact .inr ⟨rfl, rfl⟩
  · rw [whenCond_pass hc] at h; cases h; exact .inl ⟨rfl, rfl⟩

/-- A conditional instruction always answers a next state. -/
theorem whenCond_next (cond : Cond) (body : State → State) (s : State) : ∃ t, whenCond cond body s = .next t := by
  cases hc : condPasses cond s
  · exact ⟨_, whenCond_fail hc body⟩
  · exact ⟨_, whenCond_pass hc body⟩

/-- The condition reads N, Z and V alone (40_execution_cycle.md R115, 10_state.md R28). -/
theorem condPasses_congr (cond : Cond) {s t : State} (hn : t.n = s.n) (hz : t.z = s.z) (hv : t.v = s.v) :
    condPasses cond t = condPasses cond s := by
  cases cond <;> simp only [condPasses, hn, hz, hv]

/-- Every instruction answers a next state from every state: nothing stops the CORE (60_exceptions.md R211). -/
theorem exec_next (i : Instr) (s : State) : ∃ t, exec i s = .next t := by
  cases i <;>
    simp only [exec, execSwi, execBx, execStm, execLdm, execB, execBl, execArmAnd, execArmEor,
      execSub, execRsb, execAdd, execAdcUnknown, execSbcUnknown, execRscUnknown, execTstUnknown, execTeqUnknown,
      execCmp, execCmnUnknown, execArmOrr, execMov, execBicUnknown, execMvnUnknown, execStr, execStrb,
      execLdr, execLdrb, execCoprocUnknown, execLslImm, execLsrImm, execAsrImm, execMovImm8, execCmpImm8,
      execAddImm8, execSubImm8, execThumbAnd, execThumbEor, execThumbOrr, execMovLow, execThumbB, execThumbUnknown,
      execLogical, execUnknownDp] <;>
    first | apply whenCond_next | exact ⟨_, rfl⟩

/-! Block transfers. -/

theorem mem_regsOf {list : BitVec 16} {r : Reg} : r ∈ regsOf list ↔ list.getLsbD r.val = true := by
  have : ∀ r : Reg, r ∈ allRegs := by decide
  simp [regsOf, this r]

theorem regsOf_pairwise (list : BitVec 16) : (regsOf list).Pairwise (· < ·) :=
  List.Pairwise.filter _ (by decide)

/-- What a run of loads leaves alone: the bus, the status, and every register that is not loaded. -/
theorem loadRegs_frame (rs : List Reg) (addr : Word) (s : State) :
    SameBus s (loadRegs rs addr s) ∧ SameStatus s (loadRegs rs addr s)
      ∧ ∀ r, r ∉ rs → (loadRegs rs addr s).reg r = s.reg r := by
  induction rs generalizing addr s with
  | nil => exact ⟨SameBus.refl s, SameStatus.refl s, fun _ _ => rfl⟩
  | cons q rs ih =>
    have hd := drew_readN .read addr .word s
    obtain ⟨hb, hst, hr⟩ := ih (addr + 4#32) ((readN .read addr .word s).2.setReg q (readN .read addr .word s).1)
    refine ⟨(hd.sameBus.trans (SameBus.setReg _ _ _)).trans hb,
      (hd.sameStatus.trans (SameStatus.setReg _ _ _)).trans hst, fun r hrr => ?_⟩
    simp only [List.mem_cons, not_or] at hrr
    rw [loadRegs, hr r hrr.2, State.reg_setReg_ne _ hrr.1, hd.reg]

/-- Everything a run of stores can do. -/
theorem wrote_storeRegs (rs : List Reg) (addr : Word) (s : State) : Wrote s (storeRegs rs addr s) := by
  induction rs generalizing addr s with
  | nil => exact Wrote.refl s
  | cons r rs ih => exact (wrote_writeN _ _ _ _ s).trans (ih _ _)

theorem inv_storeRegs {s : State} (hi : s.Inv) (rs : List Reg) (addr : Word) : (storeRegs rs addr s).Inv := by
  induction rs generalizing addr s with
  | nil => exact hi
  | cons r rs ih => exact ih (inv_writeN hi _ _ _ _) _

/-! The fetch. -/

/-- What the fetch leaves alone: only the pc, the events and the draw counter change. -/
theorem fetchDecode_frame (s : State) :
    SameBus s (fetchDecode s).2 ∧ SameStatus s (fetchDecode s).2
      ∧ ∀ r, r ≠ 15 → (fetchDecode s).2.reg r = s.reg r := by
  have hd : Drew s (fetchCode s).2 := by
    unfold fetchCode
    split <;> exact drew_readN _ _ _ s
  refine ⟨hd.sameBus.trans (SameBus.setReg _ _ _), hd.sameStatus.trans (SameStatus.setReg _ _ _), fun r hr => ?_⟩
  rw [fetchDecode, State.setPc_eq_setReg, State.reg_setReg_ne _ hr, hd.reg]

/-- The fetch leaves the pc advanced by the fetch width (40_execution_cycle.md R111). -/
theorem fetchDecode_pc (s : State) : (fetchDecode s).2.reg 15 = s.pc + fetchWidth s := by
  simp [fetchDecode]

/-- A step is the fetch, one instruction, and the retirement. -/
theorem step_cases {s t : State} (h : step s = .next t) :
    ∃ u, exec (fetchDecode (beginStep s)).1 (fetchDecode (beginStep s)).2 = .next u ∧ t = retire u := by
  obtain ⟨u, hu⟩ := exec_next (fetchDecode (beginStep s)).1 (fetchDecode (beginStep s)).2
  refine ⟨u, hu, ?_⟩
  simp only [step, hu] at h
  cases h
  rfl

theorem step_of_exec {s u : State}
    (h : exec (fetchDecode (beginStep s)).1 (fetchDecode (beginStep s)).2 = .next u) : step s = .next (retire u) := by
  simp only [step, h]

end Sys2Proof.Machine
end

