-- ==== Sys2Proof/Laws/PerInstr.lean ====
section
/-! SUPPORT. Facts about every instruction as syntax, one lemma per constructor. -/

namespace Sys2Proof.Laws.EncodedLength

/-- An ARM instruction, one with a condition, encodes to 4 bytes, a Thumb instruction to 2 (30_encoding.md R80). -/
def Statement (i : Instr) : Prop :=
  (encode i).bytes.length = (if i.cond?.isSome then 4 else 2) ∧ (encode i).isThumb = i.cond?.isNone

theorem swi (cond : Cond) (comment : BitVec 24) : Statement (.swi cond comment) := ⟨rfl, rfl⟩
theorem bx (cond : Cond) (rm : Reg) : Statement (.bx cond rm) := ⟨rfl, rfl⟩
theorem stm (f : BlockArgs) : Statement (.stm f) := ⟨rfl, rfl⟩
theorem ldm (f : BlockArgs) : Statement (.ldm f) := ⟨rfl, rfl⟩
theorem b (cond : Cond) (imm24 : BitVec 24) : Statement (.b cond imm24) := ⟨rfl, rfl⟩
theorem bl (cond : Cond) (imm24 : BitVec 24) : Statement (.bl cond imm24) := ⟨rfl, rfl⟩
theorem armAnd (f : DpArgs) : Statement (.armAnd f) := ⟨rfl, rfl⟩
theorem armEor (f : DpArgs) : Statement (.armEor f) := ⟨rfl, rfl⟩
theorem sub (f : DpArgs) : Statement (.sub f) := ⟨rfl, rfl⟩
theorem rsb (f : DpArgs) : Statement (.rsb f) := ⟨rfl, rfl⟩
theorem add (f : DpArgs) : Statement (.add f) := ⟨rfl, rfl⟩
theorem adcUnknown (f : DpArgs) : Statement (.adcUnknown f) := ⟨rfl, rfl⟩
theorem sbcUnknown (f : DpArgs) : Statement (.sbcUnknown f) := ⟨rfl, rfl⟩
theorem rscUnknown (f : DpArgs) : Statement (.rscUnknown f) := ⟨rfl, rfl⟩
theorem tstUnknown (f : DpArgs) : Statement (.tstUnknown f) := ⟨rfl, rfl⟩
theorem teqUnknown (f : DpArgs) : Statement (.teqUnknown f) := ⟨rfl, rfl⟩
theorem cmp (f : DpArgs) : Statement (.cmp f) := ⟨rfl, rfl⟩
theorem cmnUnknown (f : DpArgs) : Statement (.cmnUnknown f) := ⟨rfl, rfl⟩
theorem armOrr (f : DpArgs) : Statement (.armOrr f) := ⟨rfl, rfl⟩
theorem mov (f : DpArgs) : Statement (.mov f) := ⟨rfl, rfl⟩
theorem bicUnknown (f : DpArgs) : Statement (.bicUnknown f) := ⟨rfl, rfl⟩
theorem mvnUnknown (f : DpArgs) : Statement (.mvnUnknown f) := ⟨rfl, rfl⟩
theorem str (f : SdtArgs) : Statement (.str f) := ⟨rfl, rfl⟩
theorem strb (f : SdtArgs) : Statement (.strb f) := ⟨rfl, rfl⟩
theorem ldr (f : SdtArgs) : Statement (.ldr f) := ⟨rfl, rfl⟩
theorem ldrb (f : SdtArgs) : Statement (.ldrb f) := ⟨rfl, rfl⟩
theorem coprocUnknown (cond : Cond) (op : BitVec 2) (body : BitVec 24) : Statement (.coprocUnknown cond op body) := ⟨rfl, rfl⟩
theorem lslImm (amount : BitVec 5) (rs rd : LowReg) : Statement (.lslImm amount rs rd) := ⟨rfl, rfl⟩
theorem lsrImm (amount : BitVec 5) (rs rd : LowReg) : Statement (.lsrImm amount rs rd) := ⟨rfl, rfl⟩
theorem asrImm (amount : BitVec 5) (rs rd : LowReg) : Statement (.asrImm amount rs rd) := ⟨rfl, rfl⟩
theorem movImm8 (rd : LowReg) (imm8 : Byte) : Statement (.movImm8 rd imm8) := ⟨rfl, rfl⟩
theorem cmpImm8 (rd : LowReg) (imm8 : Byte) : Statement (.cmpImm8 rd imm8) := ⟨rfl, rfl⟩
theorem addImm8 (rd : LowReg) (imm8 : Byte) : Statement (.addImm8 rd imm8) := ⟨rfl, rfl⟩
theorem subImm8 (rd : LowReg) (imm8 : Byte) : Statement (.subImm8 rd imm8) := ⟨rfl, rfl⟩
theorem thumbAnd (rs rd : LowReg) : Statement (.thumbAnd rs rd) := ⟨rfl, rfl⟩
theorem thumbEor (rs rd : LowReg) : Statement (.thumbEor rs rd) := ⟨rfl, rfl⟩
theorem thumbOrr (rs rd : LowReg) : Statement (.thumbOrr rs rd) := ⟨rfl, rfl⟩
theorem movLow (rs rd : LowReg) : Statement (.movLow rs rd) := ⟨rfl, rfl⟩
theorem thumbB (offset11 : BitVec 11) : Statement (.thumbB offset11) := ⟨rfl, rfl⟩
theorem thumbUnknown (h : Half) : Statement (.thumbUnknown h) := ⟨rfl, rfl⟩

end Sys2Proof.Laws.EncodedLength
end

