-- ==== Sys2Proof/Laws/Timer.lean ====
section
/-! SUPPORT. The laws of the timer range: which interactions an access has with the collaborator, what a read makes of
the answers, and what a write sends (20_memory.md R60). -/

namespace Sys2Proof.Machine

/-! Reads. -/

theorem byteAddrs_eq_map (addr : Word) (n : Nat) :
    byteAddrs addr n = (List.range n).map fun k => addr + BitVec.ofNat 32 k := by
  induction n generalizing addr with
  | zero => rfl
  | succ n ih =>
    rw [byteAddrs, ih, List.range_succ_eq_map]
    simp only [List.map_cons, List.map_map, BitVec.add_zero, List.cons.injEq, true_and]
    apply List.map_congr_left
    intro k _
    simp only [Function.comp, Nat.succ_eq_add_one, Nat.add_comm k 1, BitVec.ofNat_add, BitVec.add_assoc]

/-- The channel halves that the addresses touch and `seen` does not hold, each once, in order. -/
def newKeys (c : Cfg) (as : List Word) (seen : List TimerKey) : List TimerKey :=
  ((as.filterMap fun a => (target c a).timerKey).filter fun key => !seen.contains key).eraseDups

theorem newKeys_nil_seen (c : Cfg) (as : List Word) :
    newKeys c as [] = (as.filterMap fun a => (target c a).timerKey).eraseDups := by
  simp [newKeys]

/-- An address that adds no key: no timer byte, or one of a half already seen. -/
theorem newKeys_cons_old {c : Cfg} {a : Word} {seen : List TimerKey}
    (h : ∀ key, (target c a).timerKey = some key → key ∈ seen) (as : List Word) :
    newKeys c (a :: as) seen = newKeys c as seen := by
  unfold newKeys
  cases hk : (target c a).timerKey with
  | none => rw [List.filterMap_cons_none (f := fun a => (target c a).timerKey) hk]
  | some key =>
    rw [List.filterMap_cons_some (f := fun a => (target c a).timerKey) hk, List.filter_cons_of_neg (by simp [h key hk])]

theorem newKeys_cons_new {c : Cfg} {a : Word} {key : TimerKey} {seen : List TimerKey}
    (hk : (target c a).timerKey = some key) (h : key ∉ seen) (as : List Word) :
    newKeys c (a :: as) seen = key :: newKeys c as (key :: seen) := by
  unfold newKeys
  rw [List.filterMap_cons_some (f := fun a => (target c a).timerKey) hk, List.filter_cons_of_pos (by simp [h]),
    List.eraseDups_cons, List.filter_filter]
  congr 2
  apply List.filter_congr
  intro k _
  simp only [List.contains_cons, Bool.not_or]

theorem mem_keys_of_lookup {asked : List (TimerKey × Half)} {key : TimerKey} {t : Half}
    (h : asked.lookup key = some t) : key ∈ asked.map Prod.fst := by
  induction asked with
  | nil => cases h
  | cons p asked ih =>
    rw [List.lookup_cons] at h
    cases hp : key == p.1 with
    | true => rw [List.map_cons, eq_of_beq hp]; exact List.mem_cons_self
    | false => rw [hp] at h; exact List.mem_cons_of_mem _ (ih h)

theorem not_mem_keys_of_lookup {asked : List (TimerKey × Half)} {key : TimerKey}
    (h : asked.lookup key = none) : key ∉ asked.map Prod.fst := by
  induction asked with
  | nil => simp
  | cons p asked ih =>
    rw [List.lookup_cons] at h
    cases hp : key == p.1 with
    | true => rw [hp] at h; cases h
    | false =>
      rw [hp] at h
      simp only [List.map_cons, List.mem_cons, not_or]
      exact ⟨ne_of_beq_false hp, ih h⟩

/-- Everything a run of byte reads does: one answer for each channel half, `asked` first; the bytes; one TimerRead and
one draw for each half not yet asked. -/
theorem readBytes_answers (as : List Word) (asked : List (TimerKey × Half)) (s : State) :
    ∃ answer : TimerKey → Half, (∀ key t, asked.lookup key = some t → answer key = t)
      ∧ readBytes as asked s =
        (as.map fun a =>
            match target s.cfg a with
            | .timer ch h l => halfLane (answer (ch, h)) l
            | _ => (s.peek a).getD 0#8,
          { s with
            events := s.events ++ (newKeys s.cfg as (asked.map Prod.fst)).map
              fun key => .timerRead key.1 key.2 (answer key)
            timerDraws := s.timerDraws + (newKeys s.cfg as (asked.map Prod.fst)).length }) := by
  induction as generalizing asked s with
  | nil =>
    refine ⟨fun key => (asked.lookup key).getD 0#16, fun key t h => by simp [h], ?_⟩
    simp [readBytes, newKeys]
  | cons a as ih =>
    by_cases ht : ∃ ch h l, target s.cfg a = .timer ch h l
    · obtain ⟨ch, h, l, ht⟩ := ht
      have hkey : (target s.cfg a).timerKey = some (ch, h) := by rw [ht]; rfl
      cases hl : asked.lookup (ch, h) with
      | some t =>
        obtain ⟨answer, hans, hr⟩ := ih asked s
        refine ⟨answer, hans, ?_⟩
        have hmem := mem_keys_of_lookup hl
        rw [newKeys_cons_old (by rw [hkey]; rintro _ ⟨⟩; exact hmem)]
        simp only [readBytes, readByte, ht, hl, hr, List.map_cons, hans _ _ hl]
      | none =>
        obtain ⟨answer, hans, hr⟩ :=
          ih (((ch, h), Config.timerAnswer s.timerDraws) :: asked) (drawTimer (ch, h) s).2
        have hself : answer (ch, h) = Config.timerAnswer s.timerDraws := hans _ _ (by simp)
        refine ⟨answer, fun key t hk => hans key t ?_, ?_⟩
        · rw [List.lookup_cons]
          have : (key == (ch, h)) = false := by
            apply beq_false_of_ne
            rintro rfl
            rw [hl] at hk; cases hk
          rw [this]; exact hk
        · have hmem := not_mem_keys_of_lookup hl
          rw [newKeys_cons_new hkey hmem]
          simp only [readBytes, readByte, ht, hl]
          simp only [drawTimer] at hr ⊢
          rw [hr]
          simp only [emit, List.map_cons, hself, List.append_assoc, List.singleton_append, List.length_cons, ht,
            Nat.add_assoc, Nat.add_comm 1]
          rfl
    · obtain ⟨answer, hans, hr⟩ := ih asked s
      refine ⟨answer, hans, ?_⟩
      have hnt : isTimer s.cfg a = false := by
        unfold isTimer
        split
        · exact absurd ⟨_, _, _, by assumption⟩ ht
        · rfl
      have hk : (target s.cfg a).timerKey = none := by
        cases h : target s.cfg a <;> first | rfl | exact absurd ⟨_, _, _, h⟩ ht
      rw [newKeys_cons_old (by rw [hk]; rintro _ ⟨⟩)]
      simp only [readBytes, readByte_of_not_timer hnt, hr, List.map_cons]
      cases h : target s.cfg a <;> first | rfl | exact absurd ⟨_, _, _, h⟩ ht

/-! Writes. -/

/-- The group with the byte of one store added, if it is the group's (R60). -/
def TimerGroup.absorb (c : Cfg) (g : TimerGroup) (p : Word × Byte) : TimerGroup :=
  match target c p.1 with
  | .timer ch h l =>
    if g.key = (ch, h) then
      { g with value := g.value ||| (p.2.zeroExtend 16 <<< (8 * l)), mask := g.mask ||| (1#2 <<< l) }
    else g
  | _ => g

@[simp] theorem TimerGroup.absorb_key (c : Cfg) (g : TimerGroup) (p : Word × Byte) : (g.absorb c p).key = g.key := by
  unfold TimerGroup.absorb
  split
  · split <;> rfl
  · rfl

/-- The group with the bytes of a list of stores added. -/
def TimerGroup.gather (c : Cfg) (bs : List (Word × Byte)) (g : TimerGroup) : TimerGroup := bs.foldl (absorb c) g

@[simp] theorem TimerGroup.gather_nil (c : Cfg) (g : TimerGroup) : g.gather c [] = g := rfl

@[simp] theorem TimerGroup.gather_cons (c : Cfg) (p : Word × Byte) (bs : List (Word × Byte)) (g : TimerGroup) :
    g.gather c (p :: bs) = (g.absorb c p).gather c bs := rfl

/-- A channel half that no byte has been written to. -/
def TimerGroup.empty (key : TimerKey) : TimerGroup := { key := key, value := 0#16, mask := 0#2 }

theorem addToGroups_old {c : Cfg} {a : Word} {b : Byte} {ch : Nat} {h : TimerHalf} {l : Nat}
    (ht : target c a = .timer ch h l) {gs : List TimerGroup} (hnd : (gs.map TimerGroup.key).Nodup)
    (hm : (ch, h) ∈ gs.map TimerGroup.key) :
    addToGroups (ch, h) l b gs = gs.map fun g => g.absorb c (a, b) := by
  induction gs with
  | nil => simp at hm
  | cons g gs ih =>
    simp only [List.map_cons, List.nodup_cons] at hnd
    by_cases hk : g.key = (ch, h)
    · simp only [addToGroups, hk, if_true, List.map_cons, TimerGroup.absorb, ht, List.cons.injEq, true_and]
      refine ((List.map_congr_left fun g' hg' => ?_).trans (List.map_id' gs)).symm
      rw [if_neg]
      intro he
      exact hnd.1 (by rw [hk, ← he]; exact List.mem_map_of_mem hg')
    · simp only [List.map_cons, List.mem_cons] at hm
      rw [addToGroups, if_neg hk, ih hnd.2 (hm.resolve_left fun he => hk he.symm)]
      simp [TimerGroup.absorb, ht, hk]

theorem addToGroups_new {c : Cfg} {a : Word} {b : Byte} {ch : Nat} {h : TimerHalf} {l : Nat}
    (ht : target c a = .timer ch h l) {gs : List TimerGroup} (hm : (ch, h) ∉ gs.map TimerGroup.key) :
    addToGroups (ch, h) l b gs
      = (gs.map fun g => g.absorb c (a, b)) ++ [(TimerGroup.empty (ch, h)).absorb c (a, b)] := by
  induction gs with
  | nil => simp [addToGroups, TimerGroup.absorb, TimerGroup.empty, ht]
  | cons g gs ih =>
    simp only [List.map_cons, List.mem_cons, not_or] at hm
    have hk : ¬ g.key = (ch, h) := fun he => hm.1 he.symm
    rw [addToGroups, if_neg hk, ih hm.2]
    simp [TimerGroup.absorb, ht, hk]

theorem newKeys_congr {c : Cfg} {as : List Word} {seen seen' : List TimerKey}
    (h : ∀ key, key ∈ seen ↔ key ∈ seen') :
    newKeys c as seen = newKeys c as seen' := by
  unfold newKeys
  congr 1
  apply List.filter_congr
  intro key _
  have := h key
  simp only [List.contains_eq_mem, this]

theorem not_mem_of_mem_newKeys {c : Cfg} {as : List Word} {seen : List TimerKey} {key : TimerKey}
    (h : key ∈ newKeys c as seen) : key ∉ seen := by
  unfold newKeys at h
  simp only [List.mem_eraseDups, List.mem_filter, Bool.not_eq_true', List.contains_eq_mem, decide_eq_false_iff_not] at h
  exact h.2

/-- Everything the grouping does: each group so far with its bytes of the list added, and then one group for each new
channel half, in order. -/
theorem timerGroups_eq (c : Cfg) (bs : List (Word × Byte)) (gs : List TimerGroup)
    (hnd : (gs.map TimerGroup.key).Nodup) :
    timerGroups c bs gs = gs.map (TimerGroup.gather c bs)
      ++ (newKeys c (bs.map Prod.fst) (gs.map TimerGroup.key)).map
        fun key => TimerGroup.gather c bs (TimerGroup.empty key) := by
  induction bs generalizing gs with
  | nil =>
    simp only [timerGroups, List.map_nil, newKeys, List.filterMap_nil, List.filter_nil,
      List.eraseDups_nil, List.append_nil]
    exact (List.map_id gs).symm
  | cons p bs ih =>
    obtain ⟨a, b⟩ := p
    have hkeys : (gs.map fun g => g.absorb c (a, b)).map TimerGroup.key = gs.map TimerGroup.key := by
      simp [List.map_map, Function.comp_def]
    by_cases ht : ∃ ch h l, target c a = .timer ch h l
    · obtain ⟨ch, h, l, ht⟩ := ht
      have hkey : (target c a).timerKey = some (ch, h) := by rw [ht]; rfl
      by_cases hm : (ch, h) ∈ gs.map TimerGroup.key
      · rw [timerGroups, ht]
        dsimp only
        rw [addToGroups_old ht hnd hm, ih _ (by rw [hkeys]; exact hnd), hkeys, List.map_cons,
          newKeys_cons_old (by rw [hkey]; rintro _ ⟨⟩; exact hm)]
        congr 1
        · simp [List.map_map, Function.comp_def]
        · apply List.map_congr_left
          intro key hk
          have hne : key ≠ (ch, h) := fun he => not_mem_of_mem_newKeys hk (he ▸ hm)
          simp [TimerGroup.absorb, TimerGroup.empty, ht, hne]
      · rw [timerGroups, ht]
        dsimp only
        rw [addToGroups_new ht hm, ih, List.map_cons, newKeys_cons_new hkey hm]
        · rw [List.map_append, List.map_append, hkeys, newKeys_congr (seen' := (ch, h) :: gs.map TimerGroup.key)]
          · simp only [List.map_map, Function.comp_def, List.map_cons, List.map_nil, List.append_assoc,
              List.singleton_append]
            congr 2
            apply List.map_congr_left
            intro key hk
            have hne : key ≠ (ch, h) := fun he => not_mem_of_mem_newKeys hk (he ▸ List.mem_cons_self)
            simp [TimerGroup.absorb, TimerGroup.empty, ht, hne]
          · intro key
            simp [TimerGroup.empty, or_comm]
        · rw [List.map_append, hkeys]
          simp only [List.map_cons, List.map_nil, TimerGroup.absorb_key, TimerGroup.empty]
          rw [List.nodup_append]
          exact ⟨hnd, by simp, by rintro x hx y hy rfl; simp at hy; exact hm (hy ▸ hx)⟩
    · have hk : (target c a).timerKey = none := by
        cases h : target c a <;> first | rfl | exact absurd ⟨_, _, _, h⟩ ht
      have hab : ∀ g : TimerGroup, g.absorb c (a, b) = g := by
        intro g
        unfold TimerGroup.absorb
        split
        · exact absurd ⟨_, _, _, by assumption⟩ ht
        · rfl
      have hg : timerGroups c ((a, b) :: bs) gs = timerGroups c bs gs := by
        rw [timerGroups]
        split
        · exact absurd ⟨_, _, _, by assumption⟩ ht
        · rfl
      rw [hg, ih gs hnd, List.map_cons, newKeys_cons_old (by rw [hk]; rintro _ ⟨⟩)]
      simp only [funext fun g => TimerGroup.gather_cons c (a, b) bs g, hab]

@[simp] theorem TimerGroup.gather_key (c : Cfg) (bs : List (Word × Byte)) (g : TimerGroup) :
    (g.gather c bs).key = g.key := by
  induction bs generalizing g with
  | nil => rfl
  | cons p bs ih => exact (ih _).trans (absorb_key c g p)

/-- The mask of a gathered group: the lanes it had and those written. -/
theorem TimerGroup.gather_mask (c : Cfg) (bs : List (Word × Byte)) (g : TimerGroup) (l : Nat) (hl : l < 2) :
    (g.gather c bs).mask.getLsbD l
      = (g.mask.getLsbD l || bs.any fun p => target c p.1 == .timer g.key.1 g.key.2 l) := by
  induction bs generalizing g with
  | nil => simp [gather]
  | cons p bs ih =>
    rw [gather_cons, ih, absorb_key, List.any_cons, ← Bool.or_assoc]
    congr 1
    unfold absorb
    have hat := target_at c p.1
    cases ht : target c p.1 with
    | timer ch h k =>
      rw [ht] at hat
      have hk : k < 2 := by rw [hat.2.1]; unfold laneOf; split <;> omega
      obtain ⟨⟨gc, gh⟩, gv, gm⟩ := g
      by_cases hkey : (gc, gh) = (ch, h)
      · cases hkey
        simp only [if_true, BitVec.getLsbD_or]
        congr 1
        have : (Target.timer ch h k == Target.timer ch h l) = decide (k = l) := by
          rw [Bool.eq_iff_iff]; simp
        rw [this]
        interval_cases k <;> interval_cases l <;> rfl
      · simp only [hkey, if_false]
        have : (Target.timer ch h k == Target.timer gc gh l) = false := by
          apply beq_false_of_ne
          rintro ⟨⟩
          exact hkey rfl
        rw [this, Bool.or_false]
    | _ => simp

/-- The value of a gathered group, bit by bit: what it had and the bytes written to the bit's lane. -/
theorem TimerGroup.gather_value (c : Cfg) (bs : List (Word × Byte)) (g : TimerGroup) (i : Nat) (hi : i < 16) :
    (g.gather c bs).value.getLsbD i
      = (g.value.getLsbD i || bs.any fun p => target c p.1 == .timer g.key.1 g.key.2 (i / 8)
          && p.2.getLsbD (i % 8)) := by
  induction bs generalizing g with
  | nil => simp [gather]
  | cons p bs ih =>
    rw [gather_cons, ih, absorb_key, List.any_cons, ← Bool.or_assoc]
    congr 1
    unfold absorb
    have hat := target_at c p.1
    cases ht : target c p.1 with
    | timer ch h k =>
      rw [ht] at hat
      have hk : k < 2 := by rw [hat.2.1]; unfold laneOf; split <;> omega
      obtain ⟨⟨gc, gh⟩, gv, gm⟩ := g
      by_cases hkey : (gc, gh) = (ch, h)
      · cases hkey
        simp only [if_true, BitVec.getLsbD_or]
        congr 1
        have : (Target.timer ch h k == Target.timer ch h (i / 8)) = decide (k = i / 8) := by
          rw [Bool.eq_iff_iff]; simp
        rw [this]
        simp only [BitVec.getLsbD_shiftLeft, BitVec.zeroExtend_eq_setWidth, BitVec.getLsbD_setWidth, hi, decide_true,
          Bool.true_and]
        interval_cases k
        · by_cases h8 : i < 8
          · simp [Nat.div_eq_of_lt h8, Nat.mod_eq_of_lt h8, hi]
          · rw [BitVec.getLsbD_of_ge _ _ (by omega)]; simp; omega
        · by_cases h8 : i < 8
          · simp [Nat.div_eq_of_lt h8, h8]
          · rw [show i / 8 = 1 by omega, show i % 8 = i - 8 by omega]; simp [h8]; omega
      · simp only [hkey, if_false]
        have : (Target.timer ch h k == Target.timer gc gh (i / 8)) = false := by
          apply beq_false_of_ne
          rintro ⟨⟩
          exact hkey rfl
        rw [this, Bool.false_and, Bool.or_false]
    | _ => simp

/-- Sending the groups appends one TimerWrite each. -/
theorem sendGroups_eq (gs : List TimerGroup) (s : State) :
    sendGroups gs s = { s with
      events := s.events ++ gs.map fun g => .timerWrite g.key.1 g.key.2 g.value g.mask } := by
  induction gs generalizing s with
  | nil => simp [sendGroups]
  | cons g gs ih => rw [sendGroups, ih]; simp [emit]

end Sys2Proof.Machine
end

