-- ==== Sys2Proof/Tests/Slice0.lean ====
section
/-! SUPPORT. The model's own tests: each expected value is one of spec/95_test_vectors.md (named by its number there)
or is worked out by hand from the rule named; and a witness for the hypotheses of every statement. -/

namespace Sys2Proof.Tests

open Sys2Proof Sys2Proof.Machine Sys2Proof.Claims

/-! ## Well-formedness: a term that each check refuses -/

theorem test_wf_coproc : (Instr.coprocUnknown .al 0b11#2 0).wf = false := by decide

theorem test_wf_teq : (Instr.teqUnknown
    { cond := .al, setFlags := false, rn := 15, rd := 15, op2 := .reg 0xF1#8 0 }).wf = false := by decide

theorem test_wf_thumb : (Instr.thumbUnknown 0x2000#16).wf = false := by decide

theorem test_wf_neighbours : (Instr.coprocUnknown .al 0b10#2 0).wf = true
    ∧ (Instr.teqUnknown { cond := .al, setFlags := true, rn := 15, rd := 15, op2 := .reg 0xF1#8 0 }).wf = true
    ∧ (Instr.thumbUnknown 0x46C0#16).wf = true := by decide

/-! ## Decoding: every constructor, from a word written out field by field -/

/-- The operands of `XX R3, R2, R1`, register form, with the given S bit. -/
def dp (s : Bool) : DpArgs := { cond := .al, setFlags := s, rn := 2, rd := 3, op2 := .reg 0 1 }

-- cond, 1111, comment
theorem test_decode_swi : decodeArm 0b1110_1111_000000000000000000000101#32 = .swi .al 5 := by decide
-- cond, 000100101111111111110001, Rm
theorem test_decode_bx : decodeArm 0b0000_000100101111111111110001_1110#32 = .bx .eq 14 := by decide
-- cond, 100, P U S W L, Rn, list
theorem test_decode_stm : decodeArm 0b1110_100_10010_1101_0100000000000001#32
    = .stm { cond := .al, pre := true, up := false, sBit := false, writeBack := true, rn := 13, list := 0x4001 } := by
  decide
theorem test_decode_ldm : decodeArm 0b1110_100_01101_0001_1000000000000010#32
    = .ldm { cond := .al, pre := false, up := true, sBit := true, writeBack := false, rn := 1, list := 0x8002 } := by
  decide
-- cond, 101, L, imm24
theorem test_decode_b : decodeArm 0b1011_101_0_100000000000000000000001#32 = .b .lt 0x800001 := by decide
theorem test_decode_bl : decodeArm 0b1110_101_1_000000000000000000000001#32 = .bl .al 1 := by decide
-- cond, 00, I, opcode, S, Rn, Rd, operand2
theorem test_decode_and : decodeArm 0b1110_00_0_0000_1_0010_0011_00000000_0001#32 = .armAnd (dp true) := by decide
theorem test_decode_eor : decodeArm 0b1110_00_0_0001_0_0010_0011_00000000_0001#32 = .armEor (dp false) := by decide
theorem test_decode_sub : decodeArm 0b1110_00_0_0010_1_0010_0011_00000000_0001#32 = .sub (dp true) := by decide
theorem test_decode_rsb : decodeArm 0b1110_00_0_0011_0_0010_0011_00000000_0001#32 = .rsb (dp false) := by decide
theorem test_decode_add : decodeArm 0b1110_00_1_0100_1_0010_0011_1111_00000010#32
    = .add { dp true with op2 := .imm 15 2 } := by decide
theorem test_decode_adc : decodeArm 0b1110_00_0_0101_0_0010_0011_00000000_0001#32 = .adcUnknown (dp false) := by decide
theorem test_decode_sbc : decodeArm 0b1110_00_0_0110_0_0010_0011_00000000_0001#32 = .sbcUnknown (dp false) := by decide
theorem test_decode_rsc : decodeArm 0b1110_00_0_0111_0_0010_0011_00000000_0001#32 = .rscUnknown (dp false) := by decide
theorem test_decode_tst : decodeArm 0b1110_00_0_1000_1_0010_0011_00000000_0001#32 = .tstUnknown (dp true) := by decide
theorem test_decode_teq : decodeArm 0b1110_00_0_1001_0_0010_0011_00000000_0001#32 = .teqUnknown (dp false) := by decide
theorem test_decode_cmp : decodeArm 0b1110_00_0_1010_1_0010_0011_00000000_0001#32 = .cmp (dp true) := by decide
theorem test_decode_cmn : decodeArm 0b1110_00_0_1011_1_0010_0011_00000000_0001#32 = .cmnUnknown (dp true) := by decide
theorem test_decode_orr : decodeArm 0b1110_00_0_1100_0_0010_0011_00000000_0001#32 = .armOrr (dp false) := by decide
theorem test_decode_mov : decodeArm 0b1110_00_0_1101_0_0010_0011_11111000_0001#32
    = .mov { dp false with op2 := .reg 0b11111000 1 } := by decide
theorem test_decode_bic : decodeArm 0b1110_00_0_1110_0_0010_0011_00000000_0001#32 = .bicUnknown (dp false) := by decide
theorem test_decode_mvn : decodeArm 0b1110_00_0_1111_0_0010_0011_00000000_0001#32 = .mvnUnknown (dp false) := by decide

/-- The operands of a single transfer of R3 at `[R2, #5]`, pre-indexed. -/
def sd : SdtArgs :=
  { cond := .al, iBit := false, pre := true, up := true, writeBack := false, rn := 2, rd := 3, off := 5 }

-- cond, 01, I P U B W L, Rn, Rd, offset12
theorem test_decode_str : decodeArm 0b1110_01_011000_0010_0011_000000000101#32 = .str sd := by decide
theorem test_decode_strb : decodeArm 0b1110_01_000100_0010_0011_000000000101#32
    = .strb { sd with pre := false, up := false } := by decide
theorem test_decode_ldr : decodeArm 0b1110_01_110001_0010_0011_000000000101#32
    = .ldr { sd with iBit := true, up := false } := by decide
theorem test_decode_ldrb : decodeArm 0b1110_01_011111_0010_0011_000000000101#32
    = .ldrb { sd with writeBack := true } := by decide
-- cond, 11, op, the rest
theorem test_decode_coproc : decodeArm 0b1110_11_01_000000000000000000000111#32 = .coprocUnknown .al 1 7 := by decide
-- 000, op, offset5, Rs, Rd
theorem test_decode_lslImm : decodeThumb 0b000_00_00001_010_011#16 = .lslImm 1 2 3 := by decide
theorem test_decode_lsrImm : decodeThumb 0b000_01_11111_010_011#16 = .lsrImm 31 2 3 := by decide
theorem test_decode_asrImm : decodeThumb 0b000_10_00100_010_011#16 = .asrImm 4 2 3 := by decide
-- 001, op, Rd, imm8
theorem test_decode_movImm8 : decodeThumb 0b001_00_011_10000001#16 = .movImm8 3 0x81 := by decide
theorem test_decode_cmpImm8 : decodeThumb 0b001_01_011_10000001#16 = .cmpImm8 3 0x81 := by decide
theorem test_decode_addImm8 : decodeThumb 0b001_10_011_10000001#16 = .addImm8 3 0x81 := by decide
theorem test_decode_subImm8 : decodeThumb 0b001_11_011_10000001#16 = .subImm8 3 0x81 := by decide
-- 010000, op, Rs, Rd
theorem test_decode_thumbAnd : decodeThumb 0b010000_0000_010_011#16 = .thumbAnd 2 3 := by decide
theorem test_decode_thumbEor : decodeThumb 0b010000_0001_010_011#16 = .thumbEor 2 3 := by decide
theorem test_decode_thumbOrr : decodeThumb 0b010000_1100_010_011#16 = .thumbOrr 2 3 := by decide
-- 0100011000, Rs, Rd
theorem test_decode_movLow : decodeThumb 0b0100011000_010_011#16 = .movLow 2 3 := by decide
-- 11100, offset11
theorem test_decode_thumbB : decodeThumb 0b11100_10000000001#16 = .thumbB 0x401 := by decide
-- TH28, TH29, TH30, TH33, TH34
theorem test_decode_thumbUnknown : decodeThumb 0x46C0#16 = .thumbUnknown 0x46C0#16
    ∧ decodeThumb 0x1800#16 = .thumbUnknown 0x1800#16 ∧ decodeThumb 0x4700#16 = .thumbUnknown 0x4700#16
    ∧ decodeThumb 0xF000#16 = .thumbUnknown 0xF000#16 ∧ decodeThumb 0xE800#16 = .thumbUnknown 0xE800#16 := by decide

-- The bytes of an instruction in memory, lowest address first (20_memory.md R46).
theorem test_decodeBytes : decodeBytes false [0x05#8, 0x00#8, 0xA0#8, 0xE3#8, 0x77#8]
    = .ok (.mov { cond := .al, setFlags := false, rn := 0, rd := 0, op2 := .imm 0 5 }, [0x77#8])
    ∧ decodeBytes true [0x07#8] = .error .truncated := ⟨rfl, rfl⟩

theorem test_decodeTableWord : decodeTableWord 32 0xE3A00005
      = some (.mov { cond := .al, setFlags := false, rn := 0, rd := 0, op2 := .imm 0 5 })
    ∧ decodeTableWord 16 0xE7FF = some (.thumbB 0x7FF) := by decide

/-! ## One step, from the code at 0x02000000 in GRAM -/

/-- Registers and flags set as the tables list them. -/
def setup (nzcv : BitVec 4) (regs : List (Reg × Word)) (s : State) : State :=
  { regs.foldl (fun s p => s.setReg p.1 p.2) s with
    n := nzcv.getLsbD 3, z := nzcv.getLsbD 2, c := nzcv.getLsbD 1, v := nzcv.getLsbD 0 }

/-- The ARM word at 0x02000000, the pc there, NZCV and the registers as listed. -/
def arm (w : Nat) (nzcv : BitVec 4) (regs : List (Reg × Word)) : State :=
  setup nzcv regs ((State.reset.setPc 0x02000000#32).withFetchWord 32 w)

/-- The Thumb halfword at 0x02000000. -/
def thumb (h : Nat) (nzcv : BitVec 4) (regs : List (Reg × Word)) : State :=
  setup nzcv regs ((State.reset.setPc 0x02000000#32).withFetchWord 16 h)

/-- Place little-endian words in storage. -/
def withWords (ws : List (Word × Word)) (s : State) : State :=
  ws.foldl (fun s p => placeBytes p.1 (bytesFrom p.2 0 4) s) s

/-- N, Z, C and V as one number. -/
def nzcv (s : State) : BitVec 4 := s.statusWord.extractLsb' 28 4

/-- One step answers a next state with this property. -/
def after (s : State) (p : State → Bool) : Bool :=
  match step s with
  | .next t => p t
  | _ => false

/-- The step leaves this register value, these flags, this pc and these events. -/
def ends (s : State) (r : Reg) (v : Word) (f : BitVec 4) (pc : Word) (es : List Event) : Bool :=
  after s fun t => t.reg r == v && nzcv t == f && t.pc == pc && t.events == es

-- DP1 and DP3
theorem test_add : ends (arm 0xE0910002 0b1000 [(1, 0xFFFFFFFF), (2, 1)]) 0 0 0b0110 0x02000004 [] = true := by decide
theorem test_add_overflow : ends (arm 0xE0910002 0 [(1, 0x80000000), (2, 0x80000000)]) 0 0 0b0111 0x02000004 [] = true := by
  decide
-- DP9
theorem test_sub : ends (arm 0xE0510002 0 [(1, 0x80000000), (2, 1)]) 0 0x7FFFFFFF 0b0011 0x02000004 [] = true := by decide
-- DP12 and DP14
theorem test_rsb : ends (arm 0xE0710002 0 [(1, 1), (2, 0)]) 0 0xFFFFFFFF 0b1000 0x02000004 [] = true := by decide
theorem test_rsb_noflags : ends (arm 0xE2610000 0b0101 [(1, 5)]) 0 0xFFFFFFFB 0b0101 0x02000004 [] = true := by decide
-- DP18: CMP with S = 0
theorem test_cmp : ends (arm 0xE1410002 0 [(1, 3), (2, 3)]) 0 0 0b0110 0x02000004 [] = true := by decide
-- DP19 and DP32
theorem test_and : ends (arm 0xE0110002 0b0011 [(1, 0xF0F0F0F0), (2, 0x0F0F0F0F)]) 0 0 0b0111 0x02000004 [] = true := by
  decide
theorem test_and_mul_bits : ends (arm 0xE0000291 0 [(0, 0xFF), (1, 0x0F), (2, 7)]) 0 0x0F 0 0x02000004 [] = true := by
  decide
-- DP20
theorem test_eor : ends (arm 0xE0310002 0b0011 [(1, 0x80000000)]) 0 0x80000000 0b1011 0x02000004 [] = true := by decide
-- DP21
theorem test_orr : ends (arm 0xE1910002 0 []) 0 0 0b0100 0x02000004 [] = true := by decide
-- DP25 and DP28
theorem test_mov_rotated : ends (arm 0xE3A00F3F 0 []) 0 0xFC 0 0x02000004 [] = true := by decide
theorem test_mov_pc : ends (arm 0xE1A0F00E 0 [(14, 0x02000100)]) 14 0x02000100 0 0x02000100 [] = true := by decide
-- DP31 and DP33, and R140 for the others
theorem test_mvn : ends (arm 0xE3E00000 0b0101 [(0, 9)]) 0 9 0b0101 0x02000004
    [.unknownInstruction .arm 0x02000000 0xE3E00000] = true := by decide
theorem test_bic : ends (arm 0xE1D100B0 0 [(1, 5)]) 1 5 0 0x02000004
    [.unknownInstruction .arm 0x02000000 0xE1D100B0] = true := by decide
theorem test_unsupported : ∀ w ∈ [0xE0A00001, 0xE0C00001, 0xE0E00001, 0xE1100001, 0xE1300001, 0xE1700001],
    ends (arm w 0b0010 []) 0 0 0b0010 0x02000004 [.unknownInstruction .arm 0x02000000 (BitVec.ofNat 32 w)] = true := by
  decide
-- BR2 and BR5
theorem test_b_self : ends (arm 0xEAFFFFFF 0 []) 14 0 0 0x02000000 [] = true := by decide
theorem test_b_backward : ends (arm 0xEA800000 0 []) 14 0 0 0x00000004 [] = true := by decide
-- BR7
theorem test_bl : ends (arm 0xEBFFFFFF 0 []) 14 0x02000004 0 0x02000000 [] = true := by decide
-- BR10 and BR11
theorem test_bx : after (arm 0xE12FFF10 0 [(0, 0x08000005)]) (fun t => t.t && t.pc == 0x08000004) = true := by decide
theorem test_bx_pc : after (arm 0xE12FFF1F 0 []) (fun t => !t.t && t.pc == 0x02000004) = true := by decide
-- U1 and section 2.1
theorem test_swi : ends (arm 0xEF000005 0b1111 []) 14 0 0b1111 0x02000004 [.softwareInterrupt 0x02000000 5] = true := by
  decide
theorem test_swi_skipped : ends (arm 0x0F123456 0 []) 14 0 0 0x02000004 [] = true := by decide
-- U4
theorem test_coproc : ends (arm 0xED000000 0 []) 0 0 0 0x02000004 [.unknownInstruction .arm 0x02000000 0xED000000] = true := by
  decide

-- B3 and B6: the words at 0x030000FC, 0x03000100 and 0x03000104 are 0xBB, 0x11 and 0x22.
set_option maxRecDepth 4096 in
theorem test_ldm_da : after { arm 0xE8300006 0 [(0, 0x03000100)] with sram := [(0xFC, 0xBB), (0x100, 0x11)] }
    (fun t => t.reg 1 == 0xBB && t.reg 2 == 0x11 && t.reg 0 == 0x030000F8) = true := by decide
set_option maxRecDepth 4096 in
theorem test_ldm_base_in_list : after { arm 0xE8B00003 0 [(0, 0x03000100)] with sram := [(0x100, 0x11), (0x104, 0x22)] }
    (fun t => t.reg 0 == 0x11 && t.reg 1 == 0x22) = true := by decide
-- B11 and B14
theorem test_stm_base_in_list : after (arm 0xE8A00003 0 [(0, 0x03000200), (1, 9)]) (fun t =>
    valueAt t 0x03000200 .word == 0x03000200 && valueAt t 0x03000204 .word == 9 && t.reg 0 == 0x03000208) = true := by
  decide
theorem test_stm_across_end : after (arm 0xE8A00006 0 [(0, 0x03007FFC), (1, 1), (2, 2)]) (fun t =>
    valueAt t 0x03007FFC .word == 1 && t.reg 0 == 0x03008004
      && t.events == [.invalidAddress .write 0x03008000 .word]) = true := by decide

/-- The words of S1 to S13. -/
def single (w : Nat) (regs : List (Reg × Word)) : State :=
  withWords [(0x03000100, 0x44332211), (0x03000104, 0x88776655)] (arm w 0 ((0, 0x03000100) :: regs))

-- S6 and S9
theorem test_ldr_misaligned : after (single 0xE5901001 []) (fun t => t.reg 1 == 0x55443322) = true := by decide
theorem test_ldr_base_is_dest : after (single 0xE5B00004 []) (fun t => t.reg 0 == 0x88776655) = true := by decide
-- S7 and S8
theorem test_ldrb : after (single 0xE5D01003 []) (fun t => t.reg 1 == 0x44) = true := by decide
theorem test_ldrb_post : after (single 0xE4D02001 []) (fun t => t.reg 2 == 0x11 && t.reg 0 == 0x03000100) = true := by
  decide
-- S20 and S17
theorem test_str_base_is_source : after (single 0xE5A00004 []) (fun t =>
    valueAt t 0x03000104 .word == 0x03000100 && t.reg 0 == 0x03000104) = true := by decide
theorem test_str_if : after { arm 0xE5801204 0 [(0, 0x04000000), (1, 0x10F)] with ifr := 0xFF00FF0F }
    (fun t => t.ifr == 0xFF00FE00 && t.events == []) = true := by decide
-- S15 and S19
theorem test_strb : after (single 0xE5C01000 [(1, 0x1234ABCD)]) (fun t => valueAt t 0x03000100 .word == 0x443322CD)
    = true := by decide
theorem test_strb_timer : after (arm 0xE5C01103 0 [(0, 0x04000000), (1, 0xAB)])
    (fun t => t.events == [.timerWrite 0 .high 0xAB00 0b10] && t.iofb == []) = true := by decide

-- TH1 and TH2
theorem test_lslImm : ends (thumb 0x0048 0b0011 [(1, 0x80000001)]) 0 2 0b0011 0x02000002 [] = true := by decide
theorem test_lslImm_31 : ends (thumb 0x07C8 0 [(1, 3)]) 0 0x80000000 0b1000 0x02000002 [] = true := by decide
-- TH4 and TH5
theorem test_lsrImm : ends (thumb 0x0FC8 0 [(1, 0x80000000)]) 0 1 0 0x02000002 [] = true := by decide
theorem test_lsrImm_zero : ends (thumb 0x0800 0 [(0, 0x80000000)]) 0 0x80000000 0b1000 0x02000002 [] = true := by decide
-- TH6
theorem test_asrImm : ends (thumb 0x1108 0 [(1, 0x80000000)]) 0 0xF8000000 0b1000 0x02000002 [] = true := by decide
-- TH10
theorem test_movImm8 : ends (thumb 0x2000 0b1011 [(0, 3)]) 0 0 0b0111 0x02000002 [] = true := by decide
-- TH13
theorem test_cmpImm8 : ends (thumb 0x2801 0 [(0, 0x80000000)]) 0 0x80000000 0b0011 0x02000002 [] = true := by decide
-- TH16
theorem test_addImm8 : ends (thumb 0x3001 0 [(0, 0x7FFFFFFF)]) 0 0x80000000 0b1001 0x02000002 [] = true := by decide
-- TH18
theorem test_subImm8 : ends (thumb 0x3801 0 [(0, 0)]) 0 0xFFFFFFFF 0b1000 0x02000002 [] = true := by decide
-- TH19
theorem test_thumbAnd : ends (thumb 0x4008 0b0011 [(0, 0xF0), (1, 0x3C)]) 0 0x30 0b0011 0x02000002 [] = true := by decide
-- TH20
theorem test_thumbEor : ends (thumb 0x4040 0 [(0, 5)]) 0 0 0b0100 0x02000002 [] = true := by decide
-- TH21
theorem test_thumbOrr : ends (thumb 0x4308 0 [(0, 0x80000000), (1, 1)]) 0 0x80000001 0b1000 0x02000002 [] = true := by
  decide
-- TH22
theorem test_movLow : ends (thumb 0x4608 0b0100 [(1, 7)]) 0 7 0b0100 0x02000002 [] = true := by decide
-- TH25 and TH24
theorem test_thumbB : ends (thumb 0xE400 0 []) 0 0 0 0x01FFF802 [] = true := by decide
theorem test_thumbB_self : ends (thumb 0xE7FF 0 []) 0 0 0 0x02000000 [] = true := by decide
-- TH30
theorem test_thumbUnknown : after (thumb 0x4700 0 []) (fun t =>
    t.t && t.pc == 0x02000002 && t.events == [.unknownInstruction .thumb 0x02000000 0x4700]) = true := by decide

-- Section 2.1: NE, VC and GT at V = 1, Z = 0.
theorem test_conditions : after (arm 0x13A00001 0b0001 []) (fun t => t.reg 0 == 1) = true
    ∧ after (arm 0x73A00001 0b0001 []) (fun t => t.reg 0 == 0) = true
    ∧ after (arm 0xC3A00001 0b0001 []) (fun t => t.reg 0 == 1) = true := by decide

-- BR13: the pc wraps past the top of the address space.
theorem test_fetch_wraps : after (State.reset.setPc 0xFFFFFFFC#32)
    (fun t => t.pc == 0 && t.events == [.invalidAddress .fetch 0xFFFFFFFC .word] && t.imagesLoaded) = true := by decide

/-! ## The bus (section 2.8) and reset (section 2.9) -/

-- M2
theorem test_read_across_boot : readN .read 0x00003FFE .word { State.reset with boot := [(0x3FFE, 0xAA), (0x3FFF, 0xBB)] }
    = (0x0000BBAA, { State.reset with
        boot := [(0x3FFE, 0xAA), (0x3FFF, 0xBB)], events := [.invalidAddress .read 0x00003FFE .word] }) := by decide
-- M3
theorem test_write_little_endian : (writeN .write 0x03000100 .word 0x11223344 State.reset).sram
    = [(0x100, 0x44), (0x101, 0x33), (0x102, 0x22), (0x103, 0x11)] := by decide
-- M4 and M5
theorem test_write_ie : (writeN .write 0x04000202 .half 0xABCD { State.reset with ie := 0x1234 }).ie = 0xABCD1234 := by
  decide
theorem test_write_if : (writeN .write 0x04000205 .byte 1 { State.reset with ifr := 0xFF00 }).ifr = 0xFE00 := by decide
-- M8
theorem test_write_timer : (writeN .write 0x04000106 .half 0x5555 State.reset).events
    = [.timerWrite 1 .high 0x5555 0b11] := by decide
-- M13
theorem test_write_across_boot : writeN .write 0x00003FFE .word 0x11223344 State.reset = { State.reset with
    events := [.invalidAddress .write 0x00003FFE .word, .readOnlyViolation .write 0x00003FFE .word] } := by decide

/-- The configuration of M11: SRAM begins where GRAM does. -/
def overlapping : Cfg := { defaultCfg with sram := { base := 0x02000000, size := 0x8000 } }

-- M11
theorem test_precedence : writeN .write 0x02000000 .byte 7 (State.construct overlapping)
    = { State.construct overlapping with gram := [(0, 7)] } := by decide

-- RS1
theorem test_reset : resetAction { arm 0 0b1111 [(0, 1), (15, 2)] with
      t := true, boot := [(0, 0xE3)], gram := [(0, 5)], ie := 0xFFFFFFFF, ifr := 0xFFFFFFFF, ime := 0xFFFFFFFF }
    = { State.reset with boot := [(0, 0xE3)] } := by decide

-- P4, its second step: BX from ARM into the Thumb code of the same image.
theorem test_image_bx : (match hostAct (.loadBootImage [0x05, 0x00, 0x8F, 0xE2, 0x10, 0xFF, 0x2F, 0xE1]) State.reset with
      | .next s => after (setup 0 [(0, 9), (15, 4)] s) fun t => t.t && t.pc == 8
      | _ => false) = true := by decide

/-! ## Witnesses: for every statement with hypotheses, a state and operands that meet them together -/

/-- A state with no code placed: ARM state, the pc at 0x02000004 as after a fetch, N and C set. -/
def st : State := setup 0b1010 [(0, 0x03000100), (1, 0xFFFFFFFF), (2, 1), (15, 0x02000004)] State.reset

theorem witness_DecodeInvertsEncode : (Instr.ldm
      { cond := .nv, pre := true, up := true, sBit := true, writeBack := true, rn := 15, list := 0xFFFF }).wf = true
    ∧ (Instr.thumbUnknown 0xFFFF#16).wf = true := by decide

theorem witness_FailedConditionSkips : (Instr.swi .eq 5).cond? = some .eq ∧ condPasses .eq st = false
    ∧ (fetchDecode (beginStep (arm 0x0F000005 0 []))).1 = .swi .eq 5
    ∧ condPasses .eq (fetchDecode (beginStep (arm 0x0F000005 0 []))).2 = false := by decide

theorem witness_ImmediateOperandRotates : (0xE3A00F3F#32).getLsbD 25 = true := by decide

theorem witness_RegisterOperandIgnoresShiftField : (0xE1A00F81#32).getLsbD 25 = false ∧ st.t = false := by decide

-- The encoding clauses: a word of each ARM format, and a halfword of each Thumb format.
theorem witness_ArmEncodings :
    ((0xE0910002#32).extractLsb' 26 2 = 0#2 ∧ (0xE0910002#32).extractLsb' 21 4 = 0b0100#4)
    ∧ (0xEA000000#32).extractLsb' 24 4 = 0b1010#4 ∧ (0xEB000000#32).extractLsb' 24 4 = 0b1011#4
    ∧ (0xE12FFF10#32).extractLsb' 4 24 = 0x12FFF1#24 ∧ (0xEF000005#32).extractLsb' 24 4 = 0b1111#4
    ∧ ((0xE5901004#32).extractLsb' 26 2 = 0b01#2 ∧ (0xE5901004#32).getLsbD 20 = true
      ∧ (0xE5901004#32).getLsbD 22 = (Width.word == .byte))
    ∧ ((0xE5C01000#32).extractLsb' 26 2 = 0b01#2 ∧ (0xE5C01000#32).getLsbD 20 = false
      ∧ (0xE5C01000#32).getLsbD 22 = (Width.byte == .byte))
    ∧ ((0xE8B00006#32).extractLsb' 25 3 = 0b100#3 ∧ (0xE8B00006#32).getLsbD 20 = true)
    ∧ ((0xE8A00006#32).extractLsb' 25 3 = 0b100#3 ∧ (0xE8A00006#32).getLsbD 20 = false) := by decide

theorem witness_ThumbEncodings :
    (0x0048#16).extractLsb' 11 5 = 0b00000#5 ∧ (0x0800#16).extractLsb' 11 5 = 0b00001#5
    ∧ (0x1108#16).extractLsb' 11 5 = 0b00010#5 ∧ (0x2005#16).extractLsb' 11 5 = 0b00100#5
    ∧ (0x290A#16).extractLsb' 11 5 = 0b00101#5 ∧ (0x3003#16).extractLsb' 11 5 = 0b00110#5
    ∧ (0x3801#16).extractLsb' 11 5 = 0b00111#5 ∧ (0x4008#16).extractLsb' 6 10 = 0b0100000000#10
    ∧ (0x4040#16).extractLsb' 6 10 = 0b0100000001#10 ∧ (0x4308#16).extractLsb' 6 10 = 0b0100001100#10
    ∧ (0x4608#16).extractLsb' 6 10 = 0b0100011000#10 ∧ (0xE7FF#16).extractLsb' 11 5 = 0b11100#5 := by decide

-- LogicalInstructions, ArithmeticInstructions, CompareInstruction and UnsupportedArmWordsOnlyReport ask that the
-- condition pass; with S = 1, with S = 0, and with Rd = 15.
theorem witness_DataProcessing : condPasses (dp true).cond st = true ∧ (dp true).setFlags = true
    ∧ condPasses (dp false).cond st = true ∧ (dp false).setFlags = false
    ∧ condPasses ({ dp false with cond := .mi, rd := 15 } : DpArgs).cond st = true := by decide

theorem witness_UnknownArmWordReportsItself :
    (condPasses (condOfBits ((0xEE000000#32).extractLsb' 28 4)) st = true
      ∧ (0xEE000000#32).extractLsb' 24 4 ∈ [0b1100#4, 0b1101#4, 0b1110#4])
    ∧ (condPasses (condOfBits ((0xE1200000#32).extractLsb' 28 4)) st = true
      ∧ (0xE1200000#32).extractLsb' 26 2 = 0#2 ∧ 0xE1200000#32 &&& 0x0FFFFFF0#32 ≠ 0x012FFF10#32
      ∧ (0xE1200000#32).extractLsb' 21 4 ∈ [5#4, 6#4, 7#4, 8#4, 9#4, 11#4, 14#4, 15#4]) := by decide

-- BranchInstruction, BranchWithLinkInstruction, BranchExchangeInstruction and SoftwareInterruptOnlyReports.
theorem witness_Branches : condPasses .al st = true ∧ condPasses .ne st = true := by decide

/-- An access that reaches no timer byte, at the two bounds of the timer range. -/
theorem witness_noTimer : noTimer defaultCfg 0x040000FC 4 ∧ noTimer defaultCfg 0x04000110 4 := by
  unfold noTimer; decide

theorem inv_st : st.Inv := by unfold State.Inv; decide

-- LoadInstructions and StoreInstructions: write-back with Rn and Rd apart, no write-back, a word below the timers.
theorem witness_SingleTransfers : st.Inv ∧ condPasses sd.cond st = true ∧ noTimer st.cfg (sdtEa sd st) 4
    ∧ sd.writeBack = false ∧ ({ sd with writeBack := true } : SdtArgs).writeBack = true ∧ sd.rn ≠ sd.rd
    ∧ sdtEa { sd with rn := 0, off := 0xFC } { st with x := st.x.set 0 0x04000000 } = 0x040000FC :=
  ⟨inv_st, by decide, by unfold noTimer; decide, by decide, by decide, by decide, by decide⟩

/-- `LDMDB R0!, (R1, R15)` and its store. -/
def bt : BlockArgs :=
  { cond := .al, pre := true, up := false, sBit := false, writeBack := true, rn := 0, list := 0x8002 }

-- LoadMultiple and StoreMultiple: a listed and an unlisted register, an unlisted base, every word clear of the timers.
theorem witness_BlockTransfers : st.Inv ∧ condPasses bt.cond st = true ∧ bt.writeBack = true
    ∧ bt.list.getLsbD 15 = true ∧ bt.list.getLsbD bt.rn.val = false ∧ bt.list.getLsbD 2 = false ∧ (2 : Reg) ≠ bt.rn
    ∧ ∀ r : Reg, bt.list.getLsbD r.val = true → noTimer st.cfg (blockAddr bt st r) 4 :=
  ⟨inv_st, by decide, by decide, by decide, by decide, by decide, by decide, by unfold noTimer; decide⟩

-- The branch offsets of the clauses on B to itself.
theorem witness_ThumbBranch : (BitVec.allOnes 11) = 0x7FF#11 ∧ (BitVec.allOnes 24) = 0xFFFFFF#24 := by decide

theorem witness_UnknownHalfwordReportsItself :
    ∀ r ∈ thumbRows.take 12, (0x46C0#16).toNat &&& r.2.1 ≠ r.2.2 := by decide

theorem witness_ThumbInstructionsStayLocal :
    (Instr.thumbB 0).cond? = none ∧ (∃ t, exec (.thumbB 2) st = .next t ∧ t.pc ≠ st.pc)
    ∧ ∃ t, exec (.thumbUnknown 0x46C0) st = .next t ∧ t.events ≠ st.events :=
  ⟨rfl, ⟨_, rfl, by decide⟩, ⟨_, rfl, by decide⟩⟩

-- Both clauses: in ARM and in Thumb state, with the code clear of the timers.
theorem witness_StepRunsDecodedInstruction :
    ((arm 0xE3A00005 0 []).t = false ∧ noTimer (arm 0xE3A00005 0 []).cfg (arm 0xE3A00005 0 []).pc 4)
    ∧ ((thumb 0x2005 0 []).t = true ∧ noTimer (thumb 0x2005 0 []).cfg (thumb 0x2005 0 []).pc 2) := by
  unfold noTimer; decide

-- StepKeepsInvariant, ImagesNeverChange and CarryFlagIsUnobserved.
theorem witness_Step : st.Inv ∧ (∃ t, step st = .next t) ∧ resolve st.cfg 0x3FFF = some .boot
    ∧ resolve st.cfg 0x09FFFFFF = some .cart := ⟨inv_st, ⟨_, rfl⟩, by decide, by decide⟩

-- HostActionsKeepInvariant, ThumbStateIsOneWay and InterruptFlagsSetOnlyByEnvironment: a step from a Thumb state, which
-- is no raiseIF, and an image load.
theorem witness_HostActions : (thumb 0x2005 0 []).t = true ∧ HostAction.step ≠ .reset
    ∧ (∃ t, hostAct .step (thumb 0x2005 0 []) = .next t) ∧ st.Inv
    ∧ (∃ t, hostAct (.loadImage [1, 0, 2]) st = .next t) ∧ ∀ mask, HostAction.step ≠ .raiseIF mask :=
  ⟨by decide, by decide, ⟨_, rfl⟩, inv_st, ⟨_, rfl⟩, fun _ => by simp⟩

theorem witness_OnlyBranchExchangeWritesT : ∃ t, exec (.bx .al 2) st = .next t ∧ t.t ≠ st.t := ⟨_, rfl, by decide⟩

theorem witness_EventsAreNeverReadBack : ∃ t, exec (.swi .al 5) st = .next t ∧ t.events ≠ st.events :=
  ⟨_, rfl, by decide⟩

theorem witness_CarryAndOverflowWriters : ∃ t, exec (.cmpImm8 2 2) st = .next t ∧ (t.c ≠ st.c ∨ t.v ≠ st.v) :=
  ⟨_, rfl, by decide⟩

theorem witness_OnlyStoresChangeMemory : (∃ t, exec (.ldr sd) st = .next t)
    ∧ (∀ f, Instr.ldr sd ≠ .str f ∧ Instr.ldr sd ≠ .strb f) ∧ ∀ f, Instr.ldr sd ≠ .stm f :=
  ⟨⟨_, rfl⟩, fun f => by simp, fun f => by simp⟩

theorem witness_PcRedirectors : ∃ t, exec (.mov { dp false with rd := 15 }) st = .next t ∧ t.pc ≠ st.pc :=
  ⟨_, rfl, by decide⟩

-- Both clauses, ARM and Thumb.
theorem witness_SelfLoopRepeats :
    ((arm 0xEAFFFFFF 0 []).t = false ∧ noTimer (arm 0xEAFFFFFF 0 []).cfg (arm 0xEAFFFFFF 0 []).pc 4
      ∧ (∀ k < 4, target (arm 0xEAFFFFFF 0 []).cfg (nth (arm 0xEAFFFFFF 0 []).pc k) ≠ .unmapped)
      ∧ valueAt (arm 0xEAFFFFFF 0 []) (arm 0xEAFFFFFF 0 []).pc .word = 0xEAFFFFFF#32)
    ∧ ((thumb 0xE7FF 0 []).t = true ∧ noTimer (thumb 0xE7FF 0 []).cfg (thumb 0xE7FF 0 []).pc 2
      ∧ (∀ k < 2, target (thumb 0xE7FF 0 []).cfg (nth (thumb 0xE7FF 0 []).pc k) ≠ .unmapped)
      ∧ valueAt (thumb 0xE7FF 0 []) (thumb 0xE7FF 0 []).pc .half = 0xE7FF#32) := by
  unfold noTimer; decide

-- Both clauses: mapped bytes at the start of BOOT, unmapped bytes at the top of the address space.
theorem witness_ZeroWordsSlide : State.reset.t = false ∧ (∀ k < 4, State.reset.peek (nth State.reset.pc k) = some 0)
    ∧ (State.reset.setPc 0xFFFFFFFC).t = false
    ∧ (∀ k < 4, (State.reset.setPc 0xFFFFFFFC).peek (nth (State.reset.setPc 0xFFFFFFFC).pc k) = some 0)
    ∧ (thumb 0 0 []).t = true ∧ (∀ k < 2, (thumb 0 0 []).peek (nth (thumb 0 0 []).pc k) = some 0) := by decide

/-- The first word of an access in plain storage is whole in its region: the last words of GRAM and SRAM, and the first
of the I/O fallback. -/
theorem plain_edges : (∀ k < 4, plainByte defaultCfg (nth 0x0203FFFC k)) ∧ (∀ k < 4, plainByte defaultCfg (nth 0x03007FFC k))
    ∧ ∀ k < 4, plainByte defaultCfg (nth 0x04000000 k) := by
  refine ⟨fun k hk => ⟨0x3FFFC + k, .inl ?_⟩, fun k hk => ⟨0x7FFC + k, .inr (.inl ?_)⟩,
    fun k hk => ⟨k, .inr (.inr ?_)⟩⟩ <;> interval_cases k <;> decide

-- The state meets every hypothesis of ReadAfterWrite together with the address.
theorem witness_ReadAfterWrite : st.Inv ∧ ∀ k < 4, plainByte st.cfg (nth 0x0203FFFC k) := ⟨inv_st, plain_edges.1⟩

/-- `STR R1, [R0]` to the word behind it: the pc and R0 at the last two words of GRAM. -/
def storeNext : State :=
  (setup 0 [(0, 0x0203FFFC), (1, 0xE3A02005), (15, 0x0203FFF8)] State.reset).withFetchWord 32 0xE5801000

/-- The operands of that store. -/
def storeNextArgs : SdtArgs :=
  { cond := .al, iBit := false, pre := true, up := true, writeBack := false, rn := 0, rd := 1, off := 0 }

theorem inv_storeNext : storeNext.Inv := by unfold State.Inv; decide

-- Each clause of FetchSeesTheLastStore in one state: STR and STRB, STM, the host writes, and the two steps; in the last
-- one, a Thumb state.
theorem witness_FetchSeesTheLastStore :
    (storeNext.Inv ∧ condPasses storeNextArgs.cond storeNext = true
      ∧ ∀ k < 4, plainByte storeNext.cfg (nth (sdtEa storeNextArgs storeNext) k))
    ∧ (st.Inv ∧ condPasses bt.cond st = true ∧ bt.list.getLsbD 15 = true
      ∧ ∀ k < 4, target st.cfg (nth (blockAddr bt st 15) k) = .sram (0xFC + k))
    ∧ ((fetchDecode (beginStep storeNext)).1 = .str storeNextArgs
      ∧ condPasses storeNextArgs.cond (fetchDecode (beginStep storeNext)).2 = true
      ∧ sdtEa storeNextArgs (fetchDecode (beginStep storeNext)).2 = 0x0203FFFC
      ∧ after storeNext (fun t => t.pc == 0x0203FFFC) = true)
    ∧ ({ storeNext.setPc 0x0203FFFC with t := true }.Inv ∧ ({ storeNext.setPc 0x0203FFFC with t := true } : State).t = true
      ∧ ∀ k < 2, plainByte storeNext.cfg (nth (storeNext.setPc 0x0203FFFC).pc k)) :=
  ⟨⟨inv_storeNext, by decide, plain_edges.1⟩, ⟨inv_st, by decide, by decide, by decide⟩, by decide,
    by unfold State.Inv; decide, rfl, fun k hk => plain_edges.1 k (by omega)⟩

-- What those two steps leave: the stored word, MOV R2, #5, has run.
theorem test_store_then_fetch : after storeNext (fun t => after t fun u => u.reg 2 == 5) = true := by decide

-- ReadAccess, WriteAccessEvents and WriteAccessBytes: an access whose four bytes straddle BOOT's end.
theorem witness_Accesses : st.Inv ∧ noTimer st.cfg 0x00003FFE 4
    ∧ invalidEvents st.cfg .write 0x00003FFE .word = [.invalidAddress .write 0x00003FFE .word]
    ∧ readOnlyEvents st.cfg .write 0x00003FFE .word = [.readOnlyViolation .write 0x00003FFE .word] := by
  refine ⟨inv_st, ?_, ?_, ?_⟩
  · unfold noTimer; decide
  · exact if_pos ⟨2, by decide, by decide⟩
  · exact if_pos ⟨0, by decide, by decide⟩

theorem witness_RegionPrecedence : resolve overlapping 0x02007FFF = some .gram
    ∧ resolve overlapping 0x040003FF = some .io ∧ resolve overlapping 0x04000400 = none := by decide

theorem witness_InterruptFlagsWriteOneToClear : ∀ k < 4, target defaultCfg (nth 0x04000204 k) = .ifr k := by decide

theorem witness_InterruptEnablesAreStorage : (∀ k < 4, target defaultCfg (nth 0x04000200 k) = .ie k)
    ∧ ∀ k < 4, target defaultCfg (nth 0x04000208 k) = .ime k := by decide

-- The word forms, on the first and on the last channel, and so each half and byte form; and LDRB from a high lane.
theorem witness_Timers :
    (target defaultCfg 0x04000100 = .timer 0 .low 0 ∧ target defaultCfg (nth 0x04000100 1) = .timer 0 .low 1
      ∧ target defaultCfg (nth 0x04000100 2) = .timer 0 .high 0
      ∧ target defaultCfg (nth 0x04000100 3) = .timer 0 .high 1)
    ∧ (target defaultCfg 0x0400010C = .timer 3 .low 0 ∧ target defaultCfg (nth 0x0400010C 1) = .timer 3 .low 1
      ∧ target defaultCfg (nth 0x0400010C 2) = .timer 3 .high 0
      ∧ target defaultCfg (nth 0x0400010C 3) = .timer 3 .high 1)
    ∧ (target defaultCfg 0x04000106 = .timer 1 .high 0 ∧ target defaultCfg (nth 0x04000106 1) = .timer 1 .high 1)
    ∧ (condPasses sd.cond st = true
      ∧ target st.cfg (sdtEa { sd with off := 3 } (st.setReg sd.rn 0x04000100)) = .timer 0 .high 1) := by decide

-- A word read that straddles two channels from lane 1 of a high half: three interactions, in ascending order.
theorem test_timer_keys : timerKeys defaultCfg 0x04000103 4 = [(0, .high), (1, .low), (1, .high)]
    ∧ timerKeys defaultCfg 0x0400010E 4 = [(3, .high)] := by decide

-- Both clauses, before and after the first step.
theorem witness_ImageLoading : State.reset.imagesLoaded = false ∧ (retire State.reset).imagesLoaded = true := by decide

theorem witness_HostNeverWritesRegisters : HostAction.raiseIF 5 ≠ .step ∧ HostAction.raiseIF 5 ≠ .reset
    ∧ (∃ t, hostAct (.raiseIF 5) st = .next t) ∧ ∃ t, hostAct (.write 0x04000204 .word 5) st = .next t :=
  ⟨by decide, by decide, ⟨_, rfl⟩, ⟨_, rfl⟩⟩

end Sys2Proof.Tests
end

section
/-! The bus statements of 20_memory.md: the region table, the interrupt registers, plain storage and image loading. -/

namespace Sys2Proof.Machine

open Sys2Proof.Claims

/-! The region table. -/

/-- Containment with the end of the region written out (20_memory.md R41). -/
theorem inRegion_iff_bounds {r : Region} {a : Word} :
    inRegion r a = true ↔ r.base ≤ a.toNat ∧ a.toNat < r.base + r.size := by
  rw [inRegion_iff]
  omega

/-- The regions by kind, in precedence order (20_memory.md R40). -/
def regionTable (c : Cfg) : List (RegionKind × Region) :=
  [(.boot, c.boot), (.gram, c.gram), (.sram, c.sram), (.cart, c.cart), (.io, c.io)]

/-- `resolve` is the search for the first region of the table that contains the address (20_memory.md R42). -/
theorem resolve_eq_find? (c : Cfg) (a : Word) :
    resolve c a = ((regionTable c).find? fun e => inRegion e.2 a).map Prod.fst := by
  unfold resolve regionTable
  split_ifs <;> simp [*]

/-- In a table with different keys, the search answers the key at position `p` exactly when the entry there passes the
test and no entry before it does. -/
theorem map_find?_eq_getElem?_iff {α β : Type} {l : List (α × β)} (hnd : (l.map Prod.fst).Nodup) {test : β → Bool}
    {p : Nat} (hp : p < l.length) :
    (l.find? fun e => test e.2).map Prod.fst = (l.map Prod.fst)[p]?
      ↔ (∃ r ∈ (l.map Prod.snd)[p]?, test r = true) ∧ ∀ q < p, ∀ r ∈ (l.map Prod.snd)[q]?, ¬ test r = true := by
  have hkey : ∀ (i : Nat) (hi : i < l.length), l[i].1 = l[p].1 → i = p := fun i hi he =>
    (hnd.getElem_inj_iff (hi := by simpa using hi) (hj := by simpa using hp)).1 (by simpa using he)
  simp only [List.getElem?_map, List.getElem?_eq_getElem hp, Option.map_some, Option.map_eq_some_iff,
    List.find?_eq_some_iff_getElem, Option.mem_def, Option.some.injEq, exists_eq_left', Bool.not_eq_true',
    Bool.not_eq_true]
  constructor
  · rintro ⟨_, ⟨htest, i, hi, rfl, hbefore⟩, hk⟩
    obtain rfl := hkey i hi hk
    refine ⟨htest, ?_⟩
    rintro q hq _ ⟨e, he, rfl⟩
    obtain ⟨_, rfl⟩ := List.getElem?_eq_some_iff.1 he
    exact hbefore q hq
  · rintro ⟨htest, hbefore⟩
    exact ⟨l[p], ⟨htest, p, hp, rfl, fun q hq =>
      hbefore q hq l[q].2 ⟨l[q], List.getElem?_eq_getElem (by omega), rfl⟩⟩, rfl⟩

/-! The addresses and the bytes of an access, by byte number. -/

/-- The addresses of an access are its bytes in order (20_memory.md R44). -/
theorem byteAddrs_eq_map_nth (addr : Word) (n : Nat) : byteAddrs addr n = (List.range n).map (nth addr) :=
  byteAddrs_eq_map addr n

theorem mem_byteAddrs_nth {addr a : Word} {n : Nat} : a ∈ byteAddrs addr n ↔ ∃ k < n, a = nth addr k := mem_byteAddrs

theorem nth_nth (addr : Word) (j k : Nat) : nth (nth addr j) k = nth addr (j + k) := by
  simp only [nth, BitVec.ofNat_add, BitVec.add_assoc]

theorem bytesFrom_eq_map (v : Word) (j n : Nat) : bytesFrom v j n = (List.range n).map fun k => byteOf v (j + k) := by
  induction n generalizing j with
  | zero => rfl
  | succ n ih =>
    rw [bytesFrom, ih, List.range_succ_eq_map]
    simp [Function.comp_def, Nat.add_assoc, Nat.add_comm 1]

theorem zip_byteAddrs_bytesFrom (addr v : Word) (n : Nat) :
    (byteAddrs addr n).zip (bytesFrom v 0 n) = (List.range n).map fun k => (nth addr k, byteOf v k) := by
  simp [byteAddrs_eq_map_nth, bytesFrom_eq_map, List.zip_map']

theorem getLsbD_byteOf (v : Word) (k i : Nat) : (byteOf v k).getLsbD i = (decide (i < 8) && v.getLsbD (8 * k + i)) := by
  simp [byteOf, BitVec.getLsbD_extractLsb']

/-- The value of `n` bytes of a word from byte `j` on, bit by bit. -/
theorem getLsbD_wordOfBytes_bytesFrom (v : Word) (j n i : Nat) (hi : i < 32) :
    (wordOfBytes (bytesFrom v j n)).getLsbD i = (decide (i < 8 * n) && v.getLsbD (8 * j + i)) := by
  rw [getLsbD_wordOfBytes _ _ hi, bytesFrom_eq_map]
  by_cases h : i < 8 * n
  · have hn : i / 8 < n := by omega
    have h8 : i % 8 < 8 := by omega
    simp only [List.getD_eq_getElem?_getD, List.getElem?_map, List.getElem?_range hn, Option.map_some,
      Option.getD_some, getLsbD_byteOf, h, h8, show 8 * (j + i / 8) + i % 8 = 8 * j + i by omega]
  · simp [List.getD_eq_getElem?_getD, h, show ¬ i / 8 < n by omega]

theorem wordOfBytes_bytesFrom_word (v : Word) : wordOfBytes (bytesFrom v 0 4) = v := by
  apply BitVec.eq_of_getLsbD_eq
  intro i hi
  rw [getLsbD_wordOfBytes_bytesFrom _ _ _ _ hi]
  simp [show i < 8 * 4 by omega]

theorem wordOfBytes_bytesFrom_half (v : Word) (j : Nat) :
    wordOfBytes (bytesFrom v j 2) = (v.extractLsb' (8 * j) 16).zeroExtend 32 := by
  apply BitVec.eq_of_getLsbD_eq
  intro i hi
  rw [getLsbD_wordOfBytes_bytesFrom _ _ _ _ hi]
  simp [hi]

theorem wordOfBytes_bytesFrom_byte (v : Word) (j : Nat) :
    wordOfBytes (bytesFrom v j 1) = (v.extractLsb' (8 * j) 8).zeroExtend 32 := wordOfBytes_byte _

/-- A byte of a word, zero-extended, as a shift and a mask. -/
theorem zeroExtend_extractLsb'_byte (v : Word) (j : Nat) :
    (v.extractLsb' j 8).zeroExtend 32 = (v >>> j) &&& 0xFF#32 := by
  apply BitVec.eq_of_getLsbD_eq
  intro i hi
  have hff : (0xFF#32).getLsbD i = decide (i < 8) := by decide +revert
  simp only [BitVec.zeroExtend_eq_setWidth, BitVec.getLsbD_setWidth, BitVec.getLsbD_extractLsb', BitVec.getLsbD_and,
    BitVec.getLsbD_ushiftRight, hff, hi, decide_true, Bool.true_and, Bool.and_comm]

/-! Reads of bytes the CORE holds. -/

/-- A byte that the CORE holds is no timer byte. -/
theorem isTimer_of_peek {s : State} {a : Word} {b : Byte} (h : s.peek a = some b) : isTimer s.cfg a = false := by
  cases ht : target s.cfg a with
  | timer ch half l => rw [State.peek, ht] at h; cases h
  | _ => simp only [isTimer, ht]

/-- A read of bytes that the CORE holds, those of `v` from byte `j` on: their value, and the InvalidAddress event if
there is one. -/
theorem readN_of_peek {s : State} {addr : Word} {n : Width} {v : Word} {j : Nat}
    (h : ∀ k < n.bytes, s.peek (nth addr k) = some (byteOf v (j + k))) (kind : AccessKind) :
    readN kind addr n s = (wordOfBytes (bytesFrom v j n.bytes), noteUnmapped kind addr n s) := by
  rw [readN_of_not_timer, byteAddrs_eq_map_nth, bytesFrom_eq_map, List.map_map]
  · congr 2
    refine List.map_congr_left fun k hk => ?_
    simp [h k (List.mem_range.1 hk)]
  · simp only [mem_byteAddrs_nth]
    rintro _ ⟨k, hk, rfl⟩
    exact isTimer_of_peek (h k hk)

/-- An access whose bytes are all mapped has no InvalidAddress event. -/
theorem noteUnmapped_of_mapped {s : State} {addr : Word} {n : Width}
    (h : ∀ k < n.bytes, target s.cfg (nth addr k) ≠ .unmapped) (kind : AccessKind) :
    noteUnmapped kind addr n s = s := by
  refine if_neg ?_
  simp only [List.any_eq_true, mem_byteAddrs_nth, isUnmapped, beq_iff_eq]
  rintro ⟨_, ⟨k, hk, rfl⟩, hu⟩
  exact h k hk hu

/-! Plain storage. -/

/-- After a write access, a plain byte of it holds the byte written (20_memory.md R52). -/
theorem peek_writeN_of_plain {s : State} (hi : s.Inv) {addr : Word} {n : Width} {k : Nat} (hk : k < n.bytes)
    (hp : plainByte s.cfg (nth addr k)) (kind : AccessKind) (v : Word) :
    (writeN kind addr n v s).peek (nth addr k) = some (byteOf v k) := by
  rw [(sameBus_writeN kind addr n v s).peek]
  have hm : (nth addr k, byteOf v k) ∈ (byteAddrs addr n.bytes).zip (bytesFrom v 0 n.bytes) := by
    rw [zip_byteAddrs_bytesFrom]
    exact List.mem_map_of_mem (List.mem_range.2 hk)
  have hnd : (((byteAddrs addr n.bytes).zip (bytesFrom v 0 n.bytes)).map Prod.fst).Nodup := by
    rw [List.map_fst_zip (by simp)]
    exact byteAddrs_nodup addr (by cases n <;> decide)
  rw [peek_writeBytes_of_mem hnd hm hi]
  obtain ⟨o, ho | ho | ho⟩ := hp <;> rw [ho] <;> rfl

/-! A word after stores to its byte lanes. -/

/-- A word after bytes are stored to its lanes from lane `l` on. -/
def storeLanes (lane : Word → Nat → Byte → Word) : Word → Nat → List Byte → Word
  | w, _, [] => w
  | w, l, b :: bs => storeLanes lane (lane w l b) (l + 1) bs

theorem getLsbD_storeLanes_setLane (w v : Word) (j k n i : Nat) (hi : i < 32) :
    (storeLanes setLane w j (bytesFrom v k n)).getLsbD i
      = if 8 * j ≤ i ∧ i < 8 * (j + n) then v.getLsbD (8 * k + (i - 8 * j)) else w.getLsbD i := by
  induction n generalizing w j k with
  | zero => rw [if_neg (by omega)]; rfl
  | succ n ih =>
    rw [bytesFrom, storeLanes, ih, getLsbD_setLane _ _ _ _ hi, getLsbD_byteOf]
    by_cases hin : 8 * j ≤ i ∧ i < 8 * j + 8
    · rw [if_neg (by omega), if_pos hin, if_pos (by omega)]
      simp [show i - 8 * j < 8 by omega]
    · rw [if_neg hin]
      by_cases hafter : 8 * (j + 1) ≤ i ∧ i < 8 * (j + 1 + n)
      · rw [if_pos hafter, if_pos (by omega)]
        congr 1
        omega
      · rw [if_neg hafter, if_neg (by omega)]

theorem getLsbD_storeLanes_clearLane (w v : Word) (j k n i : Nat) (hi : i < 32) :
    (storeLanes clearLane w j (bytesFrom v k n)).getLsbD i
      = (w.getLsbD i && !(decide (8 * j ≤ i ∧ i < 8 * (j + n)) && v.getLsbD (8 * k + (i - 8 * j)))) := by
  induction n generalizing w j k with
  | zero => simp [bytesFrom, storeLanes]; omega
  | succ n ih =>
    rw [bytesFrom, storeLanes, ih, getLsbD_clearLane _ _ _ _ hi, getLsbD_byteOf]
    by_cases hin : 8 * j ≤ i ∧ i < 8 * j + 8
    · simp [hin, show i - 8 * j < 8 by omega, show ¬ 8 * (j + 1) ≤ i by omega, show i < 8 * (j + (n + 1)) by omega]
    · by_cases hafter : 8 * (j + 1) ≤ i ∧ i < 8 * (j + 1 + n)
      · simp [hafter, show ¬ i < 8 * j + 8 by omega, show 8 * j ≤ i by omega, show i < 8 * (j + (n + 1)) by omega,
          show 8 * (k + 1) + (i - 8 * (j + 1)) = 8 * k + (i - 8 * j) by omega]
      · simp [hin, hafter, show ¬ (8 * j ≤ i ∧ i < 8 * (j + (n + 1))) by omega]

theorem storeLanes_setLane_word (w v : Word) : storeLanes setLane w 0 (bytesFrom v 0 4) = v := by
  apply BitVec.eq_of_getLsbD_eq
  intro i hi
  rw [getLsbD_storeLanes_setLane _ _ _ _ _ _ hi, if_pos (by omega)]
  simp

theorem storeLanes_setLane_upperHalf (w v : Word) :
    storeLanes setLane w 2 (bytesFrom v 0 2) = v.extractLsb' 0 16 ++ w.extractLsb' 0 16 := by
  apply BitVec.eq_of_getLsbD_eq
  intro i hi
  rw [getLsbD_storeLanes_setLane _ _ _ _ _ _ hi]
  simp only [BitVec.getLsbD_append, BitVec.getLsbD_extractLsb']
  by_cases h : i < 16
  · simp [h, show ¬ 16 ≤ i by omega]
  · simp [h, show 16 ≤ i by omega, show i < 32 by omega, show i - 16 < 16 by omega]

theorem laneReplaced_storeLanes (w v : Word) (l : Nat) :
    LaneReplaced w (storeLanes setLane w l (bytesFrom v 0 1)) l v := by
  intro i hi
  rw [getLsbD_storeLanes_setLane _ _ _ _ _ _ hi]
  by_cases h : i / 8 = l
  · rw [if_pos (by omega), if_pos h]
    congr 1
    omega
  · rw [if_neg (by omega), if_neg h]

theorem storeLanes_clearLane_word (w m : Word) : storeLanes clearLane w 0 (bytesFrom m 0 4) = w &&& ~~~m := by
  apply BitVec.eq_of_getLsbD_eq
  intro i hi
  rw [getLsbD_storeLanes_clearLane _ _ _ _ _ _ hi]
  simp [hi]

theorem storeLanes_clearLane_byte (w m : Word) (l : Nat) :
    storeLanes clearLane w l (bytesFrom m 0 1) = w &&& ~~~((m &&& 0xFF#32) <<< (8 * l)) := by
  have hlow := zeroExtend_extractLsb'_byte m 0
  rw [BitVec.ushiftRight_zero] at hlow
  rw [← hlow]
  rfl

/-! The registers of the I/O window, by byte lanes. -/

/-- Is the target a byte lane of IE, IF or IME (20_memory.md R56)? -/
def Target.isRegister : Target → Bool
  | .ie _ | .ifr _ | .ime _ => true
  | _ => false

/-- A register lane is no timer byte, it is mapped, and it is writable. -/
theorem clean_of_isRegister {c : Cfg} {a : Word} (h : (target c a).isRegister = true) :
    isTimer c a = false ∧ isUnmapped c a = false ∧ isReadOnly c a = false := by
  cases ht : target c a <;> simp_all [Target.isRegister, isTimer, isUnmapped, isReadOnly]

/-- A register the bus reaches by byte lanes: a store to lane `l` changes the register by `lane` and nothing else, and
lane `l` holds its byte (20_memory.md R57, R58). -/
structure IsLaneRegister (T : Nat → Target) (lane : Word → Nat → Byte → Word) (get : State → Word)
    (put : State → Word → State) : Prop where
  isRegister : ∀ l, (T l).isRegister = true
  store : ∀ l b s, storeAt (T l) b s = put s (lane (get s) l b)
  held : ∀ l s, s.held (T l) = some (byteOf (get s) l)
  get_put : ∀ s w, get (put s w) = w
  put_put : ∀ s w w', put (put s w) w' = put s w'
  put_get : ∀ s, put s (get s) = s

theorem isLaneRegister_ie : IsLaneRegister .ie setLane State.ie fun s w => { s with ie := w } :=
  ⟨fun _ => rfl, fun _ _ _ => rfl, fun _ _ => rfl, fun _ _ => rfl, fun _ _ _ => rfl, fun _ => rfl⟩

theorem isLaneRegister_ifr : IsLaneRegister .ifr clearLane State.ifr fun s w => { s with ifr := w } :=
  ⟨fun _ => rfl, fun _ _ _ => rfl, fun _ _ => rfl, fun _ _ => rfl, fun _ _ _ => rfl, fun _ => rfl⟩

theorem isLaneRegister_ime : IsLaneRegister .ime setLane State.ime fun s w => { s with ime := w } :=
  ⟨fun _ => rfl, fun _ _ _ => rfl, fun _ _ => rfl, fun _ _ => rfl, fun _ _ _ => rfl, fun _ => rfl⟩

namespace IsLaneRegister

variable {T : Nat → Target} {lane : Word → Nat → Byte → Word} {get : State → Word} {put : State → Word → State}

/-- Byte stores to the lanes of a register from lane `j` on. -/
theorem writeBytes_eq (h : IsLaneRegister T lane get put) {bs : List Byte} {addr : Word} {j : Nat} {s : State}
    (ht : ∀ k < bs.length, target s.cfg (nth addr k) = T (j + k)) :
    writeBytes ((byteAddrs addr bs.length).zip bs) s = put s (storeLanes lane (get s) j bs) := by
  induction bs generalizing addr j s with
  | nil => exact (h.put_get s).symm
  | cons b bs ih =>
    have h0 : target s.cfg addr = T j := by simpa [nth] using ht 0 (by simp)
    have hfirst : writeByte addr b s = put s (lane (get s) j b) := by rw [writeByte, h0, h.store]
    have hrest : ∀ k < bs.length, target (writeByte addr b s).cfg (nth (addr + 1#32) k) = T (j + 1 + k) := by
      intro k hk
      rw [writeByte_cfg, Nat.add_assoc, ← ht (1 + k) (by simp; omega), ← nth_nth]
      rfl
    simp only [List.length_cons, byteAddrs, List.zip_cons_cons, writeBytes, storeLanes]
    rw [ih hrest, hfirst, h.get_put, h.put_put]

/-- A write access to the lanes of a register from lane `j` on: the register's new value, and nothing else. -/
theorem writeN_eq (h : IsLaneRegister T lane get put) {n : Width} {addr : Word} {j : Nat} {s : State}
    (ht : ∀ k < n.bytes, target s.cfg (nth addr k) = T (j + k)) (kind : AccessKind) (v : Word) :
    writeN kind addr n v s = put s (storeLanes lane (get s) j (bytesFrom v 0 n.bytes)) := by
  have hclean : ∀ a ∈ byteAddrs addr n.bytes,
      isTimer s.cfg a = false ∧ isUnmapped s.cfg a = false ∧ isReadOnly s.cfg a = false := by
    simp only [mem_byteAddrs_nth]
    rintro _ ⟨k, hk, rfl⟩
    exact clean_of_isRegister (by rw [ht k hk, h.isRegister])
  rw [writeN_of_clean hclean, ← h.writeBytes_eq (bs := bytesFrom v 0 n.bytes) (addr := addr) (by simpa using ht),
    bytesFrom_length]

/-- A read access to the lanes of a register from lane `j` on: the register's bytes, and no effect. -/
theorem readN_eq (h : IsLaneRegister T lane get put) {n : Width} {addr : Word} {j : Nat} {s : State}
    (ht : ∀ k < n.bytes, target s.cfg (nth addr k) = T (j + k)) (kind : AccessKind) :
    readN kind addr n s = (wordOfBytes (bytesFrom (get s) j n.bytes), s) := by
  rw [readN_of_peek fun k hk => by rw [State.peek, ht k hk, h.held], noteUnmapped_of_mapped]
  intro k hk hu
  have := h.isRegister (j + k)
  rw [← ht k hk, hu] at this
  cases this

section
variable (h : IsLaneRegister T lane get put) {addr : Word} {s : State}
  (ht : ∀ k < 4, target s.cfg (nth addr k) = T k) (kind : AccessKind) (v : Word)
include h ht

theorem readN_word : readN kind addr .word s = (get s, s) := by
  rw [h.readN_eq (j := 0) fun k hk => by rw [Nat.zero_add]; exact ht k hk, Width.bytes, wordOfBytes_bytesFrom_word]

theorem readN_byte {l : Nat} (hl : l < 4) :
    readN kind (nth addr l) .byte s = ((get s >>> (8 * l)) &&& 0xFF#32, s) := by
  rw [h.readN_eq (j := l), Width.bytes, wordOfBytes_bytesFrom_byte, zeroExtend_extractLsb'_byte]
  intro k hk
  have hk : k < 1 := hk
  rw [nth_nth, ht (l + k) (by omega)]

theorem writeN_word : writeN kind addr .word v s = put s (storeLanes lane (get s) 0 (bytesFrom v 0 4)) :=
  h.writeN_eq (n := .word) (fun k hk => by rw [Nat.zero_add]; exact ht k hk) kind v

theorem writeN_upperHalf :
    writeN kind (addr + 2) .half v s = put s (storeLanes lane (get s) 2 (bytesFrom v 0 2)) := by
  refine h.writeN_eq (n := .half) (fun k hk => ?_) kind v
  have hk : k < 2 := hk
  exact (congrArg (target s.cfg) (nth_nth addr 2 k)).trans (ht (2 + k) (by omega))

theorem writeN_byte {l : Nat} (hl : l < 4) :
    writeN kind (nth addr l) .byte v s = put s (storeLanes lane (get s) l (bytesFrom v 0 1)) := by
  refine h.writeN_eq (n := .byte) (fun k hk => ?_) kind v
  have hk : k < 1 := hk
  rw [nth_nth, ht (l + k) (by omega)]

end

/-- The whole of R57 for a register that is direct storage by byte lanes. -/
theorem directStorage (h : IsLaneRegister T setLane get put) {addr : Word} {s : State}
    (ht : ∀ k < 4, target s.cfg (nth addr k) = T k) (kind : AccessKind) (v : Word) :
    writeN kind addr .word v s = put s v
    ∧ writeN kind (addr + 2) .half v s = put s (v.extractLsb' 0 16 ++ (get s).extractLsb' 0 16)
    ∧ (∀ l < 4, ∃ w, writeN kind (nth addr l) .byte v s = put s w ∧ LaneReplaced (get s) w l v)
    ∧ readN kind addr .word s = (get s, s)
    ∧ ∀ l < 4, readN kind (nth addr l) .byte s = ((get s >>> (8 * l)) &&& 0xFF#32, s) := by
  refine ⟨?_, ?_, fun l hl => ⟨_, h.writeN_byte ht kind v hl, laneReplaced_storeLanes _ v l⟩,
    h.readN_word ht kind, fun l hl => h.readN_byte ht kind hl⟩
  · rw [h.writeN_word ht kind v, storeLanes_setLane_word]
  · rw [h.writeN_upperHalf ht kind v, storeLanes_setLane_upperHalf]

end IsLaneRegister

/-! What an instruction does to the bus's storage, and to IF. -/

section
variable {s t : State}

theorem sameBus_of_whenCond {cond : Cond} {body : State → State} (h : whenCond cond body s = .next t)
    (hb : SameBus s (body s)) : SameBus s t := by
  obtain ⟨-, rfl⟩ | ⟨-, rfl⟩ := whenCond_cases h
  · exact hb
  · exact SameBus.refl _

theorem SameBus.setNZ (r : Word) (s : State) : SameBus s (setNZ r s) :=
  ⟨rfl, rfl, rfl, rfl, rfl, rfl, rfl, rfl, rfl, rfl⟩

theorem SameBus.addFlags (a b r : Word) (s : State) : SameBus s (addFlags a b r s) :=
  ⟨rfl, rfl, rfl, rfl, rfl, rfl, rfl, rfl, rfl, rfl⟩

theorem SameBus.subFlags (a b r : Word) (s : State) : SameBus s (subFlags a b r s) :=
  ⟨rfl, rfl, rfl, rfl, rfl, rfl, rfl, rfl, rfl, rfl⟩

/-- An optional update that keeps the storage keeps it. -/
theorem SameBus.ite {p : Prop} [Decidable p] {u : State} (h : SameBus s t) (h' : SameBus t u) :
    SameBus s (if p then u else t) := by
  split
  · exact h.trans h'
  · exact h

theorem sameBus_execLogical {op : Word → Word → Word} {f : DpArgs} (h : execLogical op f s = .next t) :
    SameBus s t :=
  sameBus_of_whenCond h ((SameBus.setReg s _ _).ite (SameBus.setNZ _ _))

theorem sameBus_subTo (f : DpArgs) (a b : Word) (s : State) : SameBus s (subTo f a b s) :=
  (SameBus.setReg s _ _).ite (SameBus.subFlags _ _ _ _)

theorem sameBus_execUnknownDp {opcode : BitVec 4} {f : DpArgs} (h : execUnknownDp opcode f s = .next t) :
    SameBus s t :=
  sameBus_of_whenCond h (SameBus.emit _ s)

theorem sameBus_loadTo (n : Width) (f : SdtArgs) (s : State) : SameBus s (loadTo n f s) :=
  ((drew_readN _ _ _ s).sameBus.ite (SameBus.setReg _ _ _)).trans (SameBus.setReg _ _ _)

theorem sameBus_execLdm {f : BlockArgs} (h : execLdm f s = .next t) : SameBus s t :=
  sameBus_of_whenCond h (((SameBus.refl s).ite (SameBus.setReg _ _ _)).trans (loadRegs_frame _ _ _).1)

theorem sameBus_writeLowNZ (rd : LowReg) (r : Word) (s : State) : SameBus s (writeLowNZ rd r s) :=
  (SameBus.setReg s _ _).trans (SameBus.setNZ _ _)

/-- Every instruction but STR, STRB and STM leaves the bus's storage as it is (40_execution_cycle.md R121). -/
theorem sameBus_exec {i : Instr} (h : exec i s = .next t) (hst : ∀ f, i ≠ .str f ∧ i ≠ .strb f)
    (hstm : ∀ f, i ≠ .stm f) : SameBus s t := by
  unfold exec at h
  cases i with
  | str f => exact absurd rfl (hst f).1
  | strb f => exact absurd rfl (hst f).2
  | stm f => exact absurd rfl (hstm f)
  | swi | coprocUnknown => exact sameBus_of_whenCond h (SameBus.emit _ s)
  | b => exact sameBus_of_whenCond h (SameBus.setReg s _ _)
  | bl => exact sameBus_of_whenCond h ((SameBus.setReg s _ _).trans (SameBus.setReg _ _ _))
  | bx => exact sameBus_of_whenCond h ⟨rfl, rfl, rfl, rfl, rfl, rfl, rfl, rfl, rfl, rfl⟩
  | armAnd | armEor | armOrr | mov => exact sameBus_execLogical h
  | sub | rsb => exact sameBus_of_whenCond h (sameBus_subTo _ _ _ s)
  | add => exact sameBus_of_whenCond h ((SameBus.setReg s _ _).ite (SameBus.addFlags _ _ _ _))
  | cmp => exact sameBus_of_whenCond h (SameBus.subFlags _ _ _ s)
  | adcUnknown | sbcUnknown | rscUnknown | tstUnknown | teqUnknown | cmnUnknown | bicUnknown | mvnUnknown =>
    exact sameBus_execUnknownDp h
  | ldr | ldrb => exact sameBus_of_whenCond h (sameBus_loadTo _ _ s)
  | ldm => exact sameBus_execLdm h
  | lslImm | lsrImm | asrImm | movImm8 | thumbAnd | thumbEor | thumbOrr => cases h; exact sameBus_writeLowNZ _ _ s
  | cmpImm8 => cases h; exact SameBus.subFlags _ _ _ s
  | addImm8 => cases h; exact (SameBus.setReg s _ _).trans (SameBus.addFlags _ _ _ _)
  | subImm8 => cases h; exact (SameBus.setReg s _ _).trans (SameBus.subFlags _ _ _ _)
  | movLow | thumbB => cases h; exact SameBus.setReg s _ _
  | thumbUnknown => cases h; exact SameBus.emit _ s

/-- Every bit of IF that the second state has, the first has: no bit was set. -/
def IfrOnlyCleared (s t : State) : Prop := t.ifr &&& s.ifr = t.ifr

theorem IfrOnlyCleared.of_eq (h : t.ifr = s.ifr) : IfrOnlyCleared s t := by
  rw [IfrOnlyCleared, h, BitVec.and_self]

theorem IfrOnlyCleared.trans {u : State} (h : IfrOnlyCleared s t) (h' : IfrOnlyCleared t u) : IfrOnlyCleared s u := by
  unfold IfrOnlyCleared at *
  calc u.ifr &&& s.ifr = u.ifr &&& (t.ifr &&& s.ifr) := by rw [← BitVec.and_assoc, h']
    _ = u.ifr := by rw [h, h']

theorem IfrOnlyCleared.and_not_eq_zero (h : IfrOnlyCleared s t) : t.ifr &&& ~~~s.ifr = 0#32 := by
  rw [← h, BitVec.and_assoc]
  simp

/-- A store to IF only clears bits; a store to any other target leaves IF (20_memory.md R58). -/
theorem ifrOnlyCleared_storeAt (T : Target) (b : Byte) (s : State) : IfrOnlyCleared s (storeAt T b s) := by
  cases T with
  | ifr l =>
    simp only [IfrOnlyCleared, storeAt, clearLane]
    rw [BitVec.and_assoc, BitVec.and_comm (~~~_), ← BitVec.and_assoc, BitVec.and_self]
  | _ => exact .of_eq rfl

theorem ifrOnlyCleared_writeBytes (bs : List (Word × Byte)) (s : State) : IfrOnlyCleared s (writeBytes bs s) := by
  induction bs generalizing s with
  | nil => exact .of_eq rfl
  | cons p bs ih => exact (ifrOnlyCleared_storeAt _ p.2 s).trans (ih _)

theorem ifrOnlyCleared_writeN (kind : AccessKind) (addr : Word) (n : Width) (v : Word) (s : State) :
    IfrOnlyCleared s (writeN kind addr n v s) :=
  (ifrOnlyCleared_writeBytes _ s).trans (.of_eq (sameBus_writeN kind addr n v s).ifr)

theorem ifrOnlyCleared_storeFrom (n : Width) (f : SdtArgs) (s : State) : IfrOnlyCleared s (storeFrom n f s) :=
  (ifrOnlyCleared_writeN _ _ _ _ s).trans (.of_eq ((SameBus.refl _).ite (SameBus.setReg _ _ _)).ifr)

theorem ifrOnlyCleared_storeRegs (rs : List Reg) (addr : Word) (s : State) :
    IfrOnlyCleared s (storeRegs rs addr s) := by
  induction rs generalizing addr s with
  | nil => exact .of_eq rfl
  | cons r rs ih => exact (ifrOnlyCleared_writeN _ _ _ _ s).trans (ih _ _)

theorem ifrOnlyCleared_of_whenCond {cond : Cond} {body : State → State} (h : whenCond cond body s = .next t)
    (hb : IfrOnlyCleared s (body s)) : IfrOnlyCleared s t := by
  obtain ⟨-, rfl⟩ | ⟨-, rfl⟩ := whenCond_cases h
  · exact hb
  · exact .of_eq rfl

theorem ifrOnlyCleared_execStm {f : BlockArgs} (h : execStm f s = .next t) : IfrOnlyCleared s t :=
  ifrOnlyCleared_of_whenCond h ((ifrOnlyCleared_storeRegs _ _ s).trans
    (.of_eq ((SameBus.refl _).ite (SameBus.setReg _ _ _)).ifr))

/-- No instruction sets a bit of IF (20_memory.md R59). -/
theorem ifrOnlyCleared_exec {i : Instr} (h : exec i s = .next t) : IfrOnlyCleared s t := by
  cases i with
  | str | strb => exact ifrOnlyCleared_of_whenCond h (ifrOnlyCleared_storeFrom _ _ s)
  | stm => exact ifrOnlyCleared_execStm h
  | _ => exact .of_eq (sameBus_exec h (by simp) (by simp)).ifr

theorem ifrOnlyCleared_step (h : step s = .next t) : IfrOnlyCleared s t := by
  obtain ⟨u, hu, rfl⟩ := step_cases h
  have hfetch : (fetchDecode (beginStep s)).2.ifr = s.ifr := (fetchDecode_frame (beginStep s)).1.ifr
  have hu : IfrOnlyCleared (fetchDecode (beginStep s)).2 u := ifrOnlyCleared_exec hu
  exact ((IfrOnlyCleared.of_eq hfetch).trans hu).trans (.of_eq rfl)

end

/-! Image loading. -/

/-- An image load: byte `i` of the array is the image's byte, below the array's size and 0 beyond either (R67). -/
theorem Memory.read_ofBytes_take (bytes : List Byte) (size i : Nat) :
    (Memory.ofBytes 0 (bytes.take size)).read i = if i < size then bytes.getD i 0 else 0 := by
  rw [Memory.read_ofBytes, if_pos (Nat.zero_le i), Nat.sub_zero]
  simp only [List.getD_eq_getElem?_getD, List.getElem?_take]
  split <;> rfl

end Sys2Proof.Machine

namespace Sys2Proof.Claims

open Sys2Proof.Machine

/-- Settles O46: `resolve` searches the table for the first region that contains the address. -/
theorem regionPrecedence : Obligations.RegionPrecedence := by
  intro c a p hp table holds
  have hin : ∀ r : Region, holds r ↔ inRegion r a = true := fun r => inRegion_iff_bounds.symm
  have hkeys : ((regionTable c).map Prod.fst).Nodup := by simp [regionTable]
  simp only [hin, resolve_eq_find?]
  refine ⟨map_find?_eq_getElem?_iff hkeys (test := fun r => inRegion r a) hp, ?_⟩
  simp [table, regionTable]

/-- Settles O51: every byte of the word holds the byte written, so a read takes its value from `v`. -/
theorem readAfterWrite : Obligations.ReadAfterWrite := by
  intro addr v s hi hp
  have hpeek : ∀ k < 4, (writeN .write addr .word v s).peek (nth addr k) = some (byteOf v k) := fun k hk =>
    peek_writeN_of_plain hi (n := .word) hk (hp k hk) .write v
  have hread {a : Word} (n : Width) (j : Nat) (ha : nth addr j = a) (hj : j + n.bytes ≤ 4) :
      (readN .read a n (writeN .write addr .word v s)).1 = wordOfBytes (bytesFrom v j n.bytes) := by
    subst ha
    rw [readN_of_peek fun k hk => by rw [nth_nth, hpeek (j + k) (by omega)]]
  have hzero : nth addr 0 = addr := BitVec.add_zero addr
  refine ⟨?_, ?_, ?_, fun k hk => ?_⟩
  · exact (hread .word 0 hzero (by decide)).trans (wordOfBytes_bytesFrom_word v)
  · exact (hread .half 0 hzero (by decide)).trans (wordOfBytes_bytesFrom_half v 0)
  · exact (hread .half 2 rfl (by decide)).trans (wordOfBytes_bytesFrom_half v 2)
  · exact (hread .byte k rfl (by simp only [Width.bytes]; omega)).trans (wordOfBytes_bytesFrom_byte v k)

/-- Settles O52, by the lanes of IF as a register whose stores clear bits. -/
theorem interruptFlagsWriteOneToClear : Obligations.InterruptFlagsWriteOneToClear := by
  intro addr s kind ht
  have hword : ∀ (u : State) (m : Word), u.cfg = s.cfg →
      writeN kind addr .word m u = { u with ifr := u.ifr &&& ~~~m } := by
    intro u m hc
    rw [isLaneRegister_ifr.writeN_word (fun k hk => by rw [hc, ht k hk]) kind m, storeLanes_clearLane_word]
  refine ⟨fun m => ⟨hword s m rfl, ?_⟩, fun m l hl => ?_, isLaneRegister_ifr.readN_word ht kind,
    fun l hl => isLaneRegister_ifr.readN_byte ht kind hl⟩
  · rw [hword s m rfl, hword { s with ifr := s.ifr &&& ~~~m } m rfl]
    simp only [BitVec.and_assoc, BitVec.and_self]
  · rw [isLaneRegister_ifr.writeN_byte ht kind m hl, storeLanes_clearLane_byte]

/-- Settles O53: IE and IME are each direct storage by byte lanes. -/
theorem interruptEnablesAreStorage : Obligations.InterruptEnablesAreStorage := by
  intro addr s kind v
  exact ⟨fun ht => isLaneRegister_ie.directStorage ht kind v, fun ht => isLaneRegister_ime.directStorage ht kind v⟩

/-- Settles O37, by the host's action: a step and a host write only clear bits of IF, a reset clears them all, and a
read or an image load leaves IF. -/
theorem interruptFlagsSetOnlyByEnvironment : Obligations.InterruptFlagsSetOnlyByEnvironment := by
  refine ⟨fun act s t hact h => IfrOnlyCleared.and_not_eq_zero ?_, fun _ _ => rfl⟩
  cases act with
  | loadBootImage bytes =>
    simp only [hostAct, loadBootImage] at h
    split at h <;> cases h
    exact .of_eq rfl
  | loadImage bytes =>
    simp only [hostAct, loadImage] at h
    split at h <;> cases h
    exact .of_eq rfl
  | step => exact ifrOnlyCleared_step h
  | reset =>
    cases h
    exact BitVec.zero_and
  | read addr n =>
    cases h
    exact .of_eq (drew_readN .host addr n (beginStep s)).sameBus.ifr
  | write addr n v =>
    cases h
    exact ifrOnlyCleared_writeN .host addr n v (beginStep s)
  | raiseIF mask => exact absurd rfl (hact mask)

/-- Settles O58, by the `imagesLoaded` test of the two loads. -/
theorem imageLoading : Obligations.ImageLoading := by
  intro bytes s
  refine ⟨fun hfirst => ⟨?_, ?_⟩, fun hlate => ?_⟩
  · refine ⟨{ s with cart := .ofBytes 0 (bytes.take s.cfg.cart.size), events := [] }, ?_, rfl,
      Memory.read_ofBytes_take bytes _⟩
    simp [hostAct, loadImage, hfirst]
  · refine ⟨{ s with boot := .ofBytes 0 (bytes.take s.cfg.boot.size), events := [] }, ?_, rfl,
      Memory.read_ofBytes_take bytes _⟩
    simp [hostAct, loadBootImage, hfirst]
  · simp [hostAct, loadImage, loadBootImage, hlate]

end Sys2Proof.Claims
end

section
/-! The encoding statements of 30_encoding.md: the opcode map (R100) and operand2 (R90, R91). -/

namespace Sys2Proof

/-! A code under the mask of a field. -/

/-- What the mask of one field leaves of a code is the field's value in its place. -/
theorem toNat_and_fieldMask {k : Nat} (w : BitVec k) (lo n : Nat) :
    w.toNat &&& ((2 ^ n - 1) <<< lo) = (w.extractLsb' lo n).toNat <<< lo := by
  refine Nat.eq_of_testBit_eq fun i => ?_
  by_cases hi : lo ≤ i
  · simp [Nat.testBit_shiftLeft, hi, Bool.and_comm]
  · simp [Nat.testBit_shiftLeft, hi]

/-- A code hits a row that fixes one field exactly when the field holds the row's value. -/
theorem and_fieldMask_eq_iff {k lo n : Nat} {w : BitVec k} {v : BitVec n} :
    w.toNat &&& ((2 ^ n - 1) <<< lo) = v.toNat <<< lo ↔ w.extractLsb' lo n = v := by
  rw [toNat_and_fieldMask, Nat.shiftLeft_eq, Nat.shiftLeft_eq, Nat.mul_left_inj (Nat.two_pow_pos lo).ne',
    BitVec.toNat_inj]

/-- A code that has the bits of two masks has those of their union. -/
theorem and_or_eq {x m m' v v' : Nat} (h : x &&& m = v) (h' : x &&& m' = v') : x &&& (m ||| m') = v ||| v' := by
  rw [Nat.and_or_distrib_left, h, h']

/-! The formats of the Thumb decoder (30_encoding.md R97). -/

section
variable {h : Half}

/-- The two fields `decodeThumb` reads of bits [15:11]. -/
theorem top5_fields {v : BitVec 5} (hv : h.extractLsb' 11 5 = v) :
    h.extractLsb' 13 3 = v.extractLsb' 2 3 ∧ h.extractLsb' 11 2 = v.extractLsb' 0 2 :=
  ⟨extractLsb'_sub _ hv 2 3 (by decide), extractLsb'_sub _ hv 0 2 (by decide)⟩

/-- The fields `decodeThumb` reads of bits [15:6]. -/
theorem top10_fields {v : BitVec 10} (hv : h.extractLsb' 6 10 = v) :
    h.extractLsb' 13 3 = v.extractLsb' 7 3 ∧ h.extractLsb' 10 6 = v.extractLsb' 4 6
      ∧ h.extractLsb' 6 4 = v.extractLsb' 0 4 :=
  ⟨extractLsb'_sub _ hv 7 3 (by decide), extractLsb'_sub _ hv 4 6 (by decide), extractLsb'_sub _ hv 0 4 (by decide)⟩

theorem decodeThumb_lslImm (hv : h.extractLsb' 11 5 = 0b00000#5) :
    decodeThumb h = .lslImm (h.extractLsb' 6 5) (lowAt h 3) (lowAt h 0) := by
  simp only [decodeThumb, top5_fields hv]
  rfl

theorem decodeThumb_lsrImm (hv : h.extractLsb' 11 5 = 0b00001#5) :
    decodeThumb h = .lsrImm (h.extractLsb' 6 5) (lowAt h 3) (lowAt h 0) := by
  simp only [decodeThumb, top5_fields hv]
  rfl

theorem decodeThumb_asrImm (hv : h.extractLsb' 11 5 = 0b00010#5) :
    decodeThumb h = .asrImm (h.extractLsb' 6 5) (lowAt h 3) (lowAt h 0) := by
  simp only [decodeThumb, top5_fields hv]
  rfl

theorem decodeThumb_movImm8 (hv : h.extractLsb' 11 5 = 0b00100#5) :
    decodeThumb h = .movImm8 (lowAt h 8) (h.extractLsb' 0 8) := by
  simp only [decodeThumb, top5_fields hv]
  rfl

theorem decodeThumb_cmpImm8 (hv : h.extractLsb' 11 5 = 0b00101#5) :
    decodeThumb h = .cmpImm8 (lowAt h 8) (h.extractLsb' 0 8) := by
  simp only [decodeThumb, top5_fields hv]
  rfl

theorem decodeThumb_addImm8 (hv : h.extractLsb' 11 5 = 0b00110#5) :
    decodeThumb h = .addImm8 (lowAt h 8) (h.extractLsb' 0 8) := by
  simp only [decodeThumb, top5_fields hv]
  rfl

theorem decodeThumb_subImm8 (hv : h.extractLsb' 11 5 = 0b00111#5) :
    decodeThumb h = .subImm8 (lowAt h 8) (h.extractLsb' 0 8) := by
  simp only [decodeThumb, top5_fields hv]
  rfl

theorem decodeThumb_thumbAnd (hv : h.extractLsb' 6 10 = 0b0100000000#10) :
    decodeThumb h = .thumbAnd (lowAt h 3) (lowAt h 0) := by
  simp only [decodeThumb, top10_fields hv]
  rfl

theorem decodeThumb_thumbEor (hv : h.extractLsb' 6 10 = 0b0100000001#10) :
    decodeThumb h = .thumbEor (lowAt h 3) (lowAt h 0) := by
  simp only [decodeThumb, top10_fields hv]
  rfl

theorem decodeThumb_thumbOrr (hv : h.extractLsb' 6 10 = 0b0100001100#10) :
    decodeThumb h = .thumbOrr (lowAt h 3) (lowAt h 0) := by
  simp only [decodeThumb, top10_fields hv]
  rfl

theorem decodeThumb_movLow (hv : h.extractLsb' 6 10 = 0b0100011000#10) :
    decodeThumb h = .movLow (lowAt h 3) (lowAt h 0) := by
  simp only [decodeThumb, top10_fields hv, hv]
  rfl

theorem decodeThumb_thumbB (hv : h.extractLsb' 11 5 = 0b11100#5) :
    decodeThumb h = .thumbB (h.extractLsb' 0 11) := by
  simp only [decodeThumb, top5_fields hv]
  rfl

end

/-! Classes of ARM words (30_encoding.md R86). -/

theorem flagAt_cases (w : Word) (i : Nat) :
    (w.extractLsb' i 1 = 0#1 ∧ flagAt w i = false) ∨ (w.extractLsb' i 1 = 1#1 ∧ flagAt w i = true) := by
  unfold flagAt
  rcases BitVec.eq_zero_or_eq_one (w.extractLsb' i 1) with h | h <;> simp [h]

/-- The five classes that bits [27:25] tell apart. -/
theorem top3_cases (w : Word) : w.extractLsb' 26 2 = 0b00#2 ∨ w.extractLsb' 26 2 = 0b01#2
    ∨ w.extractLsb' 25 3 = 0b100#3 ∨ w.extractLsb' 25 3 = 0b101#3 ∨ w.extractLsb' 26 2 = 0b11#2 := by
  have hsub : w.extractLsb' 26 2 = (w.extractLsb' 25 3).extractLsb' 1 2 := extractLsb'_sub w rfl 1 2 (by decide)
  have hclass : ∀ c : BitVec 3, c.extractLsb' 1 2 = 0b00#2 ∨ c.extractLsb' 1 2 = 0b01#2 ∨ c = 0b100#3 ∨ c = 0b101#3
      ∨ c.extractLsb' 1 2 = 0b11#2 := by decide
  rw [hsub]
  exact hclass _

/-! Rotations and masks of words. -/

/-- A rotation right takes its bits from further up, modulo the width. -/
theorem getLsbD_rotateRight_mod {k : Nat} (x : BitVec k) (r : Nat) {j : Nat} (hj : j < k) :
    (x.rotateRight r).getLsbD j = x.getLsbD ((j + r) % k) := by
  have hr : r % k < k := Nat.mod_lt _ (by omega)
  rw [BitVec.getLsbD_rotateRight, Nat.add_mod, Nat.mod_eq_of_lt hj]
  by_cases hlt : j < k - r % k
  · rw [Nat.mod_eq_of_lt (by omega : j + r % k < k)]
    simp [hlt, Nat.add_comm]
  · rw [Nat.mod_eq_sub_mod (by omega : k ≤ j + r % k), Nat.mod_eq_of_lt (by omega : j + r % k - k < k)]
    simp [hlt, hj]
    congr 1; omega

/-- A rotation left undoes the rotation right by the same amount. -/
theorem rotateLeft_rotateRight {k : Nat} (x : BitVec k) (r : Nat) : (x.rotateRight r).rotateLeft r = x := by
  refine BitVec.eq_of_getLsbD_eq fun j hj => ?_
  have hr : r % k < k := Nat.mod_lt _ (by omega)
  rw [BitVec.getLsbD_rotateLeft]
  by_cases hlt : j < r % k
  · simp [hlt, hj]
    omega
  · have hback : r % k + (j - r % k) = j := by omega
    have hlt' : j - r % k < k - r % k := by omega
    simp only [hlt, hj, hlt', decide_true, decide_false, cond_true, cond_false, Bool.true_and,
      BitVec.getLsbD_rotateRight, hback]

/-- A zero-extended byte has no bit above its own eight. -/
theorem zeroExtend_and_byteMask (b : Byte) : b.zeroExtend 32 &&& 0xFF#32 = b.zeroExtend 32 := by
  have hmask : 0xFF#32 = (BitVec.allOnes 8).zeroExtend 32 := rfl
  rw [hmask, BitVec.zeroExtend_eq_setWidth, BitVec.zeroExtend_eq_setWidth, ← BitVec.setWidth_and, BitVec.and_allOnes]

end Sys2Proof

namespace Sys2Proof.Machine

/-! Operand2 (30_encoding.md R90, R91). -/

@[simp] theorem op2Value_imm (rot : BitVec 4) (imm8 : Byte) (s : State) :
    op2Value (.imm rot imm8) s = (imm8.zeroExtend 32).rotateRight (2 * rot.toNat) := rfl

@[simp] theorem op2Value_reg (ignored : BitVec 8) (rm : Reg) (s : State) : op2Value (.reg ignored rm) s = s.reg rm := rfl

theorem dpArgsOf_op2_imm {w : Word} (h : w.getLsbD 25 = true) :
    (dpArgsOf w).op2 = .imm (w.extractLsb' 8 4) (w.extractLsb' 0 8) := by
  simp only [dpArgsOf, flagAt_eq, h, if_true]

theorem dpArgsOf_op2_reg {w : Word} (h : w.getLsbD 25 = false) :
    (dpArgsOf w).op2 = .reg (w.extractLsb' 4 8) (w.extractLsb' 0 4).toFin := by
  simp only [dpArgsOf, flagAt_eq, h, regAt, Bool.false_eq_true, if_false]

end Sys2Proof.Machine

namespace Sys2Proof.Claims

open Sys2Proof.Machine

/-! The opcode map (30_encoding.md R100) as a table. -/

theorem firstRow_cons (name : String) (mask value : Nat) (rows : List (String × Nat × Nat)) (x : Nat) :
    firstRow ((name, mask, value) :: rows) x =
      if x &&& mask = value then some (name, value) else firstRow rows x := by
  by_cases h : x &&& mask = value <;> simp [firstRow, h]

/-- Some row of the table has this mnemonic and match value, and the code hits it. -/
def HitsRow (rows : List (String × Nat × Nat)) (x : Nat) (row : String × Nat) : Prop :=
  ∃ mask, (row.1, mask, row.2) ∈ rows ∧ x &&& mask = row.2

/-- Two rows ask for different values of a bit that both look at. -/
def rowsDisagree (q r : String × Nat × Nat) : Bool := q.2.2 &&& r.2.1 != r.2.2 &&& q.2.1

/-- A code that hits a row misses every row that disagrees with it. -/
theorem miss_of_rowsDisagree {q r : String × Nat × Nat} {x : Nat} (hd : rowsDisagree q r = true)
    (hr : x &&& r.2.1 = r.2.2) : x &&& q.2.1 ≠ q.2.2 := by
  intro hq
  have hne : q.2.2 &&& r.2.1 ≠ r.2.2 &&& q.2.1 := by simpa [rowsDisagree] using hd
  apply hne
  rw [← hq, ← hr, Nat.and_assoc, Nat.and_assoc, Nat.and_comm q.2.1]

/-- In a table whose rows all disagree, the row a code hits is the first one. -/
theorem firstRow_of_hitsRow {rows : List (String × Nat × Nat)} {x : Nat} {row : String × Nat}
    (hd : rows.Pairwise fun q r => rowsDisagree q r = true) (h : HitsRow rows x row) :
    firstRow rows x = some row := by
  obtain ⟨mask, hmem, hhit⟩ := h
  induction rows with
  | nil => cases hmem
  | cons q rows ih =>
    obtain ⟨hq, hrows⟩ := List.pairwise_cons.1 hd
    rcases List.mem_cons.1 hmem with rfl | hmem
    · rw [firstRow_cons, if_pos hhit]
    · rw [firstRow_cons, if_neg (miss_of_rowsDisagree (hq _ hmem) hhit), ih hrows hmem]

/-! ARM. -/

/-- The rows after SWI and BX: what the decoder tells apart once a word is neither. -/
def classRows : List (String × Nat × Nat) := armRows.drop 2

/-- No word hits two of the class rows, so their order does not matter. -/
theorem classRows_disagree : classRows.Pairwise fun q r => rowsDisagree q r = true := by decide

theorem hitsRow_block {w : Word} (h : w.extractLsb' 25 3 = 0b100#3) :
    HitsRow classRows w.toNat (decodeArm w).row := by
  rw [decodeArm_block h]
  rcases flagAt_cases w 20 with ⟨hl, hf⟩ | ⟨hl, hf⟩ <;> rw [hf] <;>
    exact ⟨0x0E100000, by simp [classRows, armRows, Instr.row],
      and_or_eq (and_fieldMask_eq_iff.2 h) (and_fieldMask_eq_iff.2 hl)⟩

theorem hitsRow_branch {w : Word} (h : w.extractLsb' 25 3 = 0b101#3) :
    HitsRow classRows w.toNat (decodeArm w).row := by
  rw [decodeArm_branch h]
  rcases flagAt_cases w 24 with ⟨hl, hf⟩ | ⟨hl, hf⟩ <;> rw [hf] <;>
    exact ⟨0x0F000000, by simp [classRows, armRows, Instr.row],
      and_or_eq (and_fieldMask_eq_iff.2 h) (and_fieldMask_eq_iff.2 hl)⟩

/-- A data-processing word hits the row of its opcode. -/
theorem hitsRow_dp {w : Word} (h : w.extractLsb' 26 2 = 0b00#2) : HitsRow classRows w.toNat (decodeDp w).row := by
  have hhit : w.toNat &&& 0x0DE00000 = 0 ||| (w.extractLsb' 21 4).toNat <<< 21 :=
    and_or_eq (m := 0x0C000000) (m' := 0x01E00000) (and_fieldMask_eq_iff.2 h) (toNat_and_fieldMask w 21 4)
  have hop := (w.extractLsb' 21 4).isLt
  unfold decodeDp
  generalize (w.extractLsb' 21 4).toNat = op at hhit hop
  interval_cases op <;> exact ⟨0x0DE00000, by simp [classRows, armRows, Instr.row], hhit⟩

theorem hitsRow_sdt {w : Word} (h : w.extractLsb' 26 2 = 0b01#2) : HitsRow classRows w.toNat (decodeArm w).row := by
  rw [decodeArm_sdt h, decodeSdt]
  rcases flagAt_cases w 20 with ⟨hl, hf⟩ | ⟨hl, hf⟩ <;> rcases flagAt_cases w 22 with ⟨hb, hg⟩ | ⟨hb, hg⟩ <;>
    rw [hf, hg] <;>
    exact ⟨0x0C500000, by simp [classRows, armRows, Instr.row], and_or_eq
      (and_or_eq (and_fieldMask_eq_iff.2 h) (and_fieldMask_eq_iff.2 hb)) (and_fieldMask_eq_iff.2 hl)⟩

theorem hitsRow_coproc {w : Word} (h : w.extractLsb' 26 2 = 0b11#2) (hswi : w.extractLsb' 24 4 ≠ 0b1111#4) :
    HitsRow classRows w.toNat (decodeArm w).row := by
  have hop : w.extractLsb' 24 2 ≠ 0b11#2 := by
    intro hop
    have hhit : w.toNat &&& 0x0F000000 = 0x0F000000 :=
      and_or_eq (and_fieldMask_eq_iff.2 h) (and_fieldMask_eq_iff.2 hop)
    exact hswi (and_fieldMask_eq_iff.1 hhit)
  rw [decodeArm_coproc h hop]
  exact ⟨0x0C000000, by simp [classRows, armRows, Instr.row], and_fieldMask_eq_iff.2 h⟩

/-- A word that is neither SWI nor BX hits the row of the instruction it decodes to. -/
theorem hitsRow_decodeArm {w : Word} (hswi : w.extractLsb' 24 4 ≠ 0b1111#4) (hbx : w.extractLsb' 4 24 ≠ 0x12FFF1#24) :
    HitsRow classRows w.toNat (decodeArm w).row := by
  rcases top3_cases w with h | h | h | h | h
  · rw [decodeArm_dp h hbx]
    exact hitsRow_dp h
  · exact hitsRow_sdt h
  · exact hitsRow_block h
  · exact hitsRow_branch h
  · exact hitsRow_coproc h hswi

/-- The map tests SWI and BX first: the coprocessor row covers every SWI, and the TEQ row every BX. -/
theorem firstRow_armRows_eq (x : Nat) : firstRow armRows x =
    if x &&& 0x0F000000 = 0x0F000000 then some ("SWI", 0x0F000000)
    else if x &&& 0x0FFFFFF0 = 0x012FFF10 then some ("BX", 0x012FFF10) else firstRow classRows x := by
  rw [← firstRow_cons, ← firstRow_cons]
  rfl

theorem firstRow_armRows (w : Word) : firstRow armRows w.toNat = some (decodeArm w).row := by
  have hswi : w.toNat &&& 0x0F000000 = 0x0F000000 ↔ w.extractLsb' 24 4 = 0b1111#4 :=
    and_fieldMask_eq_iff (lo := 24) (v := 0b1111#4)
  have hbx : w.toNat &&& 0x0FFFFFF0 = 0x012FFF10 ↔ w.extractLsb' 4 24 = 0x12FFF1#24 :=
    and_fieldMask_eq_iff (lo := 4) (v := 0x12FFF1#24)
  rw [firstRow_armRows_eq]
  split_ifs with h1 h2
  · rw [decodeArm_swi (hswi.1 h1), Instr.row]
  · rw [decodeArm_bx (hbx.1 h2), Instr.row]
  · exact firstRow_of_hitsRow classRows_disagree (hitsRow_decodeArm (mt hswi.2 h1) (mt hbx.2 h2))

/-! Thumb. -/

/-- The rows of the Thumb map that name an instruction. -/
def formatRows : List (String × Nat × Nat) := thumbRows.take 12

/-- No halfword hits two of them. -/
theorem formatRows_disagree : formatRows.Pairwise fun q r => rowsDisagree q r = true := by decide

theorem firstRow_thumbRows_eq (x : Nat) : firstRow thumbRows x =
    (firstRow formatRows x).or (some ("UNKNOWN__Thumb__every_other_halfword", 0)) := by
  have hsplit : thumbRows = formatRows ++ [("UNKNOWN__Thumb__every_other_halfword", 0, 0)] := rfl
  rw [firstRow, hsplit, List.find?_append, Option.map_or]
  simp [firstRow]

/-- A halfword that hits a format's row decodes to that format. -/
theorem row_decodeThumb_of_hit {h : Half} : ∀ r ∈ formatRows, h.toNat &&& r.2.1 = r.2.2 →
    (decodeThumb h).row = (r.1, r.2.2) := by
  simp only [formatRows, thumbRows, List.take_succ_cons, List.take_zero, List.forall_mem_cons]
  refine ⟨fun hit => ?_, fun hit => ?_, fun hit => ?_, fun hit => ?_, fun hit => ?_, fun hit => ?_, fun hit => ?_,
    fun hit => ?_, fun hit => ?_, fun hit => ?_, fun hit => ?_, fun hit => ?_, by simp⟩
  · exact congrArg Instr.row (decodeThumb_lslImm (and_fieldMask_eq_iff.1 hit))
  · exact congrArg Instr.row (decodeThumb_lsrImm (and_fieldMask_eq_iff.1 hit))
  · exact congrArg Instr.row (decodeThumb_asrImm (and_fieldMask_eq_iff.1 hit))
  · exact congrArg Instr.row (decodeThumb_movImm8 (and_fieldMask_eq_iff.1 hit))
  · exact congrArg Instr.row (decodeThumb_cmpImm8 (and_fieldMask_eq_iff.1 hit))
  · exact congrArg Instr.row (decodeThumb_addImm8 (and_fieldMask_eq_iff.1 hit))
  · exact congrArg Instr.row (decodeThumb_subImm8 (and_fieldMask_eq_iff.1 hit))
  · exact congrArg Instr.row (decodeThumb_thumbAnd (and_fieldMask_eq_iff.1 hit))
  · exact congrArg Instr.row (decodeThumb_thumbEor (and_fieldMask_eq_iff.1 hit))
  · exact congrArg Instr.row (decodeThumb_thumbOrr (and_fieldMask_eq_iff.1 hit))
  · exact congrArg Instr.row (decodeThumb_movLow (and_fieldMask_eq_iff.1 hit))
  · exact congrArg Instr.row (decodeThumb_thumbB (and_fieldMask_eq_iff.1 hit))

/-- A halfword that hits no format's row is unknown. -/
theorem decodeThumb_of_misses {h : Half} (hmiss : ∀ r ∈ formatRows, h.toNat &&& r.2.1 ≠ r.2.2) :
    decodeThumb h = .thumbUnknown h := by
  have hmask : ∀ p ∈ formatRows.map Prod.snd, h.toNat &&& p.1 ≠ p.2 := List.forall_mem_map.2 hmiss
  have no5 : ∀ a b, (0xF800, a <<< 13 ||| b <<< 11) ∈ formatRows.map Prod.snd → (h.extractLsb' 13 3).toNat = a →
      (h.extractLsb' 11 2).toNat ≠ b := by
    rintro _ _ hmem rfl rfl
    exact hmask _ hmem (and_or_eq (toNat_and_fieldMask h 13 3) (toNat_and_fieldMask h 11 2))
  have no10 : ∀ e, (0xFFC0, 0x4000 ||| e <<< 6) ∈ formatRows.map Prod.snd → h.extractLsb' 10 6 = 0b010000#6 →
      (h.extractLsb' 6 4).toNat ≠ e := by
    rintro _ hmem hd rfl
    exact hmask _ hmem (and_or_eq (and_fieldMask_eq_iff (lo := 10).2 hd) (toNat_and_fieldMask h 6 4))
  unfold decodeThumb
  split
  next ha =>
    split
    next hb => exact absurd hb (no5 0 0 (by decide) ha)
    next hb => exact absurd hb (no5 0 1 (by decide) ha)
    next hb => exact absurd hb (no5 0 2 (by decide) ha)
    next => rfl
  next ha =>
    split
    next hb => exact absurd hb (no5 1 0 (by decide) ha)
    next hb => exact absurd hb (no5 1 1 (by decide) ha)
    next hb => exact absurd hb (no5 1 2 (by decide) ha)
    next h0 h1 h2 =>
      have h3 := no5 1 3 (by decide) ha
      have hlt := (h.extractLsb' 11 2).isLt
      rw [imp_false] at h0 h1 h2
      omega
  next ha =>
    split_ifs with hd hmov
    · split
      next he => exact absurd he (no10 0 (by decide) hd)
      next he => exact absurd he (no10 1 (by decide) hd)
      next he => exact absurd he (no10 12 (by decide) hd)
      next => rfl
    · exact absurd (and_fieldMask_eq_iff.2 hmov) (hmask (0xFFC0, 0x4600) (by decide))
    · rfl
  next ha =>
    split_ifs with hb
    · exact absurd (congrArg BitVec.toNat hb) (no5 7 0 (by decide) ha)
    · rfl
  next => rfl

theorem firstRow_thumbRows (h : Half) : firstRow thumbRows h.toNat = some (decodeThumb h).row := by
  rw [firstRow_thumbRows_eq]
  by_cases hhit : ∃ r ∈ formatRows, h.toNat &&& r.2.1 = r.2.2
  · obtain ⟨r, hr, hit⟩ := hhit
    have hrow : HitsRow formatRows h.toNat (r.1, r.2.2) := ⟨r.2.1, hr, hit⟩
    rw [firstRow_of_hitsRow formatRows_disagree hrow, row_decodeThumb_of_hit r hr hit, Option.some_or]
  · have hmiss : ∀ r ∈ formatRows, h.toNat &&& r.2.1 ≠ r.2.2 := fun r hr hit => hhit ⟨r, hr, hit⟩
    have hnone : firstRow formatRows h.toNat = none := by simpa [firstRow] using hmiss
    rw [hnone, decodeThumb_of_misses hmiss, Option.none_or, Instr.row]

/-- Settles O4: in each map the code hits the row of the instruction it decodes to, and no row before it. -/
theorem decodeFollowsOpcodeMap : Obligations.DecodeFollowsOpcodeMap := ⟨firstRow_armRows, firstRow_thumbRows⟩

/-- Settles O7, bit by bit, and by a rotation left undoing the rotation right. -/
theorem immediateOperandRotates : Obligations.ImmediateOperandRotates := by
  intro w s hi imm8 rot
  rw [dpArgsOf_op2_imm hi, op2Value_imm]
  refine ⟨fun j hj => ?_, ?_⟩
  · rw [getLsbD_rotateRight_mod _ _ hj, BitVec.getLsbD_setWidth]
    simp [Nat.mod_lt, imm8, rot]
  · rw [rotateLeft_rotateRight]
    exact zeroExtend_and_byteMask imm8

/-- Settles O8, by the operand a word with I = 0 holds and the pc a fetch leaves. -/
theorem registerOperandIgnoresShiftField : Obligations.RegisterOperandIgnoresShiftField := by
  refine ⟨fun w s hi => ?_, fun s ht ignored => ?_⟩
  · rw [dpArgsOf_op2_reg hi, op2Value_reg]
  · rw [op2Value_reg, fetchDecode_pc, fetchWidth, ht]
    rfl

end Sys2Proof.Claims
end

section
/-! The execution-cycle statements of 40_execution_cycle.md: conditions (R115 to R117), unknown instructions (R119, R120)
and the step (R111). -/

namespace Sys2Proof

/-! A word put together again from its fields (30_encoding.md R82, R98). -/

theorem ofBool_flagAt (w : Word) (i : Nat) : BitVec.ofBool (flagAt w i) = w.extractLsb' i 1 := by
  rcases flagAt_cases w i with ⟨h, hf⟩ | ⟨h, hf⟩ <;> rw [h, hf] <;> rfl

theorem ofFin_regAt (w : Word) (lo : Nat) : BitVec.ofFin (w := 4) (regAt w lo) = w.extractLsb' lo 4 := rfl

theorem iBit_dpArgsOf (w : Word) : (dpArgsOf w).op2.iBit = w.extractLsb' 25 1 := by
  unfold dpArgsOf
  rcases flagAt_cases w 25 with ⟨h, hf⟩ | ⟨h, hf⟩ <;> rw [h, hf] <;> rfl

/-- Both forms of operand2 keep all twelve bits. -/
theorem bits_dpArgsOf (w : Word) : (dpArgsOf w).op2.bits = w.extractLsb' 0 12 := by
  rcases flagAt_cases w 25 with ⟨-, hf⟩ | ⟨-, hf⟩ <;> simp only [dpArgsOf, hf]
  · exact BitVec.extractLsb'_append_extractLsb'_eq_extractLsb' rfl
  · exact BitVec.extractLsb'_append_extractLsb'_eq_extractLsb' rfl

/-- Encoding the fields of a data-processing word under its own opcode gives the word back. -/
theorem encodeDp_dpArgsOf {w : Word} (h : w.extractLsb' 26 2 = 0b00#2) :
    encodeDp (w.extractLsb' 21 4) (dpArgsOf w) = w := by
  rw [encodeDp, iBit_dpArgsOf, bits_dpArgsOf, ← h]
  simp (disch := decide) only [dpArgsOf, bits_condOfBits, ofBool_flagAt, ofFin_regAt,
    BitVec.extractLsb'_append_extractLsb'_eq_extractLsb']
  exact extractLsb'_whole w

/-- Encoding the fields of a word of the coprocessor space gives the word back. -/
theorem encode_coprocUnknown_fields {w : Word} (h : w.extractLsb' 26 2 = 0b11#2) :
    encode (.coprocUnknown (condOfBits (w.extractLsb' 28 4)) (w.extractLsb' 24 2) (w.extractLsb' 0 24)) = .arm w := by
  simp (disch := decide) only [encode, bits_condOfBits, ← h, BitVec.extractLsb'_append_extractLsb'_eq_extractLsb']
  exact congrArg Code.arm (extractLsb'_whole w)

end Sys2Proof

namespace Sys2Proof.Machine

open Sys2Proof.Claims

/-! Conditions (R115 to R117). -/

/-- Every instruction with a condition is an effect run under that condition (40_execution_cycle.md R112). -/
theorem exec_eq_whenCond {i : Instr} {c : Cond} (hi : i.cond? = some c) :
    ∃ body, ∀ s, exec i s = whenCond c body s := by
  cases i with
  | lslImm | lsrImm | asrImm | movImm8 | cmpImm8 | addImm8 | subImm8 | thumbAnd | thumbEor | thumbOrr | movLow | thumbB
  | thumbUnknown => cases hi
  | _ => cases hi; exact ⟨_, fun _ => rfl⟩

theorem exec_of_cond_fail {i : Instr} {c : Cond} (hi : i.cond? = some c) {s : State} (hc : condPasses c s = false) :
    exec i s = .next s := by
  obtain ⟨body, hbody⟩ := exec_eq_whenCond hi
  rw [hbody, whenCond_fail hc]

/-! Unknown instructions (R119, R120). -/

theorem execUnknownDp_pass {f : DpArgs} {s : State} (hc : condPasses f.cond s = true) (opcode : BitVec 4) :
    execUnknownDp opcode f s = .next (raiseUnknown .arm (armIa s) (encodeDp opcode f) s) :=
  whenCond_pass hc _

theorem execCoprocUnknown_pass {c : Cond} {s : State} (hc : condPasses c s = true) (op : BitVec 2) (body : BitVec 24) :
    execCoprocUnknown c op body s
      = .next (raiseUnknown .arm (armIa s) (encode (.coprocUnknown c op body)).bits s) :=
  whenCond_pass hc _

/-- The data-processing opcodes without a meaning (41_arm_data_processing.md R140). -/
def unsupportedOpcodes : List (BitVec 4) := [5#4, 6#4, 7#4, 8#4, 9#4, 11#4, 14#4, 15#4]

/-- Under an unsupported opcode a data-processing word runs as the unknown instruction of that opcode. -/
theorem exec_decodeDp_of_unsupported {w : Word} (h : w.extractLsb' 21 4 ∈ unsupportedOpcodes) (s : State) :
    exec (decodeDp w) s = execUnknownDp (w.extractLsb' 21 4) (dpArgsOf w) s := by
  unfold decodeDp
  generalize w.extractLsb' 21 4 = opcode at h
  simp only [unsupportedOpcodes, List.mem_cons, List.not_mem_nil, or_false] at h
  rcases h with rfl | rfl | rfl | rfl | rfl | rfl | rfl | rfl <;> rfl

section
variable {w : Word} {s : State} (hc : condPasses (condOfBits (w.extractLsb' 28 4)) s = true)
include hc

theorem onlyEmits_of_unsupportedDp (h : w.extractLsb' 26 2 = 0b00#2) (hbx : w.extractLsb' 4 24 ≠ 0x12FFF1#24)
    (hop : w.extractLsb' 21 4 ∈ unsupportedOpcodes) :
    OnlyEmits (decodeArm w) s (.unknownInstruction .arm (s.pc - 4) w) := by
  rw [OnlyEmits, decodeArm_dp h hbx, exec_decodeDp_of_unsupported hop, execUnknownDp_pass hc, encodeDp_dpArgsOf h]
  rfl

theorem onlyEmits_of_coproc (h : w.extractLsb' 26 2 = 0b11#2) (hop : w.extractLsb' 24 2 ≠ 0b11#2) :
    OnlyEmits (decodeArm w) s (.unknownInstruction .arm (s.pc - 4) w) := by
  rw [OnlyEmits, decodeArm_coproc h hop, exec, execCoprocUnknown_pass hc, encode_coprocUnknown_fields h]
  rfl

end

/-- The coprocessor space: bits [27:26] are 11, and bits [25:24] are not SWI's (30_encoding.md R86, R98). -/
theorem coproc_fields {w : Word} (h : w.extractLsb' 24 4 ∈ [0b1100#4, 0b1101#4, 0b1110#4]) :
    w.extractLsb' 26 2 = 0b11#2 ∧ w.extractLsb' 24 2 ≠ 0b11#2 := by
  rw [show w.extractLsb' 26 2 = (w.extractLsb' 24 4).extractLsb' 2 2 from extractLsb'_sub w rfl 2 2 (by decide),
    show w.extractLsb' 24 2 = (w.extractLsb' 24 4).extractLsb' 0 2 from extractLsb'_sub w rfl 0 2 (by decide)]
  generalize w.extractLsb' 24 4 = top at h
  decide +revert

/-- The BX pattern as a field and as a mask (30_encoding.md R83, R100). -/
theorem extractLsb'_ne_of_not_bx {w : Word} (h : w &&& 0x0FFFFFF0#32 ≠ 0x012FFF10#32) :
    w.extractLsb' 4 24 ≠ 0x12FFF1#24 := fun hbx =>
  h (BitVec.eq_of_toNat_eq (and_fieldMask_eq_iff (lo := 4).2 hbx))

/-! A bus read outside the timer range, in the terms of the statements. -/

theorem noteUnmapped_eq_invalidEvents (kind : AccessKind) (addr : Word) (n : Width) (s : State) :
    noteUnmapped kind addr n s = { s with events := s.events ++ invalidEvents s.cfg kind addr n } := by
  have hany : (byteAddrs addr n.bytes).any (isUnmapped s.cfg) = true
      ↔ ∃ k < n.bytes, target s.cfg (nth addr k) = .unmapped := by
    simp [byteAddrs_eq_map_nth, isUnmapped]
  unfold noteUnmapped invalidEvents
  by_cases h : ∃ k < n.bytes, target s.cfg (nth addr k) = .unmapped
  · rw [if_pos (hany.2 h), if_pos h]
    rfl
  · rw [if_neg (mt hany.1 h), if_neg h, List.append_nil]

/-- The bytes of an access, least significant first, have the value that the statements spell out. -/
theorem wordOfBytes_peek (s : State) (addr : Word) (n : Width) :
    wordOfBytes ((byteAddrs addr n.bytes).map fun a => (s.peek a).getD 0#8) = valueAt s addr n := by
  have h0 : nth addr 0 = addr := BitVec.add_zero addr
  rw [byteAddrs_eq_map_nth]
  cases n with
  | byte => simpa [Width.bytes, valueAt, List.range_succ, h0] using wordOfBytes_byte _
  | half => simpa [Width.bytes, valueAt, List.range_succ, h0] using wordOfBytes_half _ _
  | word => simpa [Width.bytes, valueAt, List.range_succ, h0] using wordOfBytes_word _ _ _ _

/-- A read of bytes outside the timer range: their value, and its own InvalidAddress event, if it has one. -/
theorem readN_of_noTimer {s : State} {addr : Word} {n : Width} (h : noTimer s.cfg addr n.bytes) (kind : AccessKind) :
    readN kind addr n s = (valueAt s addr n, { s with events := s.events ++ invalidEvents s.cfg kind addr n }) := by
  have hbytes : ∀ a ∈ byteAddrs addr n.bytes, isTimer s.cfg a = false := by
    intro a ha
    obtain ⟨k, hk, rfl⟩ := mem_byteAddrs_nth.1 ha
    exact h k hk
  rw [readN_of_not_timer hbytes, wordOfBytes_peek, noteUnmapped_eq_invalidEvents]

/-! The step (R111). -/

theorem fetchDecode_of_arm {s : State} (ht : s.t = false) :
    fetchDecode s
      = (decodeArm (readN .fetch s.pc .word s).1, (readN .fetch s.pc .word s).2.setPc (s.pc + 4)) := by
  simp only [fetchDecode, fetchCode, fetchWidth, ht, Bool.false_eq_true, if_false]
  rfl

theorem fetchDecode_of_thumb {s : State} (ht : s.t = true) :
    fetchDecode s = (decodeThumb ((readN .fetch s.pc .half s).1.extractLsb' 0 16),
      (readN .fetch s.pc .half s).2.setPc (s.pc + 2)) := by
  simp only [fetchDecode, fetchCode, fetchWidth, ht, if_true]
  rfl

/-- A step runs what the fetch decoded, and then the images count as loaded. -/
theorem step_of_fetchDecode {s s' : State} {i : Instr} (h : fetchDecode (beginStep s) = (i, s')) :
    step s = thenLoaded (exec i s') := by
  obtain ⟨u, hu⟩ := exec_next i s'
  rw [step_of_exec (by rw [h]; exact hu), hu]
  rfl

end Sys2Proof.Machine

namespace Sys2Proof.Claims

open Sys2Proof.Machine

/-- Settles O5, by the row of each code. -/
theorem conditionTable : Obligations.ConditionTable := by
  intro s
  have hnot : ∀ b : Bool, (!b) = true ↔ b = false := by simp
  refine ⟨Iff.rfl, hnot s.z, Iff.rfl, hnot s.n, Iff.rfl, hnot s.v, rfl, ?_⟩
  simp only [List.forall_mem_cons]
  exact ⟨rfl, rfl, rfl, rfl, rfl, rfl, rfl, rfl, rfl, List.forall_mem_nil _⟩

/-- Settles O6: the instruction is an effect under its condition, and the step retires the state after the fetch. -/
theorem failedConditionSkips : Obligations.FailedConditionSkips := by
  intro i c hi
  refine ⟨fun s hc => exec_of_cond_fail hi hc, fun s s' hfetch hc => ?_⟩
  rw [step_of_fetchDecode hfetch, exec_of_cond_fail hi hc]
  rfl

/-- Settles O14: each of the two classes decodes to a term that encodes to the word itself. -/
theorem unknownArmWordReportsItself : Obligations.UnknownArmWordReportsItself := by
  rintro w s hc (hcoproc | ⟨hdp, hbx, hop⟩)
  · obtain ⟨htop, hlow⟩ := coproc_fields hcoproc
    exact onlyEmits_of_coproc hc htop hlow
  · exact onlyEmits_of_unsupportedDp hc hdp (extractLsb'_ne_of_not_bx hbx) hop

/-- Settles O27: the event by the meaning, the decoding by the rows of the Thumb map that the halfword misses. -/
theorem unknownHalfwordReportsItself : Obligations.UnknownHalfwordReportsItself :=
  ⟨fun _ _ => rfl, fun _ hmiss => decodeThumb_of_misses hmiss⟩

/-- Settles O29, by the two states of the fetch. -/
theorem stepRunsDecodedInstruction : Obligations.StepRunsDecodedInstruction := by
  intro s
  refine ⟨fun ht => ⟨?_, fun hn => ?_⟩, fun ht => ⟨?_, fun hn => ?_⟩⟩
  · exact step_of_fetchDecode (fetchDecode_of_arm (s := beginStep s) ht)
  · exact readN_of_noTimer (s := beginStep s) (n := .word) hn .fetch
  · exact step_of_fetchDecode (fetchDecode_of_thumb (s := beginStep s) ht)
  · exact readN_of_noTimer (s := beginStep s) (n := .half) hn .fetch

end Sys2Proof.Claims
end

section
/-! The data-processing statements of 41_arm_data_processing.md: the logical operations (R132, R133, R138, R139), SUB,
RSB and ADD (R134 to R136), and CMP (R137). -/

namespace Sys2Proof.Claims

open Sys2Proof.Machine

/-! The flags a result sets (00_scope.md R13, R131). -/

theorem msb_eq_bit31 (r : Word) : r.msb = r.getLsbD 31 := BitVec.msb_eq_getLsbD_last r

/-- N and Z as the flag updates compute them. -/
theorem nzof_iff {r : Word} {t : State} : NZof r t ↔ t.n = r.msb ∧ t.z = (r == 0#32) := by
  have hz : decide (r.toNat = 0) = (r == 0#32) := by simp [← BitVec.toNat_inj, beq_eq_decide]
  rw [NZof, msb_eq_bit31, hz]

theorem nzof_setNZ (r : Word) (s : State) : NZof r (setNZ r s) := nzof_iff.2 ⟨rfl, rfl⟩

theorem addFlagsOf_addFlags (a b : Word) (s : State) : AddFlagsOf a b (addFlags a b (a + b) s) := by
  refine ⟨nzof_iff.2 ⟨rfl, rfl⟩, rfl, ?_⟩
  simp only [addFlags_v, addOverflow, msb_eq_bit31, bne, beq_eq_decide, ne_eq, decide_not]

theorem subFlagsOf_subFlags (a b : Word) (s : State) : SubFlagsOf a b (subFlags a b (a - b) s) := by
  refine ⟨nzof_iff.2 ⟨rfl, rfl⟩, rfl, ?_⟩
  simp only [subFlags_v, subOverflow, msb_eq_bit31, bne, beq_eq_decide, ne_eq, decide_not]

/-! Frames. -/

/-- Shared storage gives the frame its bytes. -/
theorem RegFrame.of_sameBus {rs : List Reg} {s t : State} (hbus : SameBus s t) (hregs : SameRegsBut rs s t)
    (hsilent : Silent s t) (ht : t.t = s.t) : RegFrame rs s t :=
  ⟨hregs, hbus, hbus.peek, hsilent, ht⟩

theorem RegFrame.trans {rs : List Reg} {s t u : State} (h : RegFrame rs s t) (h' : RegFrame rs t u) :
    RegFrame rs s u :=
  .of_sameBus (h.bus.trans h'.bus) (fun r hr => (h'.regs r hr).trans (h.regs r hr))
    ⟨h'.silent.events.trans h.silent.events, h'.silent.timerDraws.trans h.silent.timerDraws⟩ (h'.tBit.trans h.tBit)

/-- A frame may name more registers. -/
theorem RegFrame.mono {rs qs : List Reg} {s t : State} (h : RegFrame rs s t) (hsub : rs ⊆ qs) : RegFrame qs s t :=
  .of_sameBus h.bus (fun r hr => h.regs r (mt (@hsub r) hr)) h.silent h.tBit

theorem regFrame_setReg (s : State) (r : Reg) (v : Word) : RegFrame [r] s (s.setReg r v) :=
  .of_sameBus (SameBus.setReg s r v) (fun _ hq => State.reg_setReg_ne s (List.ne_of_not_mem_cons hq) v) ⟨rfl, rfl⟩ rfl

theorem regFrame_setNZ (r : Word) (s : State) : RegFrame [] s (setNZ r s) :=
  .of_sameBus (SameBus.setNZ r s) (fun _ _ => rfl) ⟨rfl, rfl⟩ rfl

theorem regFrame_addFlags (a b r : Word) (s : State) : RegFrame [] s (addFlags a b r s) :=
  .of_sameBus (SameBus.addFlags a b r s) (fun _ _ => rfl) ⟨rfl, rfl⟩ rfl

theorem regFrame_subFlags (a b r : Word) (s : State) : RegFrame [] s (subFlags a b r s) :=
  .of_sameBus (SameBus.subFlags a b r s) (fun _ _ => rfl) ⟨rfl, rfl⟩ rfl

/-! Opcodes. -/

/-- The data-processing opcodes with a meaning, and the instructions they stand for (30_encoding.md R99). -/
def supportedOpcodes : List (BitVec 4 × (DpArgs → Instr)) :=
  [(0b0000#4, .armAnd), (0b0001#4, .armEor), (0b0010#4, .sub), (0b0011#4, .rsb), (0b0100#4, .add), (0b1010#4, .cmp),
    (0b1100#4, .armOrr), (0b1101#4, .mov)]

/-- None of these opcodes is 1001, so no word under them is BX. -/
theorem dpEncoding_of_supported {e : BitVec 4 × (DpArgs → Instr)} (he : e ∈ supportedOpcodes) :
    DpEncoding e.1 e.2 := by
  intro w hclass hop
  fin_cases he <;> (rw [decodeArm_dp_of_opcode hclass hop (by decide), decodeDp, hop]; rfl)

/-! Instructions that write Rd. -/

/-- Write a result to Rd, and update the flags if S: the effect that all but CMP share. -/
def writeRd (f : DpArgs) (r : Word) (flags : State → State) (s : State) : State :=
  if f.setFlags then flags (s.setReg f.rd r) else s.setReg f.rd r

theorem regFrame_writeRd {flags : State → State} (hflags : ∀ u, RegFrame [] u (flags u)) (f : DpArgs) (r : Word)
    (s : State) : RegFrame [f.rd] s (writeRd f r flags s) := by
  have hreg := regFrame_setReg s f.rd r
  unfold writeRd
  split
  · exact hreg.trans ((hflags _).mono (List.nil_subset _))
  · exact hreg

theorem writeRd_rd {flags : State → State} (hflags : ∀ u, RegFrame [] u (flags u)) (f : DpArgs) (r : Word)
    (s : State) : (writeRd f r flags s).reg f.rd = r := by
  unfold writeRd
  split
  · rw [(hflags _).regs f.rd List.not_mem_nil, State.reg_setReg_self]
  · exact State.reg_setReg_self s f.rd r

/-- For an instruction that writes Rd under its condition, two facts about its flag update are left: it writes nothing
but flags, and they are those of the statement. -/
theorem arithmeticEffect {opcode : BitVec 4} {mk : DpArgs → Instr} {result : DpArgs → State → Word}
    {flags : DpArgs → State → State → Prop} {update : DpArgs → State → State → State}
    (hop : (opcode, mk) ∈ supportedOpcodes)
    (hexec : ∀ f s, exec (mk f) s = whenCond f.cond (fun s => writeRd f (result f s) (update f s) s) s)
    (hframe : ∀ f s u, RegFrame [] u (update f s u))
    (hflags : ∀ f s, flags f s (update f s (s.setReg f.rd (result f s)))) :
    ArithmeticEffect opcode mk result flags := by
  refine ⟨dpEncoding_of_supported hop, fun f s hc => ⟨writeRd f (result f s) (update f s) s, ?_,
    writeRd_rd (hframe f s) f _ s, fun hS => ?_, fun hS => ?_, regFrame_writeRd (hframe f s) f _ s⟩⟩
  · rw [hexec, whenCond_pass hc]
  · rw [writeRd, if_pos hS]
    exact hflags f s
  · rw [writeRd, hS]
    exact ⟨rfl, rfl, rfl, rfl⟩

/-- A logical operation is the case whose flag update is N and Z alone. -/
theorem logicalEffect {opcode : BitVec 4} {mk : DpArgs → Instr} {op : Word → Word → Word}
    (hop : (opcode, mk) ∈ supportedOpcodes) (hexec : ∀ f s, exec (mk f) s = execLogical op f s) :
    LogicalEffect opcode mk op :=
  arithmeticEffect (result := fun f s => op (s.reg f.rn) (op2Value f.op2 s))
    (flags := fun f s t => NZof (op (s.reg f.rn) (op2Value f.op2 s)) t ∧ t.c = s.c ∧ t.v = s.v)
    (update := fun f s => setNZ (op (s.reg f.rn) (op2Value f.op2 s))) hop hexec
    (fun _ _ => regFrame_setNZ _) fun _ _ => ⟨nzof_setNZ _ _, rfl, rfl⟩

/-! CMP. -/

theorem execCmp_pass {f : DpArgs} {s : State} (hc : condPasses f.cond s = true) :
    execCmp f s = .next (subFlags (s.reg f.rn) (op2Value f.op2 s) (s.reg f.rn - op2Value f.op2 s) s) :=
  whenCond_pass hc _

/-- Settles O9: each of the four is `execLogical` with its own operation. -/
theorem logicalInstructions : Obligations.LogicalInstructions :=
  ⟨logicalEffect (by simp [supportedOpcodes]) fun _ _ => rfl,
    logicalEffect (by simp [supportedOpcodes]) fun _ _ => rfl,
    logicalEffect (by simp [supportedOpcodes]) fun _ _ => rfl,
    logicalEffect (by simp [supportedOpcodes]) fun _ _ => rfl⟩

/-- Settles O10: each of the three writes Rd with the flag update of its own operands. -/
theorem arithmeticInstructions : Obligations.ArithmeticInstructions :=
  ⟨arithmeticEffect (by simp [supportedOpcodes]) (fun _ _ => rfl)
      (fun f s => regFrame_subFlags (s.reg f.rn) (op2Value f.op2 s) _) fun _ _ => subFlagsOf_subFlags _ _ _,
    arithmeticEffect (by simp [supportedOpcodes]) (fun _ _ => rfl)
      (fun f s => regFrame_subFlags (op2Value f.op2 s) (s.reg f.rn) _) fun _ _ => subFlagsOf_subFlags _ _ _,
    arithmeticEffect (by simp [supportedOpcodes]) (fun _ _ => rfl)
      (fun f s => regFrame_addFlags (s.reg f.rn) (op2Value f.op2 s) _) fun _ _ => addFlagsOf_addFlags _ _ _⟩

/-- Settles O11: the whole effect is the flag update of the subtraction. -/
theorem compareInstruction : Obligations.CompareInstruction :=
  ⟨dpEncoding_of_supported (e := (_, .cmp)) (by simp [supportedOpcodes]), fun _ s hc =>
    ⟨_, execCmp_pass hc, subFlagsOf_subFlags _ _ s, regFrame_subFlags _ _ _ s⟩⟩

end Sys2Proof.Claims
end

section
/-! The branches of 42_arm_branch.md: B (R150), BL (R151) and BX (R153). -/

namespace Sys2Proof

/-! The two branch encodings (30_encoding.md R84). -/

theorem decodeArm_b {w : Word} (h : w.extractLsb' 24 4 = 0b1010#4) :
    decodeArm w = .b (condOfBits (w.extractLsb' 28 4)) (w.extractLsb' 0 24) := by
  have hclass : w.extractLsb' 25 3 = 0b101#3 := extractLsb'_sub w h 1 3 (by decide)
  have hlink : w.extractLsb' 24 1 = 0b0#1 := extractLsb'_sub w h 0 1 (by decide)
  rw [decodeArm_branch hclass, flagAt, hlink]
  rfl

theorem decodeArm_bl {w : Word} (h : w.extractLsb' 24 4 = 0b1011#4) :
    decodeArm w = .bl (condOfBits (w.extractLsb' 28 4)) (w.extractLsb' 0 24) := by
  have hclass : w.extractLsb' 25 3 = 0b101#3 := extractLsb'_sub w h 1 3 (by decide)
  have hlink : w.extractLsb' 24 1 = 0b1#1 := extractLsb'_sub w h 0 1 (by decide)
  rw [decodeArm_branch hclass, flagAt, hlink]
  rfl

/-! Branch offsets (30_encoding.md R92, R96): a field sign-extended and shifted left. -/

theorem signExtend_shiftLeft_eq_ofInt {n : Nat} (x : BitVec n) (m k : Nat) :
    x.signExtend m <<< k = BitVec.ofInt m (2 ^ k * x.toInt) := by
  have hpow : BitVec.ofInt m (2 ^ k) = BitVec.twoPow m k := by
    rw [← Nat.cast_ofNat, ← Nat.cast_pow, BitVec.ofInt_natCast]
    exact BitVec.eq_of_toNat_eq (BitVec.toNat_twoPow m k).symm
  rw [BitVec.ofInt_mul, hpow, BitVec.mul_comm, BitVec.shiftLeft_eq_mul_twoPow, BitVec.signExtend]

/-- Adding a multiple of `2 ^ k` keeps the `k` low bits. -/
theorem extractLsb'_zero_add_shiftLeft {n k : Nat} (a x : BitVec n) (hk : k ≤ n) :
    (a + x <<< k).extractLsb' 0 k = a.extractLsb' 0 k := by
  have hzero : (x <<< k).setWidth k = 0#k := BitVec.eq_of_getLsbD_eq fun i hi => by simp [hi]
  rw [← BitVec.setWidth_eq_extractLsb' hk, BitVec.setWidth_add _ _ hk, hzero, BitVec.add_zero,
    BitVec.setWidth_eq_extractLsb' hk]

theorem toNat_and_clearBit0 (v : Word) : (v &&& 0xFFFFFFFE#32).toNat = v.toNat - v.toNat % 2 := by
  have hfield : (v &&& 0xFFFFFFFE#32).toNat = (v.extractLsb' 1 31).toNat <<< 1 := toNat_and_fieldMask v 1 31
  have hv := v.isLt
  rw [hfield, BitVec.extractLsb'_toNat, Nat.shiftLeft_eq, Nat.shiftRight_eq_div_pow]
  omega

end Sys2Proof

namespace Sys2Proof.Machine

open Sys2Proof.Claims

/-! The branch target, from the pc that the fetch has advanced to `ia + 4`. -/

theorem branchOffset_eq_ofInt (imm24 : BitVec 24) : branchOffset imm24 = BitVec.ofInt 32 (4 * imm24.toInt) :=
  signExtend_shiftLeft_eq_ofInt imm24 32 2

theorem branchTarget_eq (pc : Word) (imm24 : BitVec 24) :
    pc + branchOffset imm24 = pc - 4 + 4 + BitVec.ofInt 32 (4 * imm24.toInt) := by
  rw [branchOffset_eq_ofInt, BitVec.sub_add_cancel]

/-- The target is `ia` plus a multiple of 4 (R150): the 4 of `ia + 4` is one more of them. -/
theorem branchTarget_aligned (pc : Word) (imm24 : BitVec 24) :
    (pc + branchOffset imm24).extractLsb' 0 2 = (pc - 4).extractLsb' 0 2 := by
  have hmul : pc + branchOffset imm24 = pc - (4 : Word) + (1#32 + imm24.signExtend 32) <<< 2 := by
    rw [BitVec.shiftLeft_add_distrib, ← BitVec.add_assoc, ← branchOffset]
    exact congrArg (· + branchOffset imm24) (BitVec.sub_add_cancel pc 4).symm
  rw [hmul, extractLsb'_zero_add_shiftLeft _ _ (by decide)]

/-- The self-loop's offset takes back what the fetch advanced. -/
theorem branchTarget_self (pc : Word) : pc + branchOffset 0xFFFFFF#24 = pc - 4 := by
  rw [show branchOffset 0xFFFFFF#24 = -4 by decide, ← BitVec.sub_eq_add_neg]

theorem pc_setPc (s : State) (v : Word) : (s.setPc v).pc = v := State.reg_setReg_self s 15 v

/-! Effects under a condition that passes. -/

section
variable {c : Cond} {s : State} (hc : condPasses c s = true)
include hc

theorem execB_pass (imm24 : BitVec 24) :
    execB c imm24 s = .next (s.setPc (s.pc + branchOffset imm24)) :=
  whenCond_pass hc _

theorem execBl_pass (imm24 : BitVec 24) :
    execBl c imm24 s = .next ((s.setReg 14 s.pc).setPc (s.pc + branchOffset imm24)) :=
  whenCond_pass hc _

theorem execBx_pass (rm : Reg) :
    execBx c rm s = .next ({ s with t := (s.reg rm).getLsbD 0 }.setPc (s.reg rm &&& 0xFFFFFFFE#32)) :=
  whenCond_pass hc _

end

end Sys2Proof.Machine

namespace Sys2Proof.Claims

open Sys2Proof.Machine

/-- Settles O15: the effect is one register write, and the target's clauses are facts about the offset. -/
theorem branchInstruction : Obligations.BranchInstruction := by
  refine ⟨fun _ => decodeArm_b, fun c imm24 s hc =>
    ⟨_, execB_pass hc imm24, ?_, ?_, ?_, ⟨rfl, rfl, rfl, rfl⟩, regFrame_setReg s 15 _⟩⟩
  · rw [pc_setPc, branchTarget_eq]
  · rw [pc_setPc, branchTarget_aligned]
  · rintro rfl
    rw [pc_setPc, branchTarget_self]

/-- Settles O16: the link is the pc before the branch, and the branch leaves R14 alone. -/
theorem branchWithLinkInstruction : Obligations.BranchWithLinkInstruction := by
  refine ⟨fun _ => decodeArm_bl, fun c imm24 s hc =>
    ⟨_, execBl_pass hc imm24, ?_, ?_, ⟨rfl, rfl, rfl, rfl⟩, ?_⟩⟩
  · rw [State.setPc_eq_setReg, State.reg_setReg_ne _ (by decide), State.reg_setReg_self, BitVec.sub_add_cancel]
  · rw [pc_setPc, branchTarget_eq]
  · exact ((regFrame_setReg s 14 _).mono (by decide)).trans ((regFrame_setReg _ 15 _).mono (by decide))

/-- Settles O17: both results come from the register as read before either write. -/
theorem branchExchangeInstruction : Obligations.BranchExchangeInstruction := by
  refine ⟨fun _ => decodeArm_bx, fun c rm s hc => ?_⟩
  have hexec : exec (.bx c rm) s = _ := execBx_pass hc rm
  have hbus := sameBus_exec hexec (fun _ => ⟨nofun, nofun⟩) nofun
  refine ⟨_, hexec, rfl, ?_, ⟨rfl, rfl, rfl, rfl⟩, fun r hr => ?_, hbus, hbus.peek, rfl, rfl⟩
  · rw [pc_setPc, toNat_and_clearBit0]
  · exact State.reg_setReg_ne _ (List.ne_of_not_mem_cons hr) _

end Sys2Proof.Claims
end

section
/-! The block transfers of 43_arm_block_transfer.md: LDM (R161) and STM (R162), with the addresses of R160 and R164. -/

namespace Sys2Proof.Machine

open Sys2Proof.Claims

variable {s t : State}

/-! What states with the same storage have in common, in the terms of the statements. -/

theorem SameBus.valueAt (h : SameBus s t) (addr : Word) (n : Width) : valueAt t addr n = valueAt s addr n := by
  cases n <;> simp only [Claims.valueAt, h.peek]

theorem afterStore_congr {a : Word} (hcfg : t.cfg = s.cfg) (hpeek : t.peek a = s.peek a) (b : Byte) :
    afterStore t a b = afterStore s a b := by
  simp only [afterStore, hcfg, hpeek]

/-! A bus write, in the terms of the statements. -/

theorem target_after_eq_afterStore (s : State) (a : Word) (b : Byte) :
    (target s.cfg a).after (s.peek a) b = afterStore s a b := by
  unfold Target.after afterStore
  cases target s.cfg a <;> rfl

/-- After a write access, each byte of it reads as its own target says (20_memory.md R52, R57, R58, R60). -/
theorem peek_writeN_nth (hi : s.Inv) {n : Width} {k : Nat} (hk : k < n.bytes) (kind : AccessKind) (addr v : Word) :
    (writeN kind addr n v s).peek (nth addr k) = afterStore s (nth addr k) (byteOf v k) := by
  have hmem : (nth addr k, byteOf v k) ∈ (byteAddrs addr n.bytes).zip (bytesFrom v 0 n.bytes) := by
    rw [zip_byteAddrs_bytesFrom]
    exact List.mem_map_of_mem (List.mem_range.2 hk)
  have hnodup : (((byteAddrs addr n.bytes).zip (bytesFrom v 0 n.bytes)).map Prod.fst).Nodup := by
    rw [List.map_fst_zip (by simp)]
    exact byteAddrs_nodup addr (by cases n <;> decide)
  rw [(sameBus_writeN kind addr n v s).peek, peek_writeBytes_of_mem hnodup hmem hi, target_after_eq_afterStore]

/-- A write access leaves every other byte as it reads. -/
theorem peek_writeN_of_ne {a addr : Word} {n : Width} (h : ∀ k < n.bytes, a ≠ nth addr k) (kind : AccessKind)
    (v : Word) (s : State) : (writeN kind addr n v s).peek a = s.peek a := by
  rw [(sameBus_writeN kind addr n v s).peek, zip_byteAddrs_bytesFrom, peek_writeBytes_of_not_mem]
  simp only [List.mem_map, List.mem_range, Prod.mk.injEq]
  rintro b ⟨k, hk, rfl, -⟩
  exact h k hk rfl

theorem noteReadOnly_eq_readOnlyEvents (kind : AccessKind) (addr : Word) (n : Width) (s : State) :
    noteReadOnly kind addr n s = { s with events := s.events ++ readOnlyEvents s.cfg kind addr n } := by
  have hany : (byteAddrs addr n.bytes).any (isReadOnly s.cfg) = true
      ↔ ∃ k < n.bytes, (resolve s.cfg (nth addr k) = some .boot ∨ resolve s.cfg (nth addr k) = some .cart) := by
    simp [byteAddrs_eq_map_nth, isReadOnly_iff]
  unfold noteReadOnly readOnlyEvents
  by_cases h : ∃ k < n.bytes, (resolve s.cfg (nth addr k) = some .boot ∨ resolve s.cfg (nth addr k) = some .cart)
  · rw [if_pos (hany.2 h), if_pos h]
    rfl
  · rw [if_neg (mt hany.1 h), if_neg h, List.append_nil]

/-- The events of a write of bytes outside the timer range: its InvalidAddress and its ReadOnlyViolation, each if it
has one. -/
theorem writeN_events_of_noTimer {addr : Word} {n : Width} (h : noTimer s.cfg addr n.bytes) (kind : AccessKind)
    (v : Word) : (writeN kind addr n v s).events
      = s.events ++ (invalidEvents s.cfg kind addr n ++ readOnlyEvents s.cfg kind addr n) := by
  have hbytes : ∀ a ∈ byteAddrs addr n.bytes, isTimer s.cfg a = false := by
    intro a ha
    obtain ⟨k, hk, rfl⟩ := mem_byteAddrs_nth.1 ha
    exact h k hk
  rw [writeN_of_not_timer hbytes, noteReadOnly_eq_readOnlyEvents, noteUnmapped_eq_invalidEvents]
  simp only [writeBytes_events, writeBytes_cfg, List.append_assoc]

/-! The words of a block transfer, one after another (R160). -/

/-- The registers' words lie one after another from `addr` on, each at the address `place` gives it. -/
def LaidOut (place : Reg → Word) : List Reg → Word → Prop
  | [], _ => True
  | r :: rs, addr => place r = addr ∧ LaidOut place rs (addr + 4#32)

theorem LaidOut.congr {place place' : Reg → Word} {rs : List Reg} {addr : Word} (h : LaidOut place rs addr)
    (heq : ∀ r ∈ rs, place' r = place r) : LaidOut place' rs addr := by
  induction rs generalizing addr with
  | nil => trivial
  | cons q rs ih =>
    obtain ⟨hq, hrs⟩ := h
    rw [List.forall_mem_cons] at heq
    exact ⟨heq.1.trans hq, ih hrs heq.2⟩

/-- In an ascending list, a register's word comes after as many words as there are registers below it. -/
theorem laidOut_of_ascending {rs : List Reg} (hrs : rs.Pairwise (· < ·)) (addr : Word) :
    LaidOut (fun r => addr + 4 * BitVec.ofNat 32 (rs.countP (· < r))) rs addr := by
  induction rs generalizing addr with
  | nil => trivial
  | cons q rs ih =>
    obtain ⟨hq, hrs⟩ := List.pairwise_cons.1 hrs
    refine ⟨?_, (ih hrs (addr + 4#32)).congr fun r hr => ?_⟩
    · have hnone : (q :: rs).countP (· < q) = 0 := by
        simpa [List.countP_eq_zero] using fun r hr => (hq r hr).le
      simp [hnone]
    · have hone : (q :: rs).countP (· < r) = rs.countP (· < r) + 1 :=
        List.countP_cons_of_pos (by simpa using hq r hr)
      rw [hone, BitVec.ofNat_add, BitVec.mul_add, BitVec.add_assoc, BitVec.add_comm 4#32]
      rfl

theorem add_four_eq_nth (addr : Word) : addr + 4#32 = nth addr 4 := rfl

/-- Each word of the transfer is a whole number of words from the start. -/
theorem LaidOut.exists_nth {place : Reg → Word} {rs : List Reg} {addr : Word} (h : LaidOut place rs addr) {r : Reg}
    (hr : r ∈ rs) : ∃ i < rs.length, place r = nth addr (4 * i) := by
  induction rs generalizing addr with
  | nil => cases hr
  | cons q rs ih =>
    obtain ⟨hq, hrs⟩ := h
    rcases List.mem_cons.1 hr with rfl | hr
    · exact ⟨0, by simp, by simp [hq, nth]⟩
    · obtain ⟨i, hi, hplace⟩ := ih hrs hr
      refine ⟨i + 1, by simpa using hi, ?_⟩
      rw [hplace, add_four_eq_nth, nth_nth, Nat.mul_add, Nat.add_comm]

/-- Different bytes from one address on are at different addresses, within the address space. -/
theorem nth_injective {addr : Word} {i j : Nat} (hi : i < 2 ^ 32) (hj : j < 2 ^ 32) (h : nth addr i = nth addr j) :
    i = j := by
  have hofNat : BitVec.ofNat 32 i = BitVec.ofNat 32 j := (BitVec.add_right_inj addr).1 h
  have htoNat := congrArg BitVec.toNat hofNat
  rwa [BitVec.toNat_ofNat, BitVec.toNat_ofNat, Nat.mod_eq_of_lt hi, Nat.mod_eq_of_lt hj] at htoNat

/-- The bytes of the later words are not those of the first. -/
theorem LaidOut.nth_ne {place : Reg → Word} {rs : List Reg} {addr : Word} (h : LaidOut place rs (addr + 4#32))
    (hlen : rs.length < 16) {r : Reg} (hr : r ∈ rs) {j k : Nat} (hj : j < 4) (hk : k < 4) :
    nth (place r) j ≠ nth addr k := by
  obtain ⟨i, hi, hplace⟩ := h.exists_nth hr
  rw [hplace, add_four_eq_nth, nth_nth, nth_nth]
  intro heq
  have := nth_injective (by omega) (by omega) heq
  omega

/-! The addresses of the statements (R164). -/

theorem listedRegs_eq_regsOf (f : BlockArgs) : listedRegs f = regsOf f.list := rfl

theorem mem_listedRegs {f : BlockArgs} {r : Reg} : r ∈ listedRegs f ↔ f.list.getLsbD r.val = true := mem_regsOf

/-- The listed registers below a number, counted in the list. -/
theorem listed_eq_countP (f : BlockArgs) {m : Nat} (hm : m ≤ 16) :
    listed f m = (listedRegs f).countP (·.val < m) := by
  have hrange : ∀ m ≤ 16, List.range m = ((List.finRange 16).filter (·.val < m)).map Fin.val := by decide
  rw [listed, hrange m hm, List.countP_map, List.countP_filter, listedRegs, List.countP_filter]
  exact List.countP_congr fun r _ => by simp [and_comm]

theorem listed_sixteen (f : BlockArgs) : listed f 16 = regCount f.list := by
  rw [listed_eq_countP f (Nat.le_refl 16), regCount, ← listedRegs_eq_regsOf, List.countP_eq_length]
  exact fun r _ => by simp [r.isLt]

theorem listedRegs_length_le (f : BlockArgs) : (listedRegs f).length ≤ 16 :=
  (List.length_filter_le _ (List.finRange 16)).trans (List.length_finRange (n := 16)).le

theorem blockBytes_eq (f : BlockArgs) : blockBytes f.list = 4 * BitVec.ofNat 32 (listed f 16) := by
  rw [blockBytes, listed_sixteen, BitVec.ofNat_mul]
  rfl

theorem blockStart_eq_blockFirst (f : BlockArgs) (s : State) : blockStart f s = blockFirst f s := by
  unfold blockStart blockFirst
  rw [blockBytes_eq]
  cases f.pre <;> cases f.up <;> rfl

theorem blockWriteBack_eq_blockBase (f : BlockArgs) (s : State) : blockWriteBack f s = blockBase f s := by
  rw [blockWriteBack, blockBase, blockBytes_eq]

/-- The listed registers' words lie one after another from the first address, at the addresses of R164. -/
theorem laidOut_listedRegs (f : BlockArgs) (s : State) :
    LaidOut (blockAddr f s) (listedRegs f) (blockFirst f s) := by
  refine (laidOut_of_ascending (regsOf_pairwise f.list) _).congr fun r _ => ?_
  rw [blockAddr, listed_eq_countP f r.isLt.le]
  rfl

/-! The loads of a block transfer (R161). -/

theorem sameBus_readN_setReg (kind : AccessKind) (addr : Word) (n : Width) (s : State) (r : Reg) (v : Word) :
    SameBus s ((readN kind addr n s).2.setReg r v) :=
  (drew_readN kind addr n s).sameBus.trans (SameBus.setReg _ r v)

section
variable {place : Reg → Word} {rs : List Reg} {addr : Word} (h : LaidOut place rs addr)
include h

/-- A loaded register takes the word at its address: no load changes what a later one reads. -/
theorem loadRegs_reg {r : Reg} (hr : r ∈ rs) (hn : noTimer s.cfg (place r) 4) :
    (loadRegs rs addr s).reg r = valueAt s (place r) .word := by
  induction rs generalizing addr s with
  | nil => cases hr
  | cons q rs ih =>
    obtain ⟨hq, hrs⟩ := h
    have hbus := sameBus_readN_setReg .read addr .word s q (readN .read addr .word s).1
    rw [loadRegs]
    by_cases hlater : r ∈ rs
    · rw [ih hrs hlater (by rwa [hbus.cfg]), hbus.valueAt]
    · obtain rfl : r = q := (List.mem_cons.1 hr).resolve_right hlater
      rw [(loadRegs_frame _ _ _).2.2 r hlater, State.reg_setReg_self, ← hq, readN_of_noTimer hn]

/-- Outside the timer range the loads emit their InvalidAddress events and draw no answer. -/
theorem loadRegs_output (hn : ∀ r ∈ rs, noTimer s.cfg (place r) 4) :
    (loadRegs rs addr s).events = s.events ++ rs.flatMap (fun r => invalidEvents s.cfg .read (place r) .word)
      ∧ (loadRegs rs addr s).timerDraws = s.timerDraws := by
  induction rs generalizing addr s with
  | nil => simp [loadRegs]
  | cons q rs ih =>
    obtain ⟨rfl, hrs⟩ := h
    obtain ⟨hnq, hn⟩ := List.forall_mem_cons.1 hn
    have hread := readN_of_noTimer (n := .word) hnq .read
    have hbus := sameBus_readN_setReg .read (place q) .word s q (readN .read (place q) .word s).1
    obtain ⟨hevents, hdraws⟩ := ih hrs (by rwa [hbus.cfg])
    rw [loadRegs, hevents, hdraws, hread]
    exact ⟨by simp, rfl⟩

/-! The stores of a block transfer (R162). -/

/-- The stores leave every byte outside their words as it reads. -/
theorem peek_storeRegs_of_ne {a : Word} (ha : ∀ r ∈ rs, ∀ k < 4, a ≠ nth (place r) k) :
    (storeRegs rs addr s).peek a = s.peek a := by
  induction rs generalizing addr s with
  | nil => rfl
  | cons q rs ih =>
    obtain ⟨rfl, hrs⟩ := h
    obtain ⟨haq, ha⟩ := List.forall_mem_cons.1 ha
    rw [storeRegs, ih hrs ha, peek_writeN_of_ne (n := .word) haq]

/-- Each byte of a stored register reads as after its one store, since the words do not overlap. -/
theorem peek_storeRegs_nth (hlen : rs.length ≤ 16) (hi : s.Inv) {r : Reg} (hr : r ∈ rs) {k : Nat} (hk : k < 4) :
    (storeRegs rs addr s).peek (nth (place r) k) = afterStore s (nth (place r) k) (byteOf (s.reg r) k) := by
  induction rs generalizing addr s with
  | nil => cases hr
  | cons q rs ih =>
    obtain ⟨rfl, hrs⟩ := h
    have hlen : rs.length < 16 := hlen
    obtain ⟨hcfg, -, -, -, -, -, hreg⟩ := (wrote_writeN .write (place q) .word (s.reg q) s).frame
    rw [storeRegs]
    rcases List.mem_cons.1 hr with rfl | hlater
    · rw [peek_storeRegs_of_ne hrs fun q hq j hj => (hrs.nth_ne hlen hq hj hk).symm,
        peek_writeN_nth hi (n := .word) hk]
    · have hkeep := peek_writeN_of_ne (n := .word) (fun j hj => hrs.nth_ne hlen hlater hk hj) .write (s.reg q) s
      rw [ih hrs hlen.le (inv_writeN hi _ _ _ _) hlater, hreg, afterStore_congr hcfg hkeep]

/-- Outside the timer range the stores emit their InvalidAddress and ReadOnlyViolation events in order. -/
theorem storeRegs_events (hn : ∀ r ∈ rs, noTimer s.cfg (place r) 4) :
    (storeRegs rs addr s).events = s.events ++ rs.flatMap (fun r => invalidEvents s.cfg .write (place r) .word
      ++ readOnlyEvents s.cfg .write (place r) .word) := by
  induction rs generalizing addr s with
  | nil => simp [storeRegs]
  | cons q rs ih =>
    obtain ⟨rfl, hrs⟩ := h
    obtain ⟨hnq, hn⟩ := List.forall_mem_cons.1 hn
    have hcfg := (wrote_writeN .write (place q) .word (s.reg q) s).frame.1
    rw [storeRegs, ih hrs (by rwa [hcfg]), writeN_events_of_noTimer (n := .word) hnq, hcfg, List.flatMap_cons,
      List.append_assoc]

end

/-! The write-back (R160). -/

/-- The base register written back if W = 1. -/
def writeBase (f : BlockArgs) (v : Word) (s : State) : State := if f.writeBack then s.setReg f.rn v else s

section
variable (f : BlockArgs) (v : Word) (s : State)

theorem sameBus_writeBase : SameBus s (writeBase f v s) := (SameBus.refl s).ite (SameBus.setReg s _ _)

theorem sameStatus_writeBase : SameStatus s (writeBase f v s) := by
  unfold writeBase
  split
  · exact SameStatus.setReg s _ _
  · exact SameStatus.refl s

theorem silent_writeBase : Silent s (writeBase f v s) := by
  unfold writeBase
  split <;> exact ⟨rfl, rfl⟩

variable {f v s}

theorem writeBase_of_writeBack (hw : f.writeBack = true) : writeBase f v s = s.setReg f.rn v := if_pos hw

theorem writeBase_of_not_writeBack (hw : f.writeBack = false) : writeBase f v s = s := by
  rw [writeBase, hw]
  rfl

theorem writeBase_reg_of_ne {r : Reg} (h : r ≠ f.rn ∨ f.writeBack = false) : (writeBase f v s).reg r = s.reg r := by
  unfold writeBase
  split
  · next hw => exact State.reg_setReg_ne s (h.resolve_right (by simp [hw])) v
  · rfl

end

/-! Effects under a condition that passes. -/

section
variable {f : BlockArgs} (hc : condPasses f.cond s = true)
include hc

theorem execLdm_pass :
    execLdm f s = .next (loadRegs (listedRegs f) (blockFirst f s) (writeBase f (blockBase f s) s)) := by
  rw [execLdm, whenCond_pass hc, blockStart_eq_blockFirst, blockWriteBack_eq_blockBase]
  rfl

theorem execStm_pass :
    execStm f s = .next (writeBase f (blockBase f s) (storeRegs (listedRegs f) (blockFirst f s) s)) := by
  rw [execStm, whenCond_pass hc, blockStart_eq_blockFirst, blockWriteBack_eq_blockBase]
  rfl

end

end Sys2Proof.Machine

namespace Sys2Proof.Claims

open Sys2Proof.Machine

/-- Settles O21: the write-back comes first, so a listed base is loaded over it, and no load touches the storage. -/
theorem loadMultiple : Obligations.LoadMultiple := by
  refine ⟨fun w hclass hl => ?_, fun f s hc => ?_⟩
  · rw [decodeArm_block hclass, flagAt_eq, hl]
    rfl
  have hbase := sameBus_writeBase f (blockBase f s) s
  have hsilent := silent_writeBase f (blockBase f s) s
  have hlaid := laidOut_listedRegs f s
  obtain ⟨hbus, hstatus, hregs⟩ := loadRegs_frame (listedRegs f) (blockFirst f s) (writeBase f (blockBase f s) s)
  have hkept : ∀ r, f.list.getLsbD r.val = false → r ∉ listedRegs f := fun r hr hmem =>
    Bool.eq_false_iff.1 hr (mem_listedRegs.1 hmem)
  refine ⟨_, execLdm_pass hc, rfl, fun r hr hn => ?_, fun hr hw => ?_, fun r hr hne => ?_, fun hn => ?_,
    hbase.trans hbus, (hbase.trans hbus).peek, (sameStatus_writeBase f _ s).trans hstatus⟩
  · rw [loadRegs_reg hlaid (mem_listedRegs.2 hr) (by rwa [hbase.cfg]), hbase.valueAt]
  · rw [hregs _ (hkept _ hr), writeBase_of_writeBack hw, State.reg_setReg_self]
  · rw [hregs _ (hkept _ hr), writeBase_reg_of_ne hne]
  · have hout := loadRegs_output hlaid (s := writeBase f (blockBase f s) s) fun r hr => by
      rw [hbase.cfg]
      exact hn r (mem_listedRegs.1 hr)
    rwa [hbase.cfg, hsilent.events, hsilent.timerDraws] at hout

/-- Settles O22: every store reads its register before the write-back, and the words do not overlap. -/
theorem storeMultiple : Obligations.StoreMultiple := by
  refine ⟨fun w hclass hl => ?_, fun f s hi hc => ?_⟩
  · rw [decodeArm_block hclass, flagAt_eq, hl]
    rfl
  have hlaid := laidOut_listedRegs f s
  have hbase := sameBus_writeBase f (blockBase f s) (storeRegs (listedRegs f) (blockFirst f s) s)
  have hsilent := silent_writeBase f (blockBase f s) (storeRegs (listedRegs f) (blockFirst f s) s)
  obtain ⟨hcfg, hboot, hcart, hloaded, hstatus, hdraws, hregs⟩ :=
    (wrote_storeRegs (listedRegs f) (blockFirst f s) s).frame
  refine ⟨_, execStm_pass hc, hsilent.events, fun r hr k hk => ?_, fun a ha => ?_, fun hw => ⟨?_, fun r hr => ?_⟩,
    fun hw r _ => ?_, fun hn => ?_,
    hbase.cfg.trans hcfg, hbase.boot.trans hboot, hbase.cart.trans hcart, hbase.imagesLoaded.trans hloaded,
    hstatus.trans (sameStatus_writeBase f _ _), hsilent.timerDraws.trans hdraws⟩
  · rw [hbase.peek, peek_storeRegs_nth hlaid (listedRegs_length_le f) hi (mem_listedRegs.2 hr) hk, byteOf]
  · rw [hbase.peek, peek_storeRegs_of_ne hlaid fun r hr => ha r (mem_listedRegs.1 hr)]
  · rw [writeBase_of_writeBack hw, State.reg_setReg_self]
  · rw [writeBase_reg_of_ne (.inl (List.ne_of_not_mem_cons hr)), hregs]
  · rw [writeBase_of_not_writeBack hw, hregs]
  · rw [hsilent.events, storeRegs_events hlaid fun r hr => hn r (mem_listedRegs.1 hr)]

end Sys2Proof.Claims
end

section
/-! The single transfers of 44_arm_single_transfer.md: LDR and LDRB (R171, R172), STR and STRB (R173, R174); and the
registers an instruction can write, of which the pc is one (40_execution_cycle.md R118). -/

namespace Sys2Proof

open Sys2Proof.Machine

theorem decodeArm_load {w : Word} (h : w.extractLsb' 26 2 = 0b01#2) (hl : w.getLsbD 20 = true) :
    decodeArm w = if w.getLsbD 22 then .ldrb (sdtArgsOf w) else .ldr (sdtArgsOf w) := by
  rw [decodeArm_sdt h, decodeSdt, flagAt_eq, flagAt_eq, hl]
  rfl

theorem decodeArm_store {w : Word} (h : w.extractLsb' 26 2 = 0b01#2) (hl : w.getLsbD 20 = false) :
    decodeArm w = if w.getLsbD 22 then .strb (sdtArgsOf w) else .str (sdtArgsOf w) := by
  rw [decodeArm_sdt h, decodeSdt, flagAt_eq, flagAt_eq, hl]
  rfl

end Sys2Proof

namespace Sys2Proof.Machine

open Sys2Proof.Claims

variable {s t u : State}

/-! Registers that stay. -/

theorem SameRegsBut.refl (rs : List Reg) (s : State) : SameRegsBut rs s s := fun _ _ => rfl

theorem SameRegsBut.trans {rs qs : List Reg} (h : SameRegsBut rs s t) (h' : SameRegsBut qs t u) :
    SameRegsBut (rs ++ qs) s u := by
  intro r hr
  rw [List.mem_append, not_or] at hr
  exact (h' r hr.2).trans (h r hr.1)

theorem SameRegsBut.mono {rs qs : List Reg} (h : SameRegsBut rs s t) (hsub : rs ⊆ qs) : SameRegsBut qs s t :=
  fun r hr => h r (mt (@hsub r) hr)

theorem sameRegsBut_setReg (s : State) (r : Reg) (v : Word) : SameRegsBut [r] s (s.setReg r v) :=
  (regFrame_setReg s r v).regs

theorem Drew.sameRegs (h : Drew s t) : SameRegsBut [] s t := fun r _ => h.reg r

theorem Wrote.sameRegs (h : Wrote s t) : SameRegsBut [] s t :=
  have ⟨_, _, _, _, _, _, hreg⟩ := h.frame
  fun r _ => hreg r

/-- The base register of a transfer, if it is written back. -/
def writtenBack (w : Bool) (rn : Reg) : List Reg := if w then [rn] else []

theorem mem_writtenBack {w : Bool} {rn r : Reg} : r ∈ writtenBack w rn ↔ rn = r ∧ w = true := by
  cases w <;> simp [writtenBack, eq_comm]

theorem sameRegsBut_writeBack (w : Bool) (rn : Reg) (v : Word) (s : State) :
    SameRegsBut (writtenBack w rn) s (if w then s.setReg rn v else s) := by
  cases w
  · exact SameRegsBut.refl [] s
  · exact sameRegsBut_setReg s rn v

/-! Single transfers (R170 to R175). -/

theorem sdtAdjusted_eq_sdtAdj (f : SdtArgs) (s : State) : sdtAdjusted f s = sdtAdj f s := by
  simp only [sdtAdjusted, sdtAdj, BitVec.ofNat_toNat, BitVec.zeroExtend_eq_setWidth]

theorem sdtAddress_eq_sdtEa (f : SdtArgs) (s : State) : sdtAddress f s = sdtEa f s := by
  rw [sdtAddress, sdtEa, sdtAdjusted_eq_sdtAdj]

section
variable (n : Width) (f : SdtArgs) (s : State)

/-- A load is one bus read, and then register writes. -/
theorem loadTo_eq_readN_with_regs :
    ∃ x, loadTo n f s = { (readN .read (sdtEa f s) n s).2 with x := x } := by
  rw [loadTo, sdtAddress_eq_sdtEa]
  dsimp only
  split <;> exact ⟨_, rfl⟩

theorem loadTo_rd : (loadTo n f s).reg f.rd = (readN .read (sdtEa f s) n s).1 := by
  rw [loadTo, sdtAddress_eq_sdtEa]
  exact State.reg_setReg_self _ f.rd _

theorem loadTo_rn (hw : f.writeBack = true) (hne : f.rn ≠ f.rd) : (loadTo n f s).reg f.rn = sdtAdj f s := by
  rw [loadTo, hw, State.reg_setReg_ne _ hne, if_pos rfl, State.reg_setReg_self, sdtAdjusted_eq_sdtAdj]

theorem sameRegsBut_loadTo : SameRegsBut (writtenBack f.writeBack f.rn ++ [f.rd]) s (loadTo n f s) :=
  ((drew_readN _ _ n s).sameRegs.trans (sameRegsBut_writeBack _ f.rn _ _)).trans (sameRegsBut_setReg _ f.rd _)

theorem loadFrame_loadTo : LoadFrame s (loadTo n f s) := by
  obtain ⟨x, hx⟩ := loadTo_eq_readN_with_regs n f s
  have hbus := sameBus_loadTo n f s
  refine ⟨hbus, hbus.peek, ?_⟩
  rw [hx]
  exact (drew_readN .read (sdtEa f s) n s).sameStatus.trans ⟨rfl, rfl, rfl, rfl, rfl⟩

/-- A store is one bus write, and then at most a register write. -/
theorem storeFrom_eq_writeN_with_regs :
    ∃ x, storeFrom n f s = { writeN .write (sdtEa f s) n (s.reg f.rd) s with x := x } := by
  rw [storeFrom, sdtAddress_eq_sdtEa]
  dsimp only
  split <;> exact ⟨_, rfl⟩

theorem storeFrom_rn (hw : f.writeBack = true) : (storeFrom n f s).reg f.rn = sdtAdj f s := by
  rw [storeFrom, hw, if_pos rfl, State.reg_setReg_self, sdtAdjusted_eq_sdtAdj]

theorem sameRegsBut_storeFrom : SameRegsBut (writtenBack f.writeBack f.rn) s (storeFrom n f s) :=
  (wrote_writeN _ _ n _ s).sameRegs.trans (sameRegsBut_writeBack _ f.rn _ _)

theorem storeFrame_storeFrom : StoreFrame s (storeFrom n f s) := by
  obtain ⟨x, hx⟩ := storeFrom_eq_writeN_with_regs n f s
  obtain ⟨hcfg, hboot, hcart, hloaded, hstatus, hdraws, -⟩ :=
    (wrote_writeN .write (sdtEa f s) n (s.reg f.rd) s).frame
  rw [hx]
  exact ⟨hcfg, hboot, hcart, hloaded, hstatus.trans ⟨rfl, rfl, rfl, rfl, rfl⟩, hdraws⟩

end

/-! The registers an instruction can write. -/

/-- Every register that an instruction can write, its condition and its operands' values left open. -/
def writtenRegs : Instr → List Reg
  | .b _ _ | .bx _ _ | .thumbB _ => [15]
  | .bl _ _ => [14, 15]
  | .ldm f => writtenBack f.writeBack f.rn ++ listedRegs f
  | .stm f => writtenBack f.writeBack f.rn
  | .ldr f | .ldrb f => writtenBack f.writeBack f.rn ++ [f.rd]
  | .str f | .strb f => writtenBack f.writeBack f.rn
  | .armAnd f | .armEor f | .sub f | .rsb f | .add f | .armOrr f | .mov f => [f.rd]
  | .lslImm _ _ rd | .lsrImm _ _ rd | .asrImm _ _ rd | .movImm8 rd _ | .addImm8 rd _ | .subImm8 rd _
  | .thumbAnd _ rd | .thumbEor _ rd | .thumbOrr _ rd | .movLow _ rd => [lowReg rd]
  | .swi _ _ | .coprocUnknown _ _ _ | .cmp _ | .adcUnknown _ | .sbcUnknown _ | .rscUnknown _ | .tstUnknown _
  | .teqUnknown _ | .cmnUnknown _ | .bicUnknown _ | .mvnUnknown _ | .cmpImm8 _ _ | .thumbUnknown _ => []

theorem sameRegsBut_of_whenCond {rs : List Reg} {c : Cond} {body : State → State} (h : whenCond c body s = .next t)
    (hb : SameRegsBut rs s (body s)) : SameRegsBut rs s t := by
  obtain ⟨-, rfl⟩ | ⟨-, rfl⟩ := whenCond_cases h
  · exact hb
  · exact SameRegsBut.refl rs _

theorem sameRegsBut_execLogical {op : Word → Word → Word} {f : DpArgs} (h : execLogical op f s = .next t) :
    SameRegsBut [f.rd] s t :=
  sameRegsBut_of_whenCond h (regFrame_writeRd (regFrame_setNZ _) f _ s).regs

theorem sameRegsBut_execLdm {f : BlockArgs} (h : execLdm f s = .next t) :
    SameRegsBut (writtenBack f.writeBack f.rn ++ listedRegs f) s t :=
  sameRegsBut_of_whenCond h ((sameRegsBut_writeBack _ f.rn _ s).trans (loadRegs_frame _ _ _).2.2)

theorem sameRegsBut_execStm {f : BlockArgs} (h : execStm f s = .next t) :
    SameRegsBut (writtenBack f.writeBack f.rn) s t :=
  sameRegsBut_of_whenCond h ((wrote_storeRegs _ _ s).sameRegs.trans (sameRegsBut_writeBack _ f.rn _ _))

/-- Executing an instruction leaves every register that it does not name as written. -/
theorem sameRegsBut_exec {i : Instr} (h : exec i s = .next t) : SameRegsBut (writtenRegs i) s t := by
  unfold exec at h
  cases i with
  | swi | coprocUnknown | cmp | adcUnknown | sbcUnknown | rscUnknown | tstUnknown | teqUnknown | cmnUnknown | bicUnknown
  | mvnUnknown => exact sameRegsBut_of_whenCond h fun _ _ => rfl
  | b => exact sameRegsBut_of_whenCond h (sameRegsBut_setReg s _ _)
  | bx => exact sameRegsBut_of_whenCond h (sameRegsBut_setReg _ _ _)
  | bl => exact sameRegsBut_of_whenCond h ((sameRegsBut_setReg s _ _).trans (sameRegsBut_setReg _ _ _))
  | armAnd | armEor | armOrr | mov => exact sameRegsBut_execLogical h
  | sub | rsb => exact sameRegsBut_of_whenCond h (regFrame_writeRd (regFrame_subFlags _ _ _) _ _ s).regs
  | add => exact sameRegsBut_of_whenCond h (regFrame_writeRd (regFrame_addFlags _ _ _) _ _ s).regs
  | ldr | ldrb => exact sameRegsBut_of_whenCond h (sameRegsBut_loadTo _ _ s)
  | str | strb => exact sameRegsBut_of_whenCond h (sameRegsBut_storeFrom _ _ s)
  | ldm => exact sameRegsBut_execLdm h
  | stm => exact sameRegsBut_execStm h
  | lslImm | lsrImm | asrImm | movImm8 | addImm8 | subImm8 | thumbAnd | thumbEor | thumbOrr | movLow | thumbB =>
    cases h
    exact sameRegsBut_setReg s _ _
  | cmpImm8 | thumbUnknown =>
    cases h
    exact fun _ _ => rfl

theorem pc_ne_lowReg (r : LowReg) : 15 ≠ lowReg r := by
  decide +revert

end Sys2Proof.Machine

namespace Sys2Proof.Claims

open Sys2Proof.Machine

/-- The effect of a load of either width, once its encoding and its meaning are given. -/
theorem loadEffect {mk : SdtArgs → Instr} {n : Width}
    (hdecode : ∀ w : Word, w.extractLsb' 26 2 = 0b01#2 → w.getLsbD 20 = true → w.getLsbD 22 = (n == .byte) →
      decodeArm w = mk (sdtArgsOf w))
    (hexec : ∀ f s, exec (mk f) s = whenCond f.cond (loadTo n f) s) : LoadEffect mk n := by
  refine ⟨hdecode, fun f s hc => ?_⟩
  obtain ⟨x, hx⟩ := loadTo_eq_readN_with_regs n f s
  have hregs := sameRegsBut_loadTo n f s
  refine ⟨loadTo n f s, (hexec f s).trans (whenCond_pass hc _), loadTo_rd n f s, by rw [hx], by rw [hx],
    fun hn => ?_, loadTo_rn n f s, fun hw => ?_, fun hw => ?_, loadFrame_loadTo n f s⟩
  · rw [loadTo_rd, hx, readN_of_noTimer hn]
    exact ⟨rfl, rfl, rfl⟩
  · exact hregs.mono (by simp [writtenBack, hw])
  · exact hregs.mono (by simp [writtenBack, hw])

/-- The effect of a store of either width, once its encoding and its meaning are given. -/
theorem storeEffect {mk : SdtArgs → Instr} {n : Width}
    (hdecode : ∀ w : Word, w.extractLsb' 26 2 = 0b01#2 → w.getLsbD 20 = false → w.getLsbD 22 = (n == .byte) →
      decodeArm w = mk (sdtArgsOf w))
    (hexec : ∀ f s, exec (mk f) s = whenCond f.cond (storeFrom n f) s) : StoreEffect mk n := by
  refine ⟨hdecode, fun f s hi hc => ?_⟩
  obtain ⟨x, hx⟩ := storeFrom_eq_writeN_with_regs n f s
  have hpeek : ∀ a, (storeFrom n f s).peek a = (writeN .write (sdtEa f s) n (s.reg f.rd) s).peek a := fun a => by
    rw [hx]
    rfl
  have hregs := sameRegsBut_storeFrom n f s
  refine ⟨storeFrom n f s, (hexec f s).trans (whenCond_pass hc _), fun k hk => ?_, fun a ha => ?_, by rw [hx],
    fun hn => ?_, fun hw => ⟨storeFrom_rn n f s hw, ?_⟩, fun hw => ?_, storeFrame_storeFrom n f s⟩
  · rw [hpeek, peek_writeN_nth hi hk, byteOf]
  · rw [hpeek, peek_writeN_of_ne ha]
  · rw [hx, List.append_assoc, ← writeN_events_of_noTimer hn]
  · exact hregs.mono (by simp [writtenBack, hw])
  · exact hregs.mono (by simp [writtenBack, hw])

/-- Settles O19: a load is one bus read and then register writes, Rd last. -/
theorem loadInstructions : Obligations.LoadInstructions :=
  ⟨loadEffect (fun w hclass hl hb => by rw [decodeArm_load hclass hl, hb]; rfl) fun _ _ => rfl,
    loadEffect (fun w hclass hl hb => by rw [decodeArm_load hclass hl, hb]; rfl) fun _ _ => rfl⟩

/-- Settles O20: a store is one bus write of the original Rd and then the write-back. -/
theorem storeInstructions : Obligations.StoreInstructions :=
  ⟨storeEffect (fun w hclass hl hb => by rw [decodeArm_store hclass hl, hb]; rfl) fun _ _ => rfl,
    storeEffect (fun w hclass hl hb => by rw [decodeArm_store hclass hl, hb]; rfl) fun _ _ => rfl⟩

/-- Settles O42: the pc is one of the registers the instruction can write. -/
theorem pcRedirectors : Obligations.PcRedirectors := by
  intro i s t h hpc
  have hmem : 15 ∈ writtenRegs i := by
    by_contra hnot
    exact hpc (sameRegsBut_exec h 15 hnot)
  cases i with
  | b | bl | bx | thumbB => simp
  | armAnd | armEor | sub | rsb | add | armOrr | mov => simpa [writtenRegs, @eq_comm _ (15 : Reg)] using hmem
  | ldr | ldrb => simpa [writtenRegs, mem_writtenBack, @eq_comm _ (15 : Reg), or_comm] using hmem
  | str | strb | stm => simpa [writtenRegs, mem_writtenBack] using hmem
  | ldm => simpa [writtenRegs, mem_writtenBack, mem_listedRegs, or_comm] using hmem
  | lslImm | lsrImm | asrImm | movImm8 | addImm8 | subImm8 | thumbAnd | thumbEor | thumbOrr | movLow =>
    exact absurd (List.mem_singleton.1 hmem) (pc_ne_lowReg _)
  | swi | coprocUnknown | cmp | adcUnknown | sbcUnknown | rscUnknown | tstUnknown | teqUnknown | cmnUnknown
  | bicUnknown | mvnUnknown | cmpImm8 | thumbUnknown => cases hmem

end Sys2Proof.Claims
end

section
/-! Timer reads (20_memory.md R60): the collaborator's answers in the value and in the events of an access, and in the
register that LDRB loads (44_arm_single_transfer.md R172). -/

namespace Sys2Proof.Machine

open Sys2Proof.Claims

/-! The value of a byte list, by its bytes and by its size. -/

theorem extractLsb'_wordOfBytes (bs : List Byte) {k : Nat} (hk : k < 4) :
    (wordOfBytes bs).extractLsb' (8 * k) 8 = bs.getD k 0#8 := by
  refine BitVec.eq_of_getLsbD_eq fun i hi => ?_
  rw [BitVec.getLsbD_extractLsb', getLsbD_wordOfBytes _ _ (by omega), show (8 * k + i) / 8 = k by omega,
    show (8 * k + i) % 8 = i by omega]
  simp [hi]

theorem toNat_wordOfBytes_lt (bs : List Byte) : (wordOfBytes bs).toNat < 2 ^ (8 * bs.length) := by
  induction bs with
  | nil => decide
  | cons b bs ih =>
    have hpow : 2 ^ (8 * (bs.length + 1)) = 2 ^ (8 * bs.length) * 2 ^ 8 := by rw [Nat.mul_add, Nat.pow_add]
    have hb : b.toNat < 2 ^ (8 * (bs.length + 1)) :=
      b.isLt.trans_le (Nat.pow_le_pow_right (by decide) (by omega))
    have hbs : (wordOfBytes bs <<< 8).toNat < 2 ^ (8 * (bs.length + 1)) := by
      rw [BitVec.toNat_shiftLeft, Nat.shiftLeft_eq, hpow]
      exact (Nat.mod_le _ _).trans_lt (Nat.mul_lt_mul_of_pos_right ih (by decide))
    rw [wordOfBytes, BitVec.toNat_or, List.length_cons]
    refine Nat.or_lt_two_pow ?_ hbs
    rwa [BitVec.zeroExtend_eq_setWidth, BitVec.toNat_setWidth_of_le (by decide)]

/-- The two lanes of a timer value, put together again. -/
theorem halfLane_append (v : Half) : halfLane v 1 ++ halfLane v 0 = v := by
  have hwhole : halfLane v 1 ++ halfLane v 0 = v.extractLsb' 0 16 :=
    BitVec.extractLsb'_append_extractLsb'_eq_extractLsb' rfl
  rw [hwhole, BitVec.extractLsb'_eq_self]

theorem halfLanes_append (v w : Half) : halfLane v 1 ++ halfLane v 0 ++ halfLane w 1 ++ halfLane w 0 = v ++ w := by
  rw [halfLane_append, BitVec.append_assoc, halfLane_append]
  rfl

theorem nth_zero (addr : Word) : nth addr 0 = addr := BitVec.add_zero addr

/-! A read access, given the collaborator's answers. -/

/-- The byte that a read takes from an address: a lane of the answer for its channel half, or the CORE's own byte. -/
def State.byteGiven (s : State) (answer : TimerKey → Half) (a : Word) : Byte :=
  match target s.cfg a with
  | .timer ch h l => halfLane (answer (ch, h)) l
  | _ => (s.peek a).getD 0#8

theorem byteGiven_of_timer {s : State} {a : Word} {ch : Nat} {h : TimerHalf} {l : Nat}
    (ht : target s.cfg a = .timer ch h l) (answer : TimerKey → Half) :
    s.byteGiven answer a = halfLane (answer (ch, h)) l := by
  rw [State.byteGiven, ht]

/-- The value of a read access, given the answers. -/
def State.valueGiven (s : State) (answer : TimerKey → Half) (addr : Word) (n : Width) : Word :=
  wordOfBytes ((List.range n.bytes).map fun k => s.byteGiven answer (nth addr k))

theorem extractLsb'_valueGiven (s : State) (answer : TimerKey → Half) (addr : Word) {n : Width} {k : Nat}
    (hk : k < n.bytes) : (s.valueGiven answer addr n).extractLsb' (8 * k) 8 = s.byteGiven answer (nth addr k) := by
  have hn : n.bytes ≤ 4 := by cases n <;> decide
  rw [State.valueGiven, extractLsb'_wordOfBytes _ (hk.trans_le hn), List.getD_eq_getElem?_getD, List.getElem?_map,
    List.getElem?_range hk]
  rfl

theorem toNat_valueGiven_lt (s : State) (answer : TimerKey → Half) (addr : Word) (n : Width) :
    (s.valueGiven answer addr n).toNat < 2 ^ (8 * n.bytes) := by
  have hlt := toNat_wordOfBytes_lt ((List.range n.bytes).map fun k => s.byteGiven answer (nth addr k))
  rwa [List.length_map, List.length_range] at hlt

/-- An access begins with no channel half asked, so it asks for every half it touches. -/
theorem timerKeys_eq_newKeys (c : Cfg) (addr : Word) (n : Nat) :
    timerKeys c addr n = newKeys c (byteAddrs addr n) [] := by
  rw [timerKeys, newKeys_nil_seen, byteAddrs_eq_map_nth, List.filterMap_map]
  rfl

/-- Everything a read access does: one answer for each channel half, the value that the answers give, one TimerRead
each, and the InvalidAddress event, if it has one. -/
theorem readN_answers (kind : AccessKind) (addr : Word) (n : Width) (s : State) :
    ∃ answer : TimerKey → Half, readN kind addr n s = (s.valueGiven answer addr n, { s with
      events := s.events ++ (timerKeys s.cfg addr n.bytes).map (fun key => .timerRead key.1 key.2 (answer key))
        ++ invalidEvents s.cfg kind addr n
      timerDraws := s.timerDraws + (timerKeys s.cfg addr n.bytes).length }) := by
  obtain ⟨answer, -, hread⟩ := readBytes_answers (byteAddrs addr n.bytes) [] s
  refine ⟨answer, ?_⟩
  rw [readN, hread, noteUnmapped_eq_invalidEvents, timerKeys_eq_newKeys, State.valueGiven, byteAddrs_eq_map_nth,
    List.map_map]
  rfl

theorem invalidEvents_of_mapped {c : Cfg} {addr : Word} {n : Width}
    (h : ∀ k < n.bytes, target c (nth addr k) ≠ .unmapped) (kind : AccessKind) : invalidEvents c kind addr n = [] :=
  if_neg fun ⟨k, hk, hu⟩ => h k hk hu

/-! Accesses that lie inside one timer channel. -/

section
variable {s : State} {addr : Word} {ch : Nat} {h : TimerHalf} (kind : AccessKind)

/-- An access whose bytes are all timer bytes asks once for each channel half, and emits nothing else. -/
theorem readN_of_timer {n : Width} {half : Nat → TimerHalf} {lane : Nat → Nat}
    (ht : ∀ k < n.bytes, target s.cfg (nth addr k) = .timer ch (half k) (lane k)) {keys : List TimerKey}
    (hkeys : ((List.range n.bytes).map fun k => (ch, half k)).eraseDups = keys) :
    ∃ answer : TimerKey → Half, readN kind addr n s =
      (wordOfBytes ((List.range n.bytes).map fun k => halfLane (answer (ch, half k)) (lane k)), { s with
        events := s.events ++ keys.map (fun key => .timerRead key.1 key.2 (answer key))
        timerDraws := s.timerDraws + keys.length }) := by
  obtain ⟨answer, hread⟩ := readN_answers kind addr n s
  have htimerKeys : timerKeys s.cfg addr n.bytes = keys := by
    rw [timerKeys, ← hkeys, ← List.filterMap_eq_map]
    exact congrArg _ (List.filterMap_congr fun k hk => by rw [ht k (List.mem_range.1 hk)]; rfl)
  have hinvalid : invalidEvents s.cfg kind addr n = [] :=
    invalidEvents_of_mapped (fun k hk => by rw [ht k hk]; nofun) kind
  refine ⟨answer, ?_⟩
  rw [hread, htimerKeys, hinvalid, List.append_nil, State.valueGiven]
  exact congrArg (wordOfBytes · , _)
    (List.map_congr_left fun k hk => byteGiven_of_timer (ht k (List.mem_range.1 hk)) answer)

theorem readN_word_of_timer (h0 : target s.cfg addr = .timer ch .low 0)
    (h1 : target s.cfg (nth addr 1) = .timer ch .low 1) (h2 : target s.cfg (nth addr 2) = .timer ch .high 0)
    (h3 : target s.cfg (nth addr 3) = .timer ch .high 1) :
    ∃ t0 t1 : Half, readN kind addr .word s = (t1 ++ t0, { s with
      events := s.events ++ [.timerRead ch .low t0, .timerRead ch .high t1], timerDraws := s.timerDraws + 2 }) := by
  have ht : ∀ k < Width.bytes .word,
      target s.cfg (nth addr k) = .timer ch (if k < 2 then .low else .high) (k % 2) := by
    intro k hk
    have hk : k < 4 := hk
    interval_cases k
    · rwa [nth_zero]
    · exact h1
    · exact h2
    · exact h3
  obtain ⟨answer, hread⟩ := readN_of_timer kind ht (keys := [(ch, .low), (ch, .high)])
    (by simp [Width.bytes, List.range_succ, List.eraseDups_cons])
  refine ⟨answer (ch, .low), answer (ch, .high), hread.trans (congrArg (·, _) ?_)⟩
  exact (wordOfBytes_word _ _ _ _).trans (halfLanes_append _ _)

theorem readN_half_of_timer (h0 : target s.cfg addr = .timer ch h 0)
    (h1 : target s.cfg (nth addr 1) = .timer ch h 1) :
    ∃ a : Half, readN kind addr .half s = (a.zeroExtend 32, { s with
      events := s.events ++ [.timerRead ch h a], timerDraws := s.timerDraws + 1 }) := by
  have ht : ∀ k < Width.bytes .half, target s.cfg (nth addr k) = .timer ch h k := by
    intro k hk
    have hk : k < 2 := hk
    interval_cases k
    · rwa [nth_zero]
    · exact h1
  obtain ⟨answer, hread⟩ := readN_of_timer kind ht (keys := [(ch, h)])
    (by simp [Width.bytes, List.range_succ, List.eraseDups_cons])
  refine ⟨answer (ch, h), hread.trans (congrArg (·, _) ?_)⟩
  exact (wordOfBytes_half _ _).trans (congrArg (BitVec.zeroExtend 32) (halfLane_append _))

theorem readN_byte_of_timer {l : Nat} (h0 : target s.cfg addr = .timer ch h l) :
    ∃ a : Half, readN kind addr .byte s = ((halfLane a l).zeroExtend 32, { s with
      events := s.events ++ [.timerRead ch h a], timerDraws := s.timerDraws + 1 }) := by
  have ht : ∀ k < Width.bytes .byte, target s.cfg (nth addr k) = .timer ch h l := by
    intro k hk
    rwa [Nat.lt_one_iff.1 hk, nth_zero]
  obtain ⟨answer, hread⟩ := readN_of_timer kind ht (keys := [(ch, h)])
    (by simp [Width.bytes, List.eraseDups_cons])
  exact ⟨answer (ch, h), hread.trans (congrArg (·, _) (wordOfBytes_byte _))⟩

end

end Sys2Proof.Machine

namespace Sys2Proof.Claims

open Sys2Proof.Machine

/-- Settles O55: an access is the run of its byte reads, with one answer for each channel half. -/
theorem timerReadsAskTheCollaborator : Obligations.TimerReadsAskTheCollaborator := by
  refine ⟨fun addr s kind => ⟨fun n => ?_, fun ch => readN_word_of_timer kind, fun ch h => readN_half_of_timer kind,
    fun ch h l => readN_byte_of_timer kind⟩, fun f s ch h l hc ht => ?_⟩
  · obtain ⟨answer, hread⟩ := readN_answers kind addr n s
    refine ⟨answer, fun k hk => ?_, ?_, by rw [hread]⟩
    · rw [hread, extractLsb'_valueGiven s answer addr hk, State.byteGiven]
      cases target s.cfg (nth addr k) <;> rfl
    · rw [hread]
      exact toNat_valueGiven_lt s answer addr n
  · obtain ⟨x, hx⟩ := loadTo_eq_readN_with_regs .byte f s
    obtain ⟨a, hread⟩ := readN_byte_of_timer .read ht
    exact ⟨loadTo .byte f s, a, whenCond_pass hc _, by rw [loadTo_rd, hread, halfLane], by rw [hx, hread],
      by rw [hx, hread]⟩

end Sys2Proof.Claims
end

section
/-! The software interrupt of 45_arm_swi.md: SWI (R180). -/

namespace Sys2Proof.Machine

theorem execSwi_pass {c : Cond} {s : State} (hc : condPasses c s = true) (comment : BitVec 24) :
    execSwi c comment s = .next (emit (.softwareInterrupt (armIa s) comment) s) :=
  whenCond_pass hc _

end Sys2Proof.Machine

namespace Sys2Proof.Claims

open Sys2Proof.Machine

/-- Settles O18: SWI is the first class the decoder tests, and its whole effect is to emit the event. -/
theorem softwareInterruptOnlyReports : Obligations.SoftwareInterruptOnlyReports :=
  ⟨fun _ => decodeArm_swi, fun _ comment _ hc => execSwi_pass hc comment⟩

end Sys2Proof.Claims
end

section
/-! The Thumb statements of 46_thumb.md: shifts (R187 to R189), 8-bit immediates (R190 to R193), low-register operations
(R194 to R197), B (R200), and what every Thumb instruction leaves alone (R185, R186). -/

namespace Sys2Proof

/-! Shifts as multiplication and division (R187 to R189). -/

theorem shiftLeft_eq_ofNat_mul {n : Nat} (x : BitVec n) (k : Nat) : x <<< k = BitVec.ofNat n (x.toNat * 2 ^ k) := by
  rw [← Nat.shiftLeft_eq, ← BitVec.toNat_inj, BitVec.toNat_shiftLeft, BitVec.toNat_ofNat]

theorem ushiftRight_eq_ofNat_div {n : Nat} (x : BitVec n) (k : Nat) : x >>> k = BitVec.ofNat n (x.toNat / 2 ^ k) := by
  rw [← Nat.shiftRight_eq_div_pow, ← BitVec.toNat_ushiftRight, BitVec.ofNat_toNat, BitVec.setWidth_eq]

theorem sshiftRight_eq_ofInt_div {n : Nat} (x : BitVec n) (k : Nat) :
    x.sshiftRight k = BitVec.ofInt n (x.toInt / 2 ^ k) := by
  rw [BitVec.sshiftRight, Int.shiftRight_eq_div_pow, Nat.cast_pow, Nat.cast_ofNat]

/-- Adding an even number keeps bit 0. -/
theorem getLsbD_zero_add_shiftLeft_one (a x : Word) : (a + x <<< 1).getLsbD 0 = a.getLsbD 0 := by
  have hlow := congrArg (·.getLsbD 0) (extractLsb'_zero_add_shiftLeft a x (k := 1) (by decide))
  simpa only [BitVec.getLsbD_extractLsb', Nat.zero_add, Nat.zero_lt_one, decide_true, Bool.true_and] using hlow

end Sys2Proof

namespace Sys2Proof.Machine

open Sys2Proof.Claims

variable {s t : State}

/-! The branch target, from the pc that the fetch has advanced to `ia + 2` (R200). -/

theorem thumbBranchTarget_eq (pc : Word) (offset11 : BitVec 11) :
    pc + thumbBranchOffset offset11 = pc - 2 + 2 + BitVec.ofInt 32 (2 * offset11.toInt) := by
  have hoff : thumbBranchOffset offset11 = BitVec.ofInt 32 (2 * offset11.toInt) :=
    signExtend_shiftLeft_eq_ofInt offset11 32 1
  rw [hoff, BitVec.sub_add_cancel]

theorem thumbBranchTarget_bit0 (pc : Word) (offset11 : BitVec 11) :
    (pc + thumbBranchOffset offset11).getLsbD 0 = (pc - 2).getLsbD 0 := by
  have hback : pc - (2 : Word) = pc + (-1#32) <<< 1 := by
    rw [show (-1#32) <<< 1 = -(2 : Word) by decide, ← BitVec.sub_eq_add_neg]
  rw [thumbBranchOffset, hback, getLsbD_zero_add_shiftLeft_one, getLsbD_zero_add_shiftLeft_one]

/-- The self-loop's offset takes back what the fetch advanced. -/
theorem thumbBranchTarget_self (pc : Word) : pc + thumbBranchOffset 0x7FF#11 = pc - 2 := by
  rw [show thumbBranchOffset 0x7FF#11 = -2 by decide, ← BitVec.sub_eq_add_neg]

/-! Frames. -/

/-- A flag update after a register write leaves what the write left. -/
theorem regFrame_setReg_flags {flags : State → State} (hflags : ∀ u, RegFrame [] u (flags u)) (s : State) (r : Reg)
    (v : Word) : RegFrame [r] s (flags (s.setReg r v)) :=
  (regFrame_setReg s r v).trans ((hflags _).mono (List.nil_subset _))

theorem regFrame_writeLowNZ (rd : LowReg) (r : Word) (s : State) : RegFrame [lowReg rd] s (writeLowNZ rd r s) :=
  regFrame_setReg_flags (regFrame_setNZ r) s _ r

/-- What a Thumb instruction, one without a condition, can do: emit the event of an unknown halfword, or write its
registers and the flags. -/
theorem exec_thumb_cases {i : Instr} (hi : i.cond? = none) (h : exec i s = .next t) :
    (∃ w, i = .thumbUnknown w ∧ t = emit (.unknownInstruction .thumb (thumbIa s) (w.zeroExtend 32)) s)
      ∨ RegFrame (writtenRegs i) s t := by
  cases i with
  | lslImm | lsrImm | asrImm | movImm8 | thumbAnd | thumbEor | thumbOrr =>
    cases h
    exact .inr (regFrame_writeLowNZ _ _ s)
  | cmpImm8 =>
    cases h
    exact .inr (regFrame_subFlags _ _ _ s)
  | addImm8 =>
    cases h
    exact .inr (regFrame_setReg_flags (regFrame_addFlags _ _ _) s _ _)
  | subImm8 =>
    cases h
    exact .inr (regFrame_setReg_flags (regFrame_subFlags _ _ _) s _ _)
  | movLow | thumbB =>
    cases h
    exact .inr (regFrame_setReg s _ _)
  | thumbUnknown w =>
    cases h
    exact .inl ⟨w, rfl, rfl⟩
  | _ => cases hi

/-- A Thumb instruction writes low registers, or it is B (R185). -/
theorem writtenRegs_of_thumb {i : Instr} (hi : i.cond? = none) :
    (∃ off, i = .thumbB off) ∨ ∀ r ∈ writtenRegs i, r.val < 8 := by
  cases i with
  | thumbB off => exact .inl ⟨off, rfl⟩
  | lslImm _ _ rd | lsrImm _ _ rd | asrImm _ _ rd | movImm8 rd | addImm8 rd | subImm8 rd | thumbAnd _ rd
  | thumbEor _ rd | thumbOrr _ rd | movLow _ rd =>
    exact .inr fun r hr => List.mem_singleton.1 hr ▸ rd.isLt
  | cmpImm8 | thumbUnknown => exact .inr fun _ hr => nomatch hr
  | _ => cases hi

/-! The state bit T (10_state.md R30, 46_thumb.md R186). -/

theorem tBit_of_whenCond {c : Cond} {body : State → State} (h : whenCond c body s = .next t)
    (hb : (body s).t = s.t) : t.t = s.t := by
  obtain ⟨-, rfl⟩ | ⟨-, rfl⟩ := whenCond_cases h
  · exact hb
  · rfl

theorem tBit_execLogical {op : Word → Word → Word} {f : DpArgs} (h : execLogical op f s = .next t) : t.t = s.t :=
  tBit_of_whenCond h (regFrame_writeRd (regFrame_setNZ _) f _ s).tBit

theorem tBit_execLdm {f : BlockArgs} (h : execLdm f s = .next t) : t.t = s.t := by
  refine tBit_of_whenCond h ?_
  obtain ⟨-, hstatus, -⟩ := loadRegs_frame (regsOf f.list) (blockStart f s) (writeBase f (blockWriteBack f s) s)
  exact ((sameStatus_writeBase f _ s).trans hstatus).t

theorem tBit_execStm {f : BlockArgs} (h : execStm f s = .next t) : t.t = s.t := by
  refine tBit_of_whenCond h ?_
  obtain ⟨-, -, -, -, hstatus, -⟩ := (wrote_storeRegs (regsOf f.list) (blockStart f s) s).frame
  exact (hstatus.trans (sameStatus_writeBase f (blockWriteBack f s) _)).t

theorem tBit_exec_of_thumb {i : Instr} (hi : i.cond? = none) (h : exec i s = .next t) : t.t = s.t := by
  obtain ⟨_, -, rfl⟩ | hframe := exec_thumb_cases hi h
  · rfl
  · exact hframe.tBit

/-- Every instruction but BX leaves T. -/
theorem tBit_exec {i : Instr} (h : exec i s = .next t) (hbx : ∀ c rm, i ≠ .bx c rm) : t.t = s.t := by
  by_cases hi : i.cond? = none
  · exact tBit_exec_of_thumb hi h
  unfold exec at h
  cases i with
  | bx c rm => exact absurd rfl (hbx c rm)
  | swi | coprocUnknown | b | bl | cmp | adcUnknown | sbcUnknown | rscUnknown | tstUnknown | teqUnknown | cmnUnknown
  | bicUnknown | mvnUnknown => exact tBit_of_whenCond h rfl
  | armAnd | armEor | armOrr | mov => exact tBit_execLogical h
  | sub | rsb => exact tBit_of_whenCond h (regFrame_writeRd (regFrame_subFlags _ _ _) _ _ s).tBit
  | add => exact tBit_of_whenCond h (regFrame_writeRd (regFrame_addFlags _ _ _) _ _ s).tBit
  | ldr | ldrb => exact tBit_of_whenCond h (loadFrame_loadTo _ _ s).status.t
  | str | strb => exact tBit_of_whenCond h (storeFrame_storeFrom _ _ s).status.t
  | ldm => exact tBit_execLdm h
  | stm => exact tBit_execStm h
  | _ => exact absurd rfl hi

end Sys2Proof.Machine

namespace Sys2Proof.Claims

open Sys2Proof.Machine

/-- An instruction that means one `writeLowNZ` has its effect. -/
theorem thumbNZEffect_of_writeLowNZ {i : Instr} {rd : LowReg} {s : State} {r : Word}
    (hexec : exec i s = .next (writeLowNZ rd r s)) : ThumbNZEffect i rd s r :=
  ⟨_, hexec, State.reg_setReg_self s _ r, nzof_setNZ r _, rfl, rfl, regFrame_writeLowNZ rd r s⟩

/-- Settles O23, by the arithmetic meaning of each shift. -/
theorem thumbShifts : Obligations.ThumbShifts := by
  refine ⟨fun _ => ⟨decodeThumb_lslImm, decodeThumb_lsrImm, decodeThumb_asrImm⟩, fun amount rs rd s => ?_⟩
  rw [← shiftLeft_eq_ofNat_mul, ← ushiftRight_eq_ofNat_div, ← sshiftRight_eq_ofInt_div]
  exact ⟨thumbNZEffect_of_writeLowNZ rfl, thumbNZEffect_of_writeLowNZ rfl, thumbNZEffect_of_writeLowNZ rfl⟩

/-- Settles O24: MOV is one `writeLowNZ`, CMP a flag update, ADD and SUB a register write and then a flag update. -/
theorem thumbImmediates : Obligations.ThumbImmediates := by
  refine ⟨fun _ => ⟨decodeThumb_movImm8, decodeThumb_cmpImm8, decodeThumb_addImm8, decodeThumb_subImm8⟩,
    fun rd imm8 s => ?_⟩
  rw [BitVec.ofNat_toNat]
  exact ⟨thumbNZEffect_of_writeLowNZ rfl,
    ⟨_, rfl, subFlagsOf_subFlags _ _ s, regFrame_subFlags _ _ _ s⟩,
    ⟨_, rfl, State.reg_setReg_self s _ _, addFlagsOf_addFlags _ _ _,
      regFrame_setReg_flags (regFrame_addFlags _ _ _) s _ _⟩,
    ⟨_, rfl, State.reg_setReg_self s _ _, subFlagsOf_subFlags _ _ _,
      regFrame_setReg_flags (regFrame_subFlags _ _ _) s _ _⟩⟩

/-- Settles O25: the three logical operations are one `writeLowNZ` each, and MOV is a register write alone. -/
theorem thumbRegisterOps : Obligations.ThumbRegisterOps :=
  ⟨fun _ => ⟨decodeThumb_thumbAnd, decodeThumb_thumbEor, decodeThumb_thumbOrr, decodeThumb_movLow⟩, fun _ _ s =>
    ⟨thumbNZEffect_of_writeLowNZ rfl, thumbNZEffect_of_writeLowNZ rfl, thumbNZEffect_of_writeLowNZ rfl,
      ⟨_, rfl, State.reg_setReg_self s _ _, ⟨rfl, rfl, rfl, rfl⟩, regFrame_setReg s _ _⟩⟩⟩

/-- Settles O26: the effect is one register write, and the target's clauses are facts about the offset. -/
theorem thumbBranch : Obligations.ThumbBranch := by
  refine ⟨fun _ => decodeThumb_thumbB, fun offset11 s =>
    ⟨_, rfl, ?_, ?_, ?_, ⟨rfl, rfl, rfl, rfl⟩, regFrame_setReg s 15 _⟩⟩
  · rw [pc_setPc, thumbBranchTarget_eq]
  · rw [pc_setPc, thumbBranchTarget_bit0]
  · rintro rfl
    rw [pc_setPc, thumbBranchTarget_self]

/-- Settles O36: every other instruction leaves T. -/
theorem onlyBranchExchangeWritesT : Obligations.OnlyBranchExchangeWritesT := by
  intro i s t h ht
  by_contra hbx
  exact ht (tBit_exec h fun c rm hi => hbx ⟨c, rm, hi⟩)

/-- Settles O28: the registers by those a Thumb instruction can write, the rest by its frame, or by the one event of
an unknown halfword. -/
theorem thumbInstructionsStayLocal : Obligations.ThumbInstructionsStayLocal := by
  intro i s t hi h
  have hregs := sameRegsBut_exec h
  have hhigh : ∀ r : Reg, 8 ≤ r.val → r ≠ 15 → t.reg r = s.reg r := by
    intro r hr hpc
    refine hregs r fun hmem => ?_
    obtain ⟨off, rfl⟩ | hlow := writtenRegs_of_thumb hi
    · exact hpc (List.mem_singleton.1 hmem)
    · exact absurd (hlow r hmem) (by omega)
  have hbranch : t.pc ≠ s.pc → ∃ off, i = .thumbB off := fun hpc =>
    (writtenRegs_of_thumb hi).resolve_right fun hlow => hpc (hregs 15 fun hmem => absurd (hlow 15 hmem) (by decide))
  obtain ⟨w, rfl, rfl⟩ | ⟨-, hbus, hmem, hsilent, ht⟩ := exec_thumb_cases hi h
  · exact ⟨SameBus.emit _ s, fun _ => rfl, rfl, rfl, hhigh, hbranch, fun _ => ⟨w, rfl⟩⟩
  · exact ⟨hbus, hmem, hsilent.timerDraws, ht, hhigh, hbranch, fun he => absurd hsilent.events he⟩

end Sys2Proof.Claims
end

section
/-! The statements of 70_reset_and_hazards.md: the states of reset and construction (R231, R233), and the one-way Thumb
state (R241). -/

namespace Sys2Proof.Machine

variable {s t : State}

/-! The constructed state (R233). A reset builds the same registers and flags (R231). -/

@[simp] theorem State.construct_reg (c : Cfg) (r : Reg) : (State.construct c).reg r = 0 := by
  simp only [State.construct, State.reg, Vector.get_eq_getElem, Vector.getElem_replicate]

@[simp] theorem State.construct_statusWord (c : Cfg) : (State.construct c).statusWord = 0 := by
  simp only [State.construct, State.statusWord]
  decide

@[simp] theorem resetAction_reg (s : State) (r : Reg) : (resetAction s).reg r = 0 := State.construct_reg s.cfg r

@[simp] theorem resetAction_statusWord (s : State) : (resetAction s).statusWord = 0 :=
  State.construct_statusWord s.cfg

/-! The host's actions (R236). -/

theorem eq_of_loadImage {bytes : List Byte} (h : loadImage bytes s = .next t) :
    t = { s with cart := Memory.ofBytes 0 (bytes.take s.cfg.cart.size), events := [] } := by
  unfold loadImage at h
  split at h <;> cases h
  rfl

theorem eq_of_loadBootImage {bytes : List Byte} (h : loadBootImage bytes s = .next t) :
    t = { s with boot := Memory.ofBytes 0 (bytes.take s.cfg.boot.size), events := [] } := by
  unfold loadBootImage at h
  split at h <;> cases h
  rfl

theorem sameStatus_beginStep (s : State) : SameStatus s (beginStep s) := ⟨rfl, rfl, rfl, rfl, rfl⟩

/-- Every host action but `step()` and `reset()` leaves the status. -/
theorem sameStatus_hostAct {act : HostAction} (hstep : act ≠ .step) (hreset : act ≠ .reset)
    (h : hostAct act s = .next t) : SameStatus s t := by
  cases act with
  | loadBootImage bytes =>
    obtain rfl := eq_of_loadBootImage h
    exact ⟨rfl, rfl, rfl, rfl, rfl⟩
  | loadImage bytes =>
    obtain rfl := eq_of_loadImage h
    exact ⟨rfl, rfl, rfl, rfl, rfl⟩
  | step => exact absurd rfl hstep
  | reset => exact absurd rfl hreset
  | read addr n =>
    cases h
    exact (sameStatus_beginStep s).trans (drew_readN .host addr n (beginStep s)).sameStatus
  | write addr n v =>
    cases h
    obtain ⟨-, -, -, -, hstatus, -⟩ := (wrote_writeN .host addr n v (beginStep s)).frame
    exact (sameStatus_beginStep s).trans hstatus
  | raiseIF mask =>
    cases h
    exact ⟨rfl, rfl, rfl, rfl, rfl⟩

/-! A step in Thumb state (R241). -/

/-- The Thumb decoder's instructions have no condition; BX, which writes T, has one. -/
theorem cond?_decodeThumb (h : Half) : (decodeThumb h).cond? = none := by
  unfold decodeThumb
  repeat' split
  all_goals rfl

theorem fetchDecode_cond?_of_thumb (ht : s.t = true) : (fetchDecode s).1.cond? = none := by
  rw [fetchDecode_of_thumb ht]
  exact cond?_decodeThumb _

/-- The fetch leaves T, and so does the Thumb instruction that it decodes. -/
theorem tBit_step_of_thumb (ht : s.t = true) (h : step s = .next t) : t.t = true := by
  obtain ⟨u, hu, rfl⟩ := step_cases h
  obtain ⟨-, hfetch, -⟩ := fetchDecode_frame (beginStep s)
  have hexec : u.t = (fetchDecode (beginStep s)).2.t :=
    tBit_exec_of_thumb (fetchDecode_cond?_of_thumb (s := beginStep s) ht) hu
  calc (retire u).t = (fetchDecode (beginStep s)).2.t := hexec
    _ = s.t := hfetch.t
    _ = true := ht

end Sys2Proof.Machine

namespace Sys2Proof.Claims

open Sys2Proof.Machine

/-- Settles O35: a step runs a Thumb instruction, none of which writes T, and the host's other actions leave the
status. -/
theorem thumbStateIsOneWay : Obligations.ThumbStateIsOneWay := by
  intro act s t ht hreset h
  by_cases hstep : act = .step
  · subst hstep
    exact tBit_step_of_thumb ht h
  · exact (sameStatus_hostAct hstep hreset h).t.trans ht

/-- Settles O56: what a reset clears is what construction starts with, and the rest it keeps. -/
theorem resetAction : Obligations.ResetAction := fun s =>
  ⟨Machine.resetAction s, rfl, resetAction_reg s, resetAction_reg s 15, resetAction_statusWord s, rfl,
    fun _ => ⟨rfl, rfl, rfl⟩, rfl, rfl, rfl, rfl, rfl, rfl, rfl⟩

/-- Settles O57: an array with no listed offset reads 0 everywhere. -/
theorem constructedState : Obligations.ConstructedState := fun c =>
  ⟨State.construct_reg c, State.construct_statusWord c, rfl, rfl, rfl, rfl, fun _ => ⟨rfl, rfl, rfl, rfl, rfl⟩⟩

end Sys2Proof.Claims
end

section
/-! The encoding round trips of 30_encoding.md sections 2 to 5: decoding what is encoded, and encoding what is
decoded. -/

namespace Sys2Proof

open Sys2Proof.Claims

/-! Data processing, and the BX pattern inside TEQ (R82, R83, R99). -/

/-- A TEQ term spells BX exactly when its fields are those of the pattern. -/
theorem spellsBx_iff (f : DpArgs) : f.spellsBx = true ↔
    f.op2.iBit = 0#1 ∧ BitVec.ofBool f.setFlags = 0#1 ∧ BitVec.ofFin (w := 4) f.rn = 15#4
      ∧ BitVec.ofFin (w := 4) f.rd = 15#4 ∧ f.op2.bits.extractLsb' 4 8 = 0xF1#8 := by
  obtain ⟨cond, S, rn, rd, op2⟩ := f
  have hreg : ∀ r : Reg, BitVec.ofFin (w := 4) r = 15#4 ↔ r = 15 := by decide
  cases op2 with
  | imm rot imm8 => simp [DpArgs.spellsBx, Operand2.iBit]
  | reg ignored rm =>
    have hign : (ignored ++ BitVec.ofFin (w := 4) rm).extractLsb' 4 8 = ignored := by
      rw [extractLsb'_append_hi _ _ _ _ (by decide), extractLsb'_whole]
    cases S <;> simp [DpArgs.spellsBx, Operand2.iBit, Operand2.bits, hreg, hign, and_assoc]

/-- A word's bits [27:4], field by field. -/
theorem extractLsb'_4_24_eq_fields (w : Word) : w.extractLsb' 4 24 = w.extractLsb' 26 2 ++ w.extractLsb' 25 1
    ++ w.extractLsb' 21 4 ++ w.extractLsb' 20 1 ++ w.extractLsb' 16 4 ++ w.extractLsb' 12 4 ++ w.extractLsb' 4 8 := by
  simp (disch := decide) only [BitVec.extractLsb'_append_extractLsb'_eq_extractLsb']

/-- A TEQ term encodes to a BX word exactly when it spells the BX pattern. -/
theorem encodeDp_teq_isBx_iff (f : DpArgs) :
    (encodeDp 9#4 f).extractLsb' 4 24 = 0x12FFF1#24 ↔ f.spellsBx = true := by
  obtain ⟨-, hclass, hi, hop, hs, hrn, hrd, hbits⟩ := encodeDp_fields 9#4 f
  have hign := extractLsb'_sub _ hbits 4 8 (by decide)
  rw [spellsBx_iff, ← hi, ← hs, ← hrn, ← hrd, ← hign]
  constructor
  · intro hbx
    exact ⟨extractLsb'_sub _ hbx 21 1 (by decide), extractLsb'_sub _ hbx 16 1 (by decide),
      extractLsb'_sub _ hbx 12 4 (by decide), extractLsb'_sub _ hbx 8 4 (by decide),
      extractLsb'_sub _ hbx 0 8 (by decide)⟩
  · rintro ⟨hi, hs, hrn, hrd, hign⟩
    rw [extractLsb'_4_24_eq_fields, hclass, hi, hop, hs, hrn, hrd, hign]
    rfl

/-- Under an opcode that is not TEQ's no word is BX, so the opcode alone decides. -/
theorem decodeArm_encodeDp {opcode : BitVec 4} {mk : DpArgs → Instr}
    (hmk : ∀ w : Word, w.extractLsb' 21 4 = opcode → decodeDp w = mk (dpArgsOf w)) (hne : opcode ≠ 9#4) (f : DpArgs) :
    decodeArm (encodeDp opcode f) = mk f := by
  obtain ⟨-, hclass, -, hop, -⟩ := encodeDp_fields opcode f
  rw [decodeArm_dp_of_opcode hclass hop hne, hmk _ hop, dpArgsOf_encodeDp]

theorem decodeArm_encodeDp_teq {f : DpArgs} (hf : f.spellsBx = false) :
    decodeArm (encodeDp 9#4 f) = .teqUnknown f := by
  obtain ⟨-, hclass, -, hop, -⟩ := encodeDp_fields 9#4 f
  rw [decodeArm_dp hclass (by rw [ne_eq, encodeDp_teq_isBx_iff, hf]; simp), decodeDp, hop, dpArgsOf_encodeDp]
  rfl

theorem encode_decodeDp {w : Word} (h : w.extractLsb' 26 2 = 0b00#2) : encode (decodeDp w) = .arm w := by
  have hword : encodeDp (BitVec.ofNat 4 (w.extractLsb' 21 4).toNat) (dpArgsOf w) = w := by
    rw [BitVec.ofNat_toNat, BitVec.setWidth_eq, encodeDp_dpArgsOf h]
  have hop := (w.extractLsb' 21 4).isLt
  unfold decodeDp
  generalize (w.extractLsb' 21 4).toNat = op at hword hop
  interval_cases op <;> exact congrArg Code.arm hword

/-- A data-processing word that is not BX decodes to a well-formed term: only TEQ is restricted. -/
theorem wf_decodeDp {w : Word} (h : w.extractLsb' 26 2 = 0b00#2) (hbx : w.extractLsb' 4 24 ≠ 0x12FFF1#24) :
    (decodeDp w).wf = true := by
  have hteq : w.extractLsb' 21 4 = 9#4 → (dpArgsOf w).spellsBx = false := by
    intro hop
    rwa [← encodeDp_dpArgsOf h, hop, ne_eq, encodeDp_teq_isBx_iff, Bool.not_eq_true] at hbx
  unfold decodeDp
  split
  case h_10 hop => simp [Instr.wf, hteq (BitVec.eq_of_toNat_eq hop)]
  all_goals rfl

/-! Single transfers, block transfers and branches (R84, R85, R89). -/

theorem encodeBlock_blockArgsOf {w : Word} (h : w.extractLsb' 25 3 = 0b100#3) :
    encodeBlock (w.extractLsb' 20 1) (blockArgsOf w) = w := by
  rw [encodeBlock, ← h]
  simp (disch := decide) only [blockArgsOf, bits_condOfBits, ofBool_flagAt, ofFin_regAt,
    BitVec.extractLsb'_append_extractLsb'_eq_extractLsb']
  exact extractLsb'_whole w

theorem encodeSdt_sdtArgsOf {w : Word} (h : w.extractLsb' 26 2 = 0b01#2) :
    encodeSdt (w.extractLsb' 22 1) (w.extractLsb' 20 1) (sdtArgsOf w) = w := by
  rw [encodeSdt, ← h]
  simp (disch := decide) only [sdtArgsOf, bits_condOfBits, ofBool_flagAt, ofFin_regAt,
    BitVec.extractLsb'_append_extractLsb'_eq_extractLsb']
  exact extractLsb'_whole w

/-- A word whose three fields are a condition, bits [27:24] and bits [23:0]. -/
theorem append_top4_fields {w : Word} {top : BitVec 4} (h : w.extractLsb' 24 4 = top) :
    (condOfBits (w.extractLsb' 28 4)).bits ++ top ++ w.extractLsb' 0 24 = w := by
  rw [← h]
  simp (disch := decide) only [bits_condOfBits, BitVec.extractLsb'_append_extractLsb'_eq_extractLsb']
  exact extractLsb'_whole w

/-- Reading those three fields back. -/
theorem top4_fields (c top : BitVec 4) (k : BitVec 24) : (c ++ top ++ k).extractLsb' 28 4 = c
    ∧ (c ++ top ++ k).extractLsb' 24 4 = top ∧ (c ++ top ++ k).extractLsb' 0 24 = k := by
  refine ⟨?_, ?_, ?_⟩ <;>
    simp (disch := omega) only [extractLsb'_append_hi, extractLsb'_append_lo, extractLsb'_whole, Nat.sub_self,
      Nat.reduceSub]

theorem decodeArm_encode_swi (c : Cond) (comment : BitVec 24) :
    decodeArm (c.bits ++ 0b1111#4 ++ comment) = .swi c comment := by
  obtain ⟨hc, htop, hk⟩ := top4_fields c.bits 0b1111#4 comment
  rw [decodeArm_swi htop, hc, hk, condOfBits_bits]

theorem decodeArm_encode_b (c : Cond) (imm24 : BitVec 24) :
    decodeArm (c.bits ++ 0b1010#4 ++ imm24) = .b c imm24 := by
  obtain ⟨hc, htop, hk⟩ := top4_fields c.bits 0b1010#4 imm24
  rw [decodeArm_b htop, hc, hk, condOfBits_bits]

theorem decodeArm_encode_bl (c : Cond) (imm24 : BitVec 24) :
    decodeArm (c.bits ++ 0b1011#4 ++ imm24) = .bl c imm24 := by
  obtain ⟨hc, htop, hk⟩ := top4_fields c.bits 0b1011#4 imm24
  rw [decodeArm_bl htop, hc, hk, condOfBits_bits]

theorem decodeArm_encode_bx (c : Cond) (rm : Reg) :
    decodeArm (c.bits ++ 0x12FFF1#24 ++ BitVec.ofFin (w := 4) rm) = .bx c rm := by
  have hpat : (c.bits ++ 0x12FFF1#24 ++ BitVec.ofFin (w := 4) rm).extractLsb' 4 24 = 0x12FFF1#24 := by
    simp (disch := omega) only [extractLsb'_append_hi, extractLsb'_append_lo, extractLsb'_whole, Nat.sub_self]
  rw [decodeArm_bx hpat, regAt]
  simp (disch := omega) only [extractLsb'_append_hi, extractLsb'_append_lo, extractLsb'_whole, Nat.reduceSub,
    condOfBits_bits]

theorem decodeArm_encode_coproc (c : Cond) {op : BitVec 2} (hop : op ≠ 3#2) (body : BitVec 24) :
    decodeArm (c.bits ++ 0b11#2 ++ op ++ body) = .coprocUnknown c op body := by
  have hclass : (c.bits ++ 0b11#2 ++ op ++ body).extractLsb' 26 2 = 0b11#2 := by
    simp (disch := omega) only [extractLsb'_append_hi, extractLsb'_append_lo, extractLsb'_whole, Nat.reduceSub]
  have hlow : (c.bits ++ 0b11#2 ++ op ++ body).extractLsb' 24 2 = op := by
    simp (disch := omega) only [extractLsb'_append_hi, extractLsb'_append_lo, extractLsb'_whole, Nat.sub_self]
  rw [decodeArm_coproc hclass (by rwa [hlow]), hlow]
  simp (disch := omega) only [extractLsb'_append_hi, extractLsb'_append_lo, extractLsb'_whole, Nat.reduceSub,
    condOfBits_bits]

theorem decodeArm_encodeBlock (l : BitVec 1) (f : BlockArgs) :
    decodeArm (encodeBlock l f) = if l == 1#1 then .ldm f else .stm f := by
  obtain ⟨-, hclass, -, -, -, -, hl, -⟩ := encodeBlock_fields l f
  rw [decodeArm_block hclass, flagAt, hl, blockArgsOf_encodeBlock]

theorem decodeArm_encodeSdt (b l : BitVec 1) (f : SdtArgs) :
    decodeArm (encodeSdt b l f) = if l == 1#1 then (if b == 1#1 then .ldrb f else .ldr f)
      else (if b == 1#1 then .strb f else .str f) := by
  obtain ⟨-, hclass, -, -, -, hb, -, hl, -⟩ := encodeSdt_fields b l f
  rw [decodeArm_sdt hclass, decodeSdt, flagAt, flagAt, hb, hl, sdtArgsOf_encodeSdt]

/-- An ARM word decodes to a well-formed term that encodes to the word, class by class (R86). -/
theorem encode_decodeArm (w : Word) : (decodeArm w).wf = true ∧ encode (decodeArm w) = .arm w := by
  by_cases hswi : w.extractLsb' 24 4 = 0b1111#4
  · rw [decodeArm_swi hswi]
    exact ⟨rfl, congrArg Code.arm (append_top4_fields hswi)⟩
  by_cases hbx : w.extractLsb' 4 24 = 0x12FFF1#24
  · rw [decodeArm_bx hbx]
    refine ⟨rfl, congrArg Code.arm ?_⟩
    rw [← hbx, bits_condOfBits, ofFin_regAt]
    simp (disch := decide) only [BitVec.extractLsb'_append_extractLsb'_eq_extractLsb']
    exact extractLsb'_whole w
  rcases top3_cases w with h | h | h | h | h
  · rw [decodeArm_dp h hbx]
    exact ⟨wf_decodeDp h hbx, encode_decodeDp h⟩
  · have hword := encodeSdt_sdtArgsOf h
    rw [decodeArm_sdt h, decodeSdt]
    rcases flagAt_cases w 20 with ⟨hl, hf⟩ | ⟨hl, hf⟩ <;> rcases flagAt_cases w 22 with ⟨hb, hg⟩ | ⟨hb, hg⟩ <;>
      (rw [hl, hb] at hword; rw [hf, hg]; exact ⟨rfl, congrArg Code.arm hword⟩)
  · have hword := encodeBlock_blockArgsOf h
    rw [decodeArm_block h]
    rcases flagAt_cases w 20 with ⟨hl, hf⟩ | ⟨hl, hf⟩ <;>
      (rw [hl] at hword; rw [hf]; exact ⟨rfl, congrArg Code.arm hword⟩)
  · have htop : w.extractLsb' 24 4 = 0b101#3 ++ w.extractLsb' 24 1 := by
      rw [← h]
      simp (disch := decide) only [BitVec.extractLsb'_append_extractLsb'_eq_extractLsb']
    rw [decodeArm_branch h]
    rcases flagAt_cases w 24 with ⟨hl, hf⟩ | ⟨hl, hf⟩ <;> rw [hl] at htop <;> rw [hf] <;>
      exact ⟨rfl, congrArg Code.arm (append_top4_fields htop)⟩
  · have htop : w.extractLsb' 24 4 = 0b11#2 ++ w.extractLsb' 24 2 := by
      rw [← h]
      simp (disch := decide) only [BitVec.extractLsb'_append_extractLsb'_eq_extractLsb']
    have hop : w.extractLsb' 24 2 ≠ 0b11#2 := fun hop => hswi (by rw [htop, hop]; rfl)
    rw [decodeArm_coproc h hop]
    exact ⟨bne_iff_ne.2 hop, encode_coprocUnknown_fields h⟩

/-! Thumb (R95, R97). -/

theorem ofFin_lowAt (h : Half) (lo : Nat) : BitVec.ofFin (w := 3) (lowAt h lo) = h.extractLsb' lo 3 := rfl

/-- A halfword whose bits [15:6] are known, from its two registers. -/
theorem encodeLow_lowAt {h : Half} {top : BitVec 10} (htop : h.extractLsb' 6 10 = top) :
    encodeLow top (lowAt h 3) (lowAt h 0) = h := by
  rw [encodeLow, ← htop, ofFin_lowAt, ofFin_lowAt]
  simp (disch := decide) only [BitVec.extractLsb'_append_extractLsb'_eq_extractLsb']
  exact extractLsb'_whole h

/-- A shift halfword: bits [15:11] and the amount make up the top. -/
theorem encodeLow_shift {h : Half} {top : BitVec 5} (htop : h.extractLsb' 11 5 = top) :
    encodeLow (top ++ h.extractLsb' 6 5) (lowAt h 3) (lowAt h 0) = h := by
  refine encodeLow_lowAt ?_
  rw [← htop]
  simp (disch := decide) only [BitVec.extractLsb'_append_extractLsb'_eq_extractLsb']

theorem encodeImm8_fieldsOf {h : Half} {op : BitVec 2} (htop : h.extractLsb' 11 5 = 0b001#3 ++ op) :
    encodeImm8 op (lowAt h 8) (h.extractLsb' 0 8) = h := by
  rw [encodeImm8, ← htop, ofFin_lowAt]
  simp (disch := decide) only [BitVec.extractLsb'_append_extractLsb'_eq_extractLsb']
  exact extractLsb'_whole h

theorem append_thumbB {h : Half} (htop : h.extractLsb' 11 5 = 0b11100#5) : 0b11100#5 ++ h.extractLsb' 0 11 = h := by
  rw [← htop]
  simp (disch := decide) only [BitVec.extractLsb'_append_extractLsb'_eq_extractLsb']
  exact extractLsb'_whole h

/-! A format's decoding, once the fields that name it are known, gives back the operands it was encoded from. -/

theorem decodeThumb_encodeLow {top : BitVec 10} {mk : LowReg → LowReg → Instr}
    (hmk : ∀ h : Half, h.extractLsb' 6 10 = top → decodeThumb h = mk (lowAt h 3) (lowAt h 0)) (rs rd : LowReg) :
    decodeThumb (encodeLow top rs rd) = mk rs rd := by
  obtain ⟨htop, hrs, hrd⟩ := encodeLow_fields top rs rd
  rw [hmk _ htop, lowAt, lowAt, hrs, hrd]

theorem decodeThumb_encodeShift {top : BitVec 5} {mk : BitVec 5 → LowReg → LowReg → Instr}
    (hmk : ∀ h : Half, h.extractLsb' 11 5 = top →
      decodeThumb h = mk (h.extractLsb' 6 5) (lowAt h 3) (lowAt h 0)) (amount : BitVec 5) (rs rd : LowReg) :
    decodeThumb (encodeLow (top ++ amount) rs rd) = mk amount rs rd := by
  obtain ⟨hten, hrs, hrd⟩ := encodeLow_fields (top ++ amount) rs rd
  have htop := extractLsb'_sub _ hten 5 5 (by decide)
  have hamount := extractLsb'_sub _ hten 0 5 (by decide)
  rw [extractLsb'_append_hi _ _ _ _ (by decide), extractLsb'_whole] at htop
  rw [extractLsb'_append_lo _ _ _ _ (by decide), extractLsb'_whole] at hamount
  rw [hmk _ htop, lowAt, lowAt, hrs, hrd]
  exact congrArg (mk · rs rd) hamount

theorem decodeThumb_encodeImm8 {op : BitVec 2} {mk : LowReg → Byte → Instr}
    (hmk : ∀ h : Half, h.extractLsb' 11 5 = 0b001#3 ++ op → decodeThumb h = mk (lowAt h 8) (h.extractLsb' 0 8))
    (rd : LowReg) (imm8 : Byte) : decodeThumb (encodeImm8 op rd imm8) = mk rd imm8 := by
  obtain ⟨-, -, hrd, himm⟩ := encodeImm8_fields op rd imm8
  have htop : (encodeImm8 op rd imm8).extractLsb' 11 5 = 0b001#3 ++ op := by
    simp (disch := omega) only [encodeImm8, extractLsb'_append_hi, extractLsb'_whole, Nat.reduceSub]
  rw [hmk _ htop, lowAt, hrd, himm]

theorem decodeThumb_append_thumbB (offset11 : BitVec 11) : decodeThumb (0b11100#5 ++ offset11) = .thumbB offset11 := by
  have htop : (0b11100#5 ++ offset11).extractLsb' 11 5 = 0b11100#5 := by
    rw [extractLsb'_append_hi _ _ _ _ (by decide), extractLsb'_whole]
  rw [decodeThumb_thumbB htop, extractLsb'_append_lo _ _ _ _ (by decide), extractLsb'_whole]

/-! Which halfwords are a format's: the patterns of R97 are those of the map's rows. -/

/-- Bits [15:11] of the formats that these five bits decide (30_encoding.md R95, R97). -/
def formatFives : List (BitVec 5) := [0, 1, 2, 4, 5, 6, 7, 28]

/-- Bits [15:6] of the formats that need all ten (R95, R97). -/
def formatTens : List (BitVec 10) := [0b0100000000, 0b0100000001, 0b0100001100, 0b0100011000]

/-- A halfword that hits a format's row has that format's top bits. -/
theorem top_mem_of_hit {h : Half} {r : String × Nat × Nat} (hr : r ∈ formatRows) (hit : h.toNat &&& r.2.1 = r.2.2) :
    h.extractLsb' 11 5 ∈ formatFives ∨ h.extractLsb' 6 10 ∈ formatTens := by
  have hrows : ∀ r ∈ formatRows, (∃ v ∈ formatFives, r.2 = ((2 ^ 5 - 1) <<< 11, v.toNat <<< 11))
      ∨ ∃ v ∈ formatTens, r.2 = ((2 ^ 10 - 1) <<< 6, v.toNat <<< 6) := by decide
  obtain ⟨v, hv, he⟩ | ⟨v, hv, he⟩ := hrows r hr <;> rw [he] at hit
  · exact .inl (and_fieldMask_eq_iff.1 hit ▸ hv)
  · exact .inr (and_fieldMask_eq_iff.1 hit ▸ hv)

theorem thumbMatches_of_top_mem {h : Half} (hv : h.extractLsb' 11 5 ∈ formatFives ∨ h.extractLsb' 6 10 ∈ formatTens) :
    thumbMatches h = true := by
  rcases hv with hv | hv
  · simp only [thumbMatches, top5_fields rfl]
    generalize h.extractLsb' 11 5 = v at hv
    fin_cases hv <;> rfl
  · simp only [thumbMatches, top10_fields rfl]
    generalize h.extractLsb' 6 10 = v at hv
    fin_cases hv <;> rfl

theorem top_mem_of_thumbMatches {h : Half} (hm : thumbMatches h = true) :
    h.extractLsb' 11 5 ∈ formatFives ∨ h.extractLsb' 6 10 ∈ formatTens := by
  have htop {a : BitVec 3} (ha : (h.extractLsb' 13 3).toNat = a.toNat) :
      h.extractLsb' 11 5 = a ++ h.extractLsb' 11 2 := by
    rw [← BitVec.eq_of_toNat_eq ha]
    simp (disch := decide) only [BitVec.extractLsb'_append_extractLsb'_eq_extractLsb']
  have hshift : ∀ b : BitVec 2, (b != 3#2) = true → 0#3 ++ b ∈ formatFives := by decide
  have himm8 : ∀ b : BitVec 2, 1#3 ++ b ∈ formatFives := by decide
  have hbranch : ∀ b : BitVec 2, (b == 0#2) = true → 7#3 ++ b ∈ formatFives := by decide
  unfold thumbMatches at hm
  split at hm
  next ha => exact .inl (htop (a := 0) ha ▸ hshift _ hm)
  next ha => exact .inl (htop (a := 1) ha ▸ himm8 _)
  next => exact .inr (by simpa [formatTens, or_assoc] using hm)
  next ha => exact .inl (htop (a := 7) ha ▸ hbranch _ hm)
  next => cases hm

theorem decodeThumb_of_not_matches {h : Half} (hm : thumbMatches h = false) : decodeThumb h = .thumbUnknown h :=
  decodeThumb_of_misses fun r hr hit => by simp [thumbMatches_of_top_mem (top_mem_of_hit hr hit)] at hm

/-- A halfword decodes to a well-formed term that encodes to the halfword, format by format (R97). -/
theorem encode_decodeThumb (h : Half) : (decodeThumb h).wf = true ∧ encode (decodeThumb h) = .thumb h := by
  have of_format {i : Instr} (hd : decodeThumb h = i) (hwf : i.wf = true) (he : encode i = .thumb h) :
      (decodeThumb h).wf = true ∧ encode (decodeThumb h) = .thumb h := hd ▸ ⟨hwf, he⟩
  cases hm : thumbMatches h with
  | false => exact of_format (decodeThumb_of_not_matches hm) (by simp [Instr.wf, hm]) rfl
  | true =>
    rcases top_mem_of_thumbMatches hm with hv | hv
    · simp only [formatFives, List.mem_cons, List.not_mem_nil, or_false] at hv
      rcases hv with hv | hv | hv | hv | hv | hv | hv | hv
      · exact of_format (decodeThumb_lslImm hv) rfl (congrArg Code.thumb (encodeLow_shift hv))
      · exact of_format (decodeThumb_lsrImm hv) rfl (congrArg Code.thumb (encodeLow_shift hv))
      · exact of_format (decodeThumb_asrImm hv) rfl (congrArg Code.thumb (encodeLow_shift hv))
      · exact of_format (decodeThumb_movImm8 hv) rfl (congrArg Code.thumb (encodeImm8_fieldsOf hv))
      · exact of_format (decodeThumb_cmpImm8 hv) rfl (congrArg Code.thumb (encodeImm8_fieldsOf hv))
      · exact of_format (decodeThumb_addImm8 hv) rfl (congrArg Code.thumb (encodeImm8_fieldsOf hv))
      · exact of_format (decodeThumb_subImm8 hv) rfl (congrArg Code.thumb (encodeImm8_fieldsOf hv))
      · exact of_format (decodeThumb_thumbB hv) rfl (congrArg Code.thumb (append_thumbB hv))
    · simp only [formatTens, List.mem_cons, List.not_mem_nil, or_false] at hv
      rcases hv with hv | hv | hv | hv
      · exact of_format (decodeThumb_thumbAnd hv) rfl (congrArg Code.thumb (encodeLow_lowAt hv))
      · exact of_format (decodeThumb_thumbEor hv) rfl (congrArg Code.thumb (encodeLow_lowAt hv))
      · exact of_format (decodeThumb_thumbOrr hv) rfl (congrArg Code.thumb (encodeLow_lowAt hv))
      · exact of_format (decodeThumb_movLow hv) rfl (congrArg Code.thumb (encodeLow_lowAt hv))

end Sys2Proof

namespace Sys2Proof.Claims

/-- Settles O1: each word is decoded by evaluating the decoder on it. -/
theorem specWordsDecode : Obligations.SpecWordsDecode := by
  unfold Obligations.SpecWordsDecode
  decide

/-- Settles O2, by the class of each constructor: its fields are read back from the word. -/
theorem decodeInvertsEncode : Obligations.DecodeInvertsEncode := by
  intro i hwf
  cases i with
  | swi c comment => exact decodeArm_encode_swi c comment
  | bx c rm => exact decodeArm_encode_bx c rm
  | b c imm24 => exact decodeArm_encode_b c imm24
  | bl c imm24 => exact decodeArm_encode_bl c imm24
  | stm f | ldm f => exact decodeArm_encodeBlock _ f
  | str f | strb f | ldr f | ldrb f => exact decodeArm_encodeSdt _ _ f
  | coprocUnknown c op body => exact decodeArm_encode_coproc c (bne_iff_ne.1 hwf) body
  | teqUnknown f => exact decodeArm_encodeDp_teq (by simpa [Instr.wf] using hwf)
  | armAnd f | armEor f | sub f | rsb f | add f | adcUnknown f | sbcUnknown f | rscUnknown f | tstUnknown f | cmp f
  | cmnUnknown f | armOrr f | mov f | bicUnknown f | mvnUnknown f =>
    exact decodeArm_encodeDp (fun w hop => by rw [decodeDp, hop]; rfl) (by decide) f
  | lslImm => exact decodeThumb_encodeShift (fun _ => decodeThumb_lslImm) _ _ _
  | lsrImm => exact decodeThumb_encodeShift (fun _ => decodeThumb_lsrImm) _ _ _
  | asrImm => exact decodeThumb_encodeShift (fun _ => decodeThumb_asrImm) _ _ _
  | movImm8 => exact decodeThumb_encodeImm8 (fun _ => decodeThumb_movImm8) _ _
  | cmpImm8 => exact decodeThumb_encodeImm8 (fun _ => decodeThumb_cmpImm8) _ _
  | addImm8 => exact decodeThumb_encodeImm8 (fun _ => decodeThumb_addImm8) _ _
  | subImm8 => exact decodeThumb_encodeImm8 (fun _ => decodeThumb_subImm8) _ _
  | thumbAnd => exact decodeThumb_encodeLow (fun _ => decodeThumb_thumbAnd) _ _
  | thumbEor => exact decodeThumb_encodeLow (fun _ => decodeThumb_thumbEor) _ _
  | thumbOrr => exact decodeThumb_encodeLow (fun _ => decodeThumb_thumbOrr) _ _
  | movLow => exact decodeThumb_encodeLow (fun _ => decodeThumb_movLow) _ _
  | thumbB offset11 => exact decodeThumb_append_thumbB offset11
  | thumbUnknown h => exact decodeThumb_of_not_matches (by simpa [Instr.wf] using hwf)

/-- Settles O3, by the class of each word and the format of each halfword. -/
theorem encodeInvertsDecode : Obligations.EncodeInvertsDecode
  | .arm w => encode_decodeArm w
  | .thumb h => encode_decodeThumb h

end Sys2Proof.Claims
end

section
/-! The step and the host's moves as a whole: the invariant (10_state.md section 5, 00_scope.md R10), the two images
(20_memory.md R52, R55), and what completes a step (60_exceptions.md R211). -/

namespace Sys2Proof.Machine

open Sys2Proof.Claims

variable {s t : State}

/-! The invariant: an instruction leaves the storage as it is, or it is a store, whose bus writes keep the invariant. -/

theorem inv_of_whenCond {c : Cond} {body : State → State} (h : whenCond c body s = .next t) (hi : s.Inv)
    (hb : (body s).Inv) : t.Inv := by
  obtain ⟨-, rfl⟩ | ⟨-, rfl⟩ := whenCond_cases h
  · exact hb
  · exact hi

theorem inv_storeFrom (hi : s.Inv) (n : Width) (f : SdtArgs) : (storeFrom n f s).Inv := by
  obtain ⟨x, hx⟩ := storeFrom_eq_writeN_with_regs n f s
  rw [hx]
  exact inv_writeN hi _ _ _ _

theorem inv_execStm {f : BlockArgs} (h : execStm f s = .next t) (hi : s.Inv) : t.Inv :=
  inv_of_whenCond h hi ((sameBus_writeBase f _ _).inv (inv_storeRegs hi _ _))

/-- Every instruction keeps the invariant: the three stores by their bus writes, every other one by the storage it
leaves as it is. -/
theorem inv_exec {i : Instr} (h : exec i s = .next t) (hi : s.Inv) : t.Inv := by
  cases i with
  | str | strb => exact inv_of_whenCond h hi (inv_storeFrom hi _ _)
  | stm => exact inv_execStm h hi
  | _ => exact (sameBus_exec h (by simp) (by simp)).inv hi

theorem inv_step (h : step s = .next t) (hi : s.Inv) : t.Inv := by
  obtain ⟨u, hu, rfl⟩ := step_cases h
  obtain ⟨hfetch, -, -⟩ := fetchDecode_frame (beginStep s)
  exact (inv_exec hu (hfetch.inv hi) : u.Inv)

/-- An image cut to the size of its array is an array of that size. -/
theorem storeOk_ofBytes_take (bytes : List Byte) (size : Nat) :
    storeOk size (Memory.ofBytes 0 (bytes.take size)) = true := by
  rw [storeOk, Memory.wf_ofBytes, Memory.below_ofBytes 0 _ (by simp)]
  rfl

theorem inv_hostAct {act : HostAction} (h : hostAct act s = .next t) (hi : s.Inv) : t.Inv := by
  have ⟨hcfg, hboot, hgram, hsram, hcart, hiofb⟩ := hi
  cases act with
  | loadBootImage bytes =>
    obtain rfl := eq_of_loadBootImage h
    exact ⟨hcfg, storeOk_ofBytes_take bytes _, hgram, hsram, hcart, hiofb⟩
  | loadImage bytes =>
    obtain rfl := eq_of_loadImage h
    exact ⟨hcfg, hboot, hgram, hsram, storeOk_ofBytes_take bytes _, hiofb⟩
  | step => exact inv_step h hi
  | reset =>
    cases h
    exact ⟨hcfg, hboot, rfl, rfl, hcart, rfl⟩
  | read addr n =>
    cases h
    exact inv_readN (s := beginStep s) hi _ _ _
  | write addr n v =>
    cases h
    exact inv_writeN (s := beginStep s) hi _ _ _ _
  | raiseIF mask =>
    cases h
    exact hi

/-! The configuration and the two images, which no instruction writes. -/

/-- The configuration and the two read-only images, equal in both states. -/
structure SameImages (s t : State) : Prop where
  cfg : t.cfg = s.cfg
  boot : t.boot = s.boot
  cart : t.cart = s.cart

theorem SameImages.trans {u : State} (h : SameImages s t) (h' : SameImages t u) : SameImages s u :=
  ⟨h'.cfg.trans h.cfg, h'.boot.trans h.boot, h'.cart.trans h.cart⟩

theorem SameBus.sameImages (h : SameBus s t) : SameImages s t := ⟨h.cfg, h.boot, h.cart⟩

theorem Wrote.sameImages (h : Wrote s t) : SameImages s t := by
  obtain ⟨hcfg, hboot, hcart, -⟩ := h.frame
  exact ⟨hcfg, hboot, hcart⟩

theorem sameImages_of_whenCond {c : Cond} {body : State → State} (h : whenCond c body s = .next t)
    (hb : SameImages s (body s)) : SameImages s t := by
  obtain ⟨-, rfl⟩ | ⟨-, rfl⟩ := whenCond_cases h
  · exact hb
  · exact ⟨rfl, rfl, rfl⟩

theorem sameImages_storeFrom (n : Width) (f : SdtArgs) (s : State) : SameImages s (storeFrom n f s) :=
  have hstore := storeFrame_storeFrom n f s
  ⟨hstore.cfg, hstore.boot, hstore.cart⟩

theorem sameImages_execStm {f : BlockArgs} (h : execStm f s = .next t) : SameImages s t :=
  sameImages_of_whenCond h ((wrote_storeRegs _ _ s).sameImages.trans (sameBus_writeBase f _ _).sameImages)

theorem sameImages_exec {i : Instr} (h : exec i s = .next t) : SameImages s t := by
  cases i with
  | str | strb => exact sameImages_of_whenCond h (sameImages_storeFrom _ _ s)
  | stm => exact sameImages_execStm h
  | _ => exact (sameBus_exec h (by simp) (by simp)).sameImages

theorem sameImages_step (h : step s = .next t) : SameImages s t := by
  obtain ⟨u, hu, rfl⟩ := step_cases h
  obtain ⟨hfetch, -, -⟩ := fetchDecode_frame (beginStep s)
  have himages := hfetch.sameImages.trans (sameImages_exec hu)
  exact ⟨himages.cfg, himages.boot, himages.cart⟩

/-- Equal images read the same at every read-only address. -/
theorem SameImages.peek (h : SameImages s t) {a : Word}
    (ha : resolve s.cfg a = some .boot ∨ resolve s.cfg a = some .cart) : t.peek a = s.peek a := by
  rcases ha with ha | ha <;> simp only [State.peek, target, h.cfg, ha, State.held, h.boot, h.cart]

end Sys2Proof.Machine

namespace Sys2Proof.Claims

open Sys2Proof.Machine

/-- Settles O31: the fetch leaves the storage, and the instruction keeps the invariant. -/
theorem stepKeepsInvariant : Obligations.StepKeepsInvariant := fun _ _ hi h => inv_step h hi

/-- Settles O33, by the host's action. -/
theorem hostActionsKeepInvariant : Obligations.HostActionsKeepInvariant := fun _ _ _ hi h => inv_hostAct h hi

/-- Settles O34: no store target is in an image, so a byte there is read from the same array at the same offset. -/
theorem imagesNeverChange : Obligations.ImagesNeverChange := fun _ _ h =>
  have himages := sameImages_step h
  ⟨himages.boot, himages.cart, fun _ ha => himages.peek ha⟩

/-- Settles O30: every instruction answers a next state, none writes the configuration, and the step retires. -/
theorem everyStepCompletes : Obligations.EveryStepCompletes := by
  intro s
  obtain ⟨u, hu⟩ := exec_next (fetchDecode (beginStep s)).1 (fetchDecode (beginStep s)).2
  have hstep := step_of_exec hu
  exact ⟨retire u, hstep, rfl, (sameImages_step hstep).cfg⟩

/-- Settles O41: an instruction that is no store leaves the storage, so every byte reads as before. -/
theorem onlyStoresChangeMemory : Obligations.OnlyStoresChangeMemory := fun _ _ _ h hst hstm =>
  have hbus := sameBus_exec h hst hstm
  ⟨hbus, hbus.peek⟩

/-- Settles O32: the default configuration is well formed, and the empty array is canonical. -/
theorem resetMeetsInvariant : Obligations.ResetMeetsInvariant := by
  refine ⟨?_, rfl, rfl, rfl, rfl, rfl⟩
  decide

end Sys2Proof.Claims
end

section
/-! What no instruction observes: the C flag (10_state.md R28) and the events already emitted (60_exceptions.md R210);
and which instructions write C and V (R28, R29). -/

namespace Sys2Proof.Machine

open Sys2Proof.Claims

variable {s t : State}

/-! A state with another C and with events put before its own: every operation of the machine commutes with the
replacement, which the flag updates alone can undo. -/

/-- The state with C replaced and events put before its own. -/
def State.replaced (c : Bool) (es : List Event) (s : State) : State := { s with c := c, events := es ++ s.events }

variable (c : Bool) (es : List Event)

theorem withC_eq_replaced (s : State) : withC c s = s.replaced c [] := rfl

theorem withEarlier_eq_replaced (s : State) : withEarlier es s = s.replaced s.c es := rfl

@[simp] theorem replaced_cfg (s : State) : (s.replaced c es).cfg = s.cfg := rfl
@[simp] theorem replaced_t (s : State) : (s.replaced c es).t = s.t := rfl
@[simp] theorem replaced_reg (s : State) (r : Reg) : (s.replaced c es).reg r = s.reg r := rfl
@[simp] theorem replaced_peek (s : State) (a : Word) : (s.replaced c es).peek a = s.peek a := rfl

@[simp] theorem setReg_replaced (s : State) (r : Reg) (v : Word) :
    (s.replaced c es).setReg r v = (s.setReg r v).replaced c es := rfl

theorem condPasses_replaced (cond : Cond) (s : State) : condPasses cond (s.replaced c es) = condPasses cond s :=
  condPasses_congr cond rfl rfl rfl

@[simp] theorem emit_replaced (e : Event) (s : State) : emit e (s.replaced c es) = (emit e s).replaced c es := by
  simp only [emit, State.replaced, List.append_assoc]

theorem beginStep_replaced (s : State) : beginStep (s.replaced c []) = (beginStep s).replaced c [] := rfl

theorem retire_replaced (s : State) : retire (s.replaced c es) = (retire s).replaced c es := rfl

/-! Bus reads. -/

theorem drawTimer_replaced (key : TimerKey) (s : State) :
    drawTimer key (s.replaced c es) = ((drawTimer key s).1, (drawTimer key s).2.replaced c es) :=
  congrArg (_, ·) (emit_replaced c es _ { s with timerDraws := s.timerDraws + 1 })

theorem readByte_replaced (a : Word) (asked : List (TimerKey × Half)) (s : State) :
    readByte a asked (s.replaced c es)
      = ((readByte a asked s).1, (readByte a asked s).2.1, (readByte a asked s).2.2.replaced c es) := by
  simp only [readByte, replaced_cfg, replaced_peek, drawTimer_replaced]
  split
  · split <;> rfl
  · rfl

theorem readBytes_replaced (as : List Word) (asked : List (TimerKey × Half)) (s : State) :
    readBytes as asked (s.replaced c es) = ((readBytes as asked s).1, (readBytes as asked s).2.replaced c es) := by
  induction as generalizing asked s with
  | nil => rfl
  | cons a as ih => simp only [readBytes, readByte_replaced, ih]

theorem noteUnmapped_replaced (kind : AccessKind) (addr : Word) (n : Width) (s : State) :
    noteUnmapped kind addr n (s.replaced c es) = (noteUnmapped kind addr n s).replaced c es := by
  simp only [noteUnmapped, replaced_cfg, emit_replaced]
  split <;> rfl

theorem readN_replaced (kind : AccessKind) (addr : Word) (n : Width) (s : State) :
    readN kind addr n (s.replaced c es) = ((readN kind addr n s).1, (readN kind addr n s).2.replaced c es) := by
  simp only [readN, readBytes_replaced, noteUnmapped_replaced]

/-! Bus writes. -/

theorem storeAt_replaced (T : Target) (b : Byte) (s : State) :
    storeAt T b (s.replaced c es) = (storeAt T b s).replaced c es := by
  cases T <;> rfl

theorem writeBytes_replaced (bs : List (Word × Byte)) (s : State) :
    writeBytes bs (s.replaced c es) = (writeBytes bs s).replaced c es := by
  induction bs generalizing s with
  | nil => rfl
  | cons p bs ih => rw [writeBytes, writeByte, replaced_cfg, storeAt_replaced, ih, writeBytes, writeByte]

theorem sendGroups_replaced (gs : List TimerGroup) (s : State) :
    sendGroups gs (s.replaced c es) = (sendGroups gs s).replaced c es := by
  induction gs generalizing s with
  | nil => rfl
  | cons g gs ih => rw [sendGroups, emit_replaced, ih, sendGroups]

theorem noteReadOnly_replaced (kind : AccessKind) (addr : Word) (n : Width) (s : State) :
    noteReadOnly kind addr n (s.replaced c es) = (noteReadOnly kind addr n s).replaced c es := by
  simp only [noteReadOnly, replaced_cfg, emit_replaced]
  split <;> rfl

theorem writeN_replaced (kind : AccessKind) (addr : Word) (n : Width) (v : Word) (s : State) :
    writeN kind addr n v (s.replaced c es) = (writeN kind addr n v s).replaced c es := by
  simp only [writeN, replaced_cfg, writeBytes_replaced, sendGroups_replaced, noteUnmapped_replaced,
    noteReadOnly_replaced]

/-! Transfers and the fetch. -/

theorem loadTo_replaced (n : Width) (f : SdtArgs) (s : State) :
    loadTo n f (s.replaced c es) = (loadTo n f s).replaced c es := by
  have haddr : sdtAddress f (s.replaced c es) = sdtAddress f s := rfl
  have hadj : sdtAdjusted f (s.replaced c es) = sdtAdjusted f s := rfl
  simp only [loadTo, haddr, hadj, readN_replaced]
  split <;> rfl

theorem storeFrom_replaced (n : Width) (f : SdtArgs) (s : State) :
    storeFrom n f (s.replaced c es) = (storeFrom n f s).replaced c es := by
  have haddr : sdtAddress f (s.replaced c es) = sdtAddress f s := rfl
  have hadj : sdtAdjusted f (s.replaced c es) = sdtAdjusted f s := rfl
  simp only [storeFrom, haddr, hadj, writeN_replaced, replaced_reg]
  split <;> rfl

theorem loadRegs_replaced (rs : List Reg) (addr : Word) (s : State) :
    loadRegs rs addr (s.replaced c es) = (loadRegs rs addr s).replaced c es := by
  induction rs generalizing addr s with
  | nil => rfl
  | cons r rs ih => simp only [loadRegs, readN_replaced, setReg_replaced, ih]

theorem storeRegs_replaced (rs : List Reg) (addr : Word) (s : State) :
    storeRegs rs addr (s.replaced c es) = (storeRegs rs addr s).replaced c es := by
  induction rs generalizing addr s with
  | nil => rfl
  | cons r rs ih => simp only [storeRegs, replaced_reg, writeN_replaced, ih]

theorem writeBase_replaced (f : BlockArgs) (v : Word) (s : State) :
    writeBase f v (s.replaced c es) = (writeBase f v s).replaced c es := by
  unfold writeBase
  split <;> rfl

theorem fetchCode_replaced (s : State) :
    fetchCode (s.replaced c es) = ((fetchCode s).1, (fetchCode s).2.replaced c es) := by
  simp only [fetchCode, replaced_t, State.pc_eq_reg, replaced_reg, readN_replaced]
  split <;> rfl

theorem fetchDecode_replaced (s : State) :
    fetchDecode (s.replaced c es) = ((fetchDecode s).1, (fetchDecode s).2.replaced c es) := by
  rw [fetchDecode, fetchCode_replaced]
  rfl

/-! Instructions. -/

/-- From the replaced state the update gives its own next state, replaced: the events as before, and a C that is the
next state's own if the one put in was. -/
def Commutes (body : State → State) : Prop :=
  ∀ s, ∃ c', (c = s.c → c' = (body s).c) ∧ body (s.replaced c es) = (body s).replaced c' es

variable {c es}

theorem Commutes.of_keepsC {body : State → State} (hc : ∀ s, (body s).c = s.c)
    (h : ∀ s, body (s.replaced c es) = (body s).replaced c es) : Commutes c es body :=
  fun s => ⟨c, fun he => he.trans (hc s).symm, h s⟩

theorem commutes_setNZ (r : Word) : Commutes c es (setNZ r) := .of_keepsC (fun _ => rfl) fun _ => rfl

theorem commutes_addFlags (a b r : Word) : Commutes c es (addFlags a b r) := fun _ => ⟨addCarry a b, fun _ => rfl, rfl⟩

theorem commutes_subFlags (a b r : Word) : Commutes c es (subFlags a b r) := fun _ => ⟨subCarry a b, fun _ => rfl, rfl⟩

theorem commutes_emit (e : State → Event) (he : ∀ s : State, e (s.replaced c es) = e s) :
    Commutes c es fun s => emit (e s) s :=
  .of_keepsC (fun _ => rfl) fun s => by rw [he, emit_replaced]

/-- A flag update after a register write, if S. -/
theorem commutes_writeRd {flags : State → State} (hflags : Commutes c es flags) (f : DpArgs) (r : Word) :
    Commutes c es (writeRd f r flags) := by
  intro s
  unfold writeRd
  split
  · exact hflags (s.setReg f.rd r)
  · exact ⟨c, id, rfl⟩

theorem commutes_loadTo (n : Width) (f : SdtArgs) : Commutes c es (loadTo n f) :=
  .of_keepsC (fun s => (loadFrame_loadTo n f s).status.c) (loadTo_replaced c es n f)

theorem commutes_storeFrom (n : Width) (f : SdtArgs) : Commutes c es (storeFrom n f) :=
  .of_keepsC (fun s => (storeFrame_storeFrom n f s).status.c) (storeFrom_replaced c es n f)

/-- The write-back and the loads of LDM leave the status. -/
theorem sameStatus_ldm (f : BlockArgs) (s : State) :
    SameStatus s (loadRegs (regsOf f.list) (blockStart f s) (writeBase f (blockWriteBack f s) s)) :=
  have ⟨_, hloads, _⟩ := loadRegs_frame (regsOf f.list) (blockStart f s) (writeBase f (blockWriteBack f s) s)
  (sameStatus_writeBase f _ s).trans hloads

/-- The stores and the write-back of STM leave the status. -/
theorem sameStatus_stm (f : BlockArgs) (s : State) :
    SameStatus s (writeBase f (blockWriteBack f s) (storeRegs (regsOf f.list) (blockStart f s) s)) :=
  have ⟨_, _, _, _, hstores, _⟩ := (wrote_storeRegs (regsOf f.list) (blockStart f s) s).frame
  hstores.trans (sameStatus_writeBase f _ _)

theorem commutes_ldm (f : BlockArgs) :
    Commutes c es fun s => loadRegs (regsOf f.list) (blockStart f s) (writeBase f (blockWriteBack f s) s) := by
  refine .of_keepsC (fun s => (sameStatus_ldm f s).c) fun s => ?_
  rw [writeBase_replaced, loadRegs_replaced]
  rfl

theorem commutes_stm (f : BlockArgs) :
    Commutes c es fun s => writeBase f (blockWriteBack f s) (storeRegs (regsOf f.list) (blockStart f s) s) := by
  refine .of_keepsC (fun s => (sameStatus_stm f s).c) fun s => ?_
  rw [storeRegs_replaced, writeBase_replaced]
  rfl

/-- The answer is the replaced next state, where `s` is the state before and `t` its own next state. -/
def AnswersReplaced (c : Bool) (es : List Event) (s t : State) (answer : Host.Outcome State Fault Refusal) : Prop :=
  ∃ c', (c = s.c → c' = t.c) ∧ answer = .next (t.replaced c' es)

theorem answersReplaced_of_whenCond {cond : Cond} {body : State → State} (hb : Commutes c es body)
    (h : whenCond cond body s = .next t) : AnswersReplaced c es s t (whenCond cond body (s.replaced c es)) := by
  obtain ⟨hpass, rfl⟩ | ⟨hfail, rfl⟩ := whenCond_cases h
  · obtain ⟨c', hc', hrun⟩ := hb s
    exact ⟨c', hc', by rw [whenCond_pass (by rwa [condPasses_replaced]), hrun]⟩
  · exact ⟨c, id, whenCond_fail (by rwa [condPasses_replaced]) body⟩

theorem answersReplaced_of_next {body : State → State} (hb : Commutes c es body)
    (h : Host.Outcome.next (φ := Fault) (ρ := Refusal) (body s) = .next t) :
    AnswersReplaced c es s t (.next (body (s.replaced c es))) := by
  cases h
  obtain ⟨c', hc', hrun⟩ := hb s
  exact ⟨c', hc', congrArg _ hrun⟩

/-- No instruction observes the replacement: only the condition reads flags, and C is not among them. -/
theorem answersReplaced_exec {i : Instr} (h : exec i s = .next t) :
    AnswersReplaced c es s t (exec i (s.replaced c es)) := by
  unfold exec at h ⊢
  cases i with
  | swi | coprocUnknown | adcUnknown | sbcUnknown | rscUnknown | tstUnknown | teqUnknown | cmnUnknown | bicUnknown
  | mvnUnknown => exact answersReplaced_of_whenCond (commutes_emit _ fun _ => rfl) h
  | b | bl | bx => exact answersReplaced_of_whenCond (.of_keepsC (fun _ => rfl) fun _ => rfl) h
  | armAnd | armEor | armOrr | mov =>
    exact answersReplaced_of_whenCond (fun s => commutes_writeRd (commutes_setNZ _) _ _ s) h
  | sub | rsb => exact answersReplaced_of_whenCond (fun s => commutes_writeRd (commutes_subFlags _ _ _) _ _ s) h
  | add => exact answersReplaced_of_whenCond (fun s => commutes_writeRd (commutes_addFlags _ _ _) _ _ s) h
  | cmp => exact answersReplaced_of_whenCond (fun s => commutes_subFlags _ _ _ s) h
  | ldr | ldrb => exact answersReplaced_of_whenCond (commutes_loadTo _ _) h
  | str | strb => exact answersReplaced_of_whenCond (commutes_storeFrom _ _) h
  | ldm f => exact answersReplaced_of_whenCond (commutes_ldm f) h
  | stm f => exact answersReplaced_of_whenCond (commutes_stm f) h
  | lslImm | lsrImm | asrImm | movImm8 | thumbAnd | thumbEor | thumbOrr | movLow | thumbB =>
    exact answersReplaced_of_next (.of_keepsC (fun _ => rfl) fun _ => rfl) h
  | cmpImm8 => exact answersReplaced_of_next (fun s => commutes_subFlags _ _ _ s) h
  | addImm8 => exact answersReplaced_of_next (fun s => commutes_addFlags _ _ _ (s.setReg _ _)) h
  | subImm8 => exact answersReplaced_of_next (fun s => commutes_subFlags _ _ _ (s.setReg _ _)) h
  | thumbUnknown => exact answersReplaced_of_next (commutes_emit _ fun _ => rfl) h

/-- A step drops the events of the last action, so C alone is replaced in it. -/
theorem answersReplaced_step (h : step s = .next t) : AnswersReplaced c [] s t (step (s.replaced c [])) := by
  obtain ⟨u, hu, rfl⟩ := step_cases h
  obtain ⟨-, hfetch, -⟩ := fetchDecode_frame (beginStep s)
  obtain ⟨c', hc', hrun⟩ := answersReplaced_exec (c := c) (es := []) hu
  refine ⟨c', fun he => hc' (he.trans hfetch.c.symm), ?_⟩
  rw [step_of_exec, retire_replaced]
  rwa [beginStep_replaced, fetchDecode_replaced]

/-! The writers of C and V (R28, R29). -/

/-- C and V are equal in both states. -/
def SameCV (s t : State) : Prop := t.c = s.c ∧ t.v = s.v

theorem SameStatus.sameCV (h : SameStatus s t) : SameCV s t := ⟨h.c, h.v⟩

theorem sameCV_of_whenCond {cond : Cond} {body : State → State} (h : whenCond cond body s = .next t)
    (hb : SameCV s (body s)) : SameCV s t := by
  obtain ⟨-, rfl⟩ | ⟨-, rfl⟩ := whenCond_cases h
  · exact hb
  · exact ⟨rfl, rfl⟩

theorem sameCV_writeRd {flags : State → State} {f : DpArgs} (hflags : f.setFlags = true → ∀ u, SameCV u (flags u))
    (r : Word) (s : State) : SameCV s (writeRd f r flags s) := by
  unfold writeRd
  split
  next hS => exact hflags hS (s.setReg f.rd r)
  next => exact ⟨rfl, rfl⟩

theorem sameCV_execLogical {op : Word → Word → Word} {f : DpArgs} (h : execLogical op f s = .next t) : SameCV s t :=
  sameCV_of_whenCond h (sameCV_writeRd (flags := setNZ _) (fun _ _ => ⟨rfl, rfl⟩) _ s)

theorem sameCV_execLdm {f : BlockArgs} (h : execLdm f s = .next t) : SameCV s t :=
  sameCV_of_whenCond h (sameStatus_ldm f s).sameCV

theorem sameCV_execStm {f : BlockArgs} (h : execStm f s = .next t) : SameCV s t :=
  sameCV_of_whenCond h (sameStatus_stm f s).sameCV

/-- Does the instruction set all four flags from an addition or a subtraction? -/
def setsCV : Instr → Bool
  | .add f | .sub f | .rsb f => f.setFlags
  | .cmp _ | .cmpImm8 _ _ | .addImm8 _ _ | .subImm8 _ _ => true
  | _ => false

theorem sameCV_exec {i : Instr} (hi : setsCV i = false) (h : exec i s = .next t) : SameCV s t := by
  unfold exec at h
  cases i with
  | cmp | cmpImm8 | addImm8 | subImm8 => cases hi
  | swi | coprocUnknown | b | bl | bx | adcUnknown | sbcUnknown | rscUnknown | tstUnknown | teqUnknown | cmnUnknown
  | bicUnknown | mvnUnknown => exact sameCV_of_whenCond h ⟨rfl, rfl⟩
  | armAnd | armEor | armOrr | mov => exact sameCV_execLogical h
  | add f | sub f | rsb f =>
    have hS : f.setFlags = false := hi
    exact sameCV_of_whenCond h (sameCV_writeRd (fun hS' => absurd hS' (by simp [hS])) _ s)
  | ldr | ldrb => exact sameCV_of_whenCond h (loadFrame_loadTo _ _ s).status.sameCV
  | str | strb => exact sameCV_of_whenCond h (storeFrame_storeFrom _ _ s).status.sameCV
  | ldm => exact sameCV_execLdm h
  | stm => exact sameCV_execStm h
  | lslImm | lsrImm | asrImm | movImm8 | thumbAnd | thumbEor | thumbOrr | movLow | thumbB | thumbUnknown =>
    cases h
    exact ⟨rfl, rfl⟩

end Sys2Proof.Machine

namespace Sys2Proof.Claims

open Sys2Proof.Machine

/-- Settles O38: the step commutes with the replacement of C. -/
theorem carryFlagIsUnobserved : Obligations.CarryFlagIsUnobserved := by
  intro s t b h
  obtain ⟨b', -, hstep⟩ := answersReplaced_step (c := b) h
  exact ⟨b', by rwa [withC_eq_replaced, withC_eq_replaced]⟩

/-- Settles O39: the replacement that puts the state's own C back is events alone. -/
theorem eventsAreNeverReadBack : Obligations.EventsAreNeverReadBack := by
  intro i s t es h
  obtain ⟨c', hc', hrun⟩ := answersReplaced_exec (c := s.c) (es := es) h
  rwa [withEarlier_eq_replaced, withEarlier_eq_replaced, ← hc' rfl]

/-- Settles O40: every other instruction leaves C and V. -/
theorem carryAndOverflowWriters : Obligations.CarryAndOverflowWriters := by
  intro i s t h hne
  have hsets : setsCV i = true := by
    by_contra hnot
    obtain ⟨hc, hv⟩ := sameCV_exec (Bool.eq_false_iff.2 hnot) h
    exact hne.elim (absurd hc) (absurd hv)
  cases i with
  | add f | sub f | rsb f => exact .inl ⟨f, by simp, hsets⟩
  | cmp f => exact .inr (.inl ⟨f, rfl⟩)
  | cmpImm8 rd imm8 | addImm8 rd imm8 | subImm8 rd imm8 => exact .inr (.inr ⟨rd, imm8, by simp⟩)
  | _ => cases hsets

end Sys2Proof.Claims
end

section
/-! What a bus access reads, writes and reports (20_memory.md sections 2 to 5), and the default address map (R69). -/

namespace Sys2Proof.Machine

open Sys2Proof.Claims

variable {s : State}

/-! The default address map. -/

/-- The regions of the default configuration, in precedence order (R69). -/
theorem target_defaultCfg (a : Word) : target defaultCfg a =
    if a.toNat < 0x00004000 then .boot a.toNat
    else if 0x02000000 ≤ a.toNat ∧ a.toNat < 0x02040000 then .gram (a.toNat - 0x02000000)
    else if 0x03000000 ≤ a.toNat ∧ a.toNat < 0x03008000 then .sram (a.toNat - 0x03000000)
    else if 0x08000000 ≤ a.toNat ∧ a.toNat < 0x0A000000 then .cart (a.toNat - 0x08000000)
    else if 0x04000000 ≤ a.toNat ∧ a.toNat < 0x04000400 then ioTarget defaultCfg (a.toNat - 0x04000000) a
    else .unmapped := by
  have hboot : inRegion defaultCfg.boot a = true ↔ a.toNat < 0x00004000 := by
    simp [inRegion_iff_bounds, defaultCfg]
  have hgram : inRegion defaultCfg.gram a = true ↔ 0x02000000 ≤ a.toNat ∧ a.toNat < 0x02040000 := inRegion_iff_bounds
  have hsram : inRegion defaultCfg.sram a = true ↔ 0x03000000 ≤ a.toNat ∧ a.toNat < 0x03008000 := inRegion_iff_bounds
  have hcart : inRegion defaultCfg.cart a = true ↔ 0x08000000 ≤ a.toNat ∧ a.toNat < 0x0A000000 := inRegion_iff_bounds
  have hio : inRegion defaultCfg.io a = true ↔ 0x04000000 ≤ a.toNat ∧ a.toNat < 0x04000400 := inRegion_iff_bounds
  simp only [target, resolve, hboot, hgram, hsram, hcart, hio]
  split_ifs <;> rfl

/-- A value is a conditional one when it is each branch under its condition. -/
theorem eq_ite_of {α : Type} {p : Prop} [Decidable p] {x y z : α} (hy : p → x = y) (hz : ¬p → x = z) :
    x = if p then y else z := (ite_eq_iff'.2 ⟨fun hp => (hy hp).symm, fun hp => (hz hp).symm⟩).symm

/-- An address in none of the five default regions. -/
theorem target_defaultCfg_unmapped {a : Word} (hboot : 0x00004000 ≤ a.toNat)
    (hgram : a.toNat < 0x02000000 ∨ 0x02040000 ≤ a.toNat) (hsram : a.toNat < 0x03000000 ∨ 0x03008000 ≤ a.toNat)
    (hcart : a.toNat < 0x08000000 ∨ 0x0A000000 ≤ a.toNat) (hio : a.toNat < 0x04000000 ∨ 0x04000400 ≤ a.toNat) :
    target defaultCfg a = .unmapped := by
  rw [target_defaultCfg, if_neg (by omega), if_neg (by omega), if_neg (by omega), if_neg (by omega), if_neg (by omega)]

/-- The I/O window of the default configuration, by address (R56, R69). -/
theorem target_defaultCfg_io {a : Word} (ha : 0x04000000 ≤ a.toNat ∧ a.toNat < 0x04000400) :
    target defaultCfg a =
      if 0x04000200 ≤ a.toNat ∧ a.toNat < 0x04000204 then .ie (a.toNat - 0x04000200)
      else if 0x04000204 ≤ a.toNat ∧ a.toNat < 0x04000208 then .ifr (a.toNat - 0x04000204)
      else if 0x04000208 ≤ a.toNat ∧ a.toNat < 0x0400020C then .ime (a.toNat - 0x04000208)
      else if 0x04000100 ≤ a.toNat ∧ a.toNat < 0x04000110 then
        .timer ((a.toNat - 0x04000100) / 4) (halfOf a) (laneOf a)
      else .iofb (a.toNat - 0x04000000) := by
  have hio : ∀ o, ioTarget defaultCfg o a =
      if 0x200 ≤ o ∧ o < 0x204 then .ie (o - 0x200) else if 0x204 ≤ o ∧ o < 0x208 then .ifr (o - 0x204)
      else if 0x208 ≤ o ∧ o < 0x20C then .ime (o - 0x208)
      else if 0x100 ≤ o ∧ o < 0x110 then .timer ((o - 0x100) / 4) (halfOf a) (laneOf a) else .iofb o := fun _ => rfl
  rw [target_defaultCfg, if_neg (by omega), if_neg (by omega), if_neg (by omega), if_neg (by omega), if_pos ha, hio]
  refine eq_ite_of (fun _ => ?_) fun _ => eq_ite_of (fun _ => ?_) fun _ => eq_ite_of (fun _ => ?_) fun _ =>
    eq_ite_of (fun _ => ?_) fun _ => ?_
  · rw [if_pos (by omega), Nat.sub_sub]
  · rw [if_neg (by omega), if_pos (by omega), Nat.sub_sub]
  · rw [if_neg (by omega), if_neg (by omega), if_pos (by omega), Nat.sub_sub]
  · rw [if_neg (by omega), if_neg (by omega), if_neg (by omega), if_pos (by omega), Nat.sub_sub]
  · rw [if_neg (by omega), if_neg (by omega), if_neg (by omega), if_neg (by omega)]

/-! The timer range, by byte lanes (R60). -/

theorem getLsbD_one_eq_of_halfOf {a a' : Word} (h : halfOf a = halfOf a') : a.getLsbD 1 = a'.getLsbD 1 := by
  unfold halfOf at h
  cases ha : a.getLsbD 1 <;> cases ha' : a'.getLsbD 1 <;> simp_all

theorem getLsbD_zero_eq_of_laneOf {a a' : Word} (h : laneOf a = laneOf a') : a.getLsbD 0 = a'.getLsbD 0 := by
  unfold laneOf at h
  cases ha : a.getLsbD 0 <;> cases ha' : a'.getLsbD 0 <;> simp_all

/-- Two addresses that reach the same lane of the same channel half are the same address. -/
theorem timer_injective {c : Cfg} {a a' : Word} {ch : Nat} {h : TimerHalf} {l : Nat}
    (ha : target c a = .timer ch h l) (ha' : target c a' = .timer ch h l) : a = a' := by
  have hat := target_at c a
  have hat' := target_at c a'
  rw [ha] at hat
  rw [ha'] at hat'
  obtain ⟨hhalf, hlane, hlo, hhi⟩ := hat
  obtain ⟨hhalf', hlane', hlo', hhi'⟩ := hat'
  have hlow : a.extractLsb' 0 2 = a'.extractLsb' 0 2 := by
    refine BitVec.eq_of_getLsbD_eq fun i hi => ?_
    interval_cases i
    · simpa using getLsbD_zero_eq_of_laneOf (hlane.symm.trans hlane')
    · simpa using getLsbD_one_eq_of_halfOf (hhalf.symm.trans hhalf')
  have hmod : a.toNat % 4 = a'.toNat % 4 := congrArg BitVec.toNat hlow
  exact BitVec.eq_of_toNat_eq (by omega)

theorem timer_lane_lt {c : Cfg} {a : Word} {ch : Nat} {h : TimerHalf} {l : Nat} (ha : target c a = .timer ch h l) :
    l < 2 := by
  have hat := target_at c a
  rw [ha] at hat
  obtain ⟨-, rfl, -⟩ := hat
  unfold laneOf
  split <;> decide

theorem isTimer_eq_false_iff {c : Cfg} {a : Word} : isTimer c a = false ↔ (target c a).timerKey = none := by
  unfold isTimer Target.timerKey
  cases target c a <;> simp

theorem timerKeys_of_noTimer {c : Cfg} {addr : Word} {n : Nat} (h : noTimer c addr n) : timerKeys c addr n = [] := by
  have hnone : ((List.range n).filterMap fun k => (target c (nth addr k)).timerKey) = [] :=
    List.filterMap_eq_nil_iff.2 fun k hk => isTimer_eq_false_iff.1 (h k (List.mem_range.1 hk))
  rw [timerKeys, hnone, List.eraseDups_nil]

/-- The halves of an access whose bytes are all timer bytes. -/
theorem timerKeys_of_timer {c : Cfg} {addr : Word} {n ch : Nat} {half : Nat → TimerHalf} {lane : Nat → Nat}
    (ht : ∀ k < n, target c (nth addr k) = .timer ch (half k) (lane k)) :
    timerKeys c addr n = ((List.range n).map fun k => (ch, half k)).eraseDups := by
  rw [timerKeys, ← List.filterMap_eq_map]
  exact congrArg _ (List.filterMap_congr fun k hk => by rw [ht k (List.mem_range.1 hk)]; rfl)

/-! What a write access sends to the timer collaborator (R60). -/

/-- The bytes of a write access with their addresses. -/
def accessBytes (addr : Word) (n : Width) (v : Word) : List (Word × Byte) :=
  (List.range n.bytes).map fun k => (nth addr k, byteOf v k)

theorem zip_eq_accessBytes (addr : Word) (n : Width) (v : Word) :
    (byteAddrs addr n.bytes).zip (bytesFrom v 0 n.bytes) = accessBytes addr n v :=
  zip_byteAddrs_bytesFrom addr v n.bytes

/-- All the bytes of a write access that go to one channel half. -/
def sentGroup (c : Cfg) (addr : Word) (n : Width) (v : Word) (key : TimerKey) : TimerGroup :=
  (TimerGroup.empty key).gather c (accessBytes addr n v)

@[simp] theorem sentGroup_key (c : Cfg) (addr : Word) (n : Width) (v : Word) (key : TimerKey) :
    (sentGroup c addr n v key).key = key :=
  TimerGroup.gather_key c _ _

theorem timerGroups_accessBytes (c : Cfg) (addr : Word) (n : Width) (v : Word) :
    timerGroups c (accessBytes addr n v) [] = (timerKeys c addr n.bytes).map (sentGroup c addr n v) := by
  have haddrs : (accessBytes addr n v).map Prod.fst = byteAddrs addr n.bytes := by
    rw [accessBytes, List.map_map, byteAddrs_eq_map_nth]
    rfl
  rw [timerGroups_eq c _ [] List.nodup_nil, haddrs, timerKeys_eq_newKeys]
  rfl

/-- Everything a write access does: its byte stores, one TimerWrite for each channel half, and then its InvalidAddress
and its ReadOnlyViolation, each if it has one. -/
theorem writeN_eq (kind : AccessKind) (addr : Word) (n : Width) (v : Word) (s : State) :
    writeN kind addr n v s = { writeBytes (accessBytes addr n v) s with
      events := s.events ++ (timerKeys s.cfg addr n.bytes).map (fun key => .timerWrite key.1 key.2
          (sentGroup s.cfg addr n v key).value (sentGroup s.cfg addr n v key).mask)
        ++ invalidEvents s.cfg kind addr n ++ readOnlyEvents s.cfg kind addr n } := by
  simp only [writeN, zip_eq_accessBytes, timerGroups_accessBytes, sendGroups_eq, noteUnmapped_eq_invalidEvents,
    noteReadOnly_eq_readOnlyEvents, writeBytes_events, writeBytes_cfg, List.map_map, Function.comp_def, sentGroup_key]

/-- What a lane of a group holds: its byte, and whether it is written. -/
def TimerGroup.LaneIs (g : TimerGroup) (l : Nat) (b : Byte) (written : Bool) : Prop :=
  halfLane g.value l = b ∧ g.mask.getLsbD l = written

/-- A group from its two lanes. -/
theorem TimerGroup.eq_of_lanes {g : TimerGroup} {b0 b1 : Byte} {w0 w1 : Bool} (h0 : g.LaneIs 0 b0 w0)
    (h1 : g.LaneIs 1 b1 w1) : g.value = b1 ++ b0 ∧ g.mask = BitVec.ofBool w1 ++ BitVec.ofBool w0 := by
  obtain ⟨rfl, rfl⟩ := h0
  obtain ⟨rfl, rfl⟩ := h1
  have hmask : ∀ m : BitVec 2, m = BitVec.ofBool (m.getLsbD 1) ++ BitVec.ofBool (m.getLsbD 0) := by decide
  exact ⟨(halfLane_append _).symm, hmask _⟩

section
variable {c : Cfg} {addr : Word} {n : Width} {ch : Nat} {h : TimerHalf} {l : Nat} (v : Word)

/-- Of the bytes of an access, a test of those at one lane sees the one byte written there. -/
theorem any_accessBytes_of_written {k : Nat} (hk : k < n.bytes) (ht : target c (nth addr k) = .timer ch h l)
    (test : Byte → Bool) :
    ((accessBytes addr n v).any fun p => target c p.1 == .timer ch h l && test p.2) = test (byteOf v k) := by
  have hn : n.bytes ≤ 4 := by cases n <;> decide
  rw [Bool.eq_iff_iff]
  simp only [accessBytes, List.any_map, List.any_eq_true, List.mem_range, Function.comp, Bool.and_eq_true, beq_iff_eq]
  constructor
  · rintro ⟨j, hj, htj, htest⟩
    obtain rfl : j = k := nth_injective (by omega) (by omega) (timer_injective htj ht)
    exact htest
  · exact fun htest => ⟨k, hk, ht, htest⟩

theorem any_accessBytes_of_not_written (hn : ∀ k < n.bytes, target c (nth addr k) ≠ .timer ch h l)
    (test : Byte → Bool) :
    ((accessBytes addr n v).any fun p => target c p.1 == .timer ch h l && test p.2) = false := by
  simp only [accessBytes, List.any_map, List.any_eq_false, List.mem_range, Function.comp, Bool.and_eq_true, beq_iff_eq,
    not_and]
  exact fun k hk ht => absurd ht (hn k hk)

/-- The lanes of a channel half, bit by bit: the bytes written there. -/
theorem getLsbD_halfLane_sentGroup (hl : l < 2) {j : Nat} (hj : j < 8) :
    (halfLane (sentGroup c addr n v (ch, h)).value l).getLsbD j
      = (accessBytes addr n v).any fun p => target c p.1 == .timer ch h l && p.2.getLsbD j := by
  rw [halfLane, BitVec.getLsbD_extractLsb', sentGroup, TimerGroup.gather_value _ _ _ _ (by omega),
    show (8 * l + j) / 8 = l by omega, show (8 * l + j) % 8 = j by omega]
  simp [TimerGroup.empty, hj]

theorem getLsbD_mask_sentGroup (hl : l < 2) : (sentGroup c addr n v (ch, h)).mask.getLsbD l
      = (accessBytes addr n v).any fun p => target c p.1 == .timer ch h l && true := by
  rw [sentGroup, TimerGroup.gather_mask _ _ _ _ hl]
  simp [TimerGroup.empty]

/-- A lane that byte `k` of the access writes. -/
theorem sentGroup_of_written {k : Nat} (hk : k < n.bytes) (ht : target c (nth addr k) = .timer ch h l) :
    (sentGroup c addr n v (ch, h)).LaneIs l (byteOf v k) true := by
  have hl := timer_lane_lt ht
  refine ⟨BitVec.eq_of_getLsbD_eq fun j hj => ?_, ?_⟩
  · rw [getLsbD_halfLane_sentGroup v hl hj, any_accessBytes_of_written v hk ht (·.getLsbD j)]
  · rw [getLsbD_mask_sentGroup v hl, any_accessBytes_of_written v hk ht fun _ => true]

/-- A lane that the access does not write. -/
theorem sentGroup_of_not_written (hl : l < 2) (hn : ∀ k < n.bytes, target c (nth addr k) ≠ .timer ch h l) :
    (sentGroup c addr n v (ch, h)).LaneIs l 0#8 false := by
  refine ⟨BitVec.eq_of_getLsbD_eq fun j hj => ?_, ?_⟩
  · rw [getLsbD_halfLane_sentGroup v hl hj, any_accessBytes_of_not_written v hn (·.getLsbD j), BitVec.getLsbD_zero]
  · rw [getLsbD_mask_sentGroup v hl, any_accessBytes_of_not_written v hn fun _ => true]

/-- A half whose two lanes are written, the higher one by the byte after the lower one's. -/
theorem sentGroup_of_both {k : Nat} (hk : k + 1 < n.bytes) (h0 : target c (nth addr k) = .timer ch h 0)
    (h1 : target c (nth addr (k + 1)) = .timer ch h 1) :
    (sentGroup c addr n v (ch, h)).value = v.extractLsb' (8 * k) 16 ∧ (sentGroup c addr n v (ch, h)).mask = 0b11#2 := by
  obtain ⟨hvalue, hmask⟩ := TimerGroup.eq_of_lanes (sentGroup_of_written v (by omega) h0) (sentGroup_of_written v hk h1)
  refine ⟨hvalue.trans ?_, hmask⟩
  exact BitVec.extractLsb'_append_extractLsb'_eq_extractLsb' (by omega)

/-! Write accesses that lie inside one timer channel. -/

/-- Stores to timer bytes touch no storage of the CORE. -/
theorem writeBytes_of_timer {bs : List (Word × Byte)} (hbs : ∀ p ∈ bs, isTimer s.cfg p.1 = true) :
    writeBytes bs s = s := by
  induction bs with
  | nil => rfl
  | cons p bs ih =>
    obtain ⟨hp, hbs⟩ := List.forall_mem_cons.1 hbs
    have hstore : writeByte p.1 p.2 s = s := by
      unfold isTimer at hp
      unfold writeByte
      cases ht : target s.cfg p.1 with
      | timer => rfl
      | _ => rw [ht] at hp; cases hp
    rw [writeBytes, hstore, ih hbs]

/-- A write access whose bytes are all timer bytes is its TimerWrites and nothing more. -/
theorem writeN_of_timer {half : Nat → TimerHalf} {lane : Nat → Nat}
    (ht : ∀ k < n.bytes, target s.cfg (nth addr k) = .timer ch (half k) (lane k)) {keys : List TimerKey}
    (hkeys : ((List.range n.bytes).map fun k => (ch, half k)).eraseDups = keys) (kind : AccessKind) :
    writeN kind addr n v s = { s with events := s.events ++ keys.map (fun key => .timerWrite key.1 key.2
      (sentGroup s.cfg addr n v key).value (sentGroup s.cfg addr n v key).mask) } := by
  have hstores : writeBytes (accessBytes addr n v) s = s := by
    refine writeBytes_of_timer ?_
    simp only [accessBytes, List.forall_mem_map, List.mem_range]
    exact fun k hk => by rw [isTimer, ht k hk]
  have hinvalid : invalidEvents s.cfg kind addr n = [] :=
    invalidEvents_of_mapped (fun k hk => by rw [ht k hk]; nofun) kind
  have hreadOnly : readOnlyEvents s.cfg kind addr n = [] := by
    refine if_neg ?_
    rintro ⟨k, hk, hro⟩
    rw [← isReadOnly_iff, isReadOnly, ht k hk] at hro
    cases hro
  rw [writeN_eq, hstores, timerKeys_of_timer ht, hkeys, hinvalid, hreadOnly, List.append_nil, List.append_nil]

theorem writeN_word_of_timer (h0 : target s.cfg addr = .timer ch .low 0)
    (h1 : target s.cfg (nth addr 1) = .timer ch .low 1) (h2 : target s.cfg (nth addr 2) = .timer ch .high 0)
    (h3 : target s.cfg (nth addr 3) = .timer ch .high 1) (kind : AccessKind) :
    writeN kind addr .word v s = { s with events := s.events ++
      [.timerWrite ch .low (v.extractLsb' 0 16) 0b11#2, .timerWrite ch .high (v.extractLsb' 16 16) 0b11#2] } := by
  have h0' : target s.cfg (nth addr 0) = .timer ch .low 0 := by rwa [nth_zero]
  have ht : ∀ k < Width.bytes .word,
      target s.cfg (nth addr k) = .timer ch (if k < 2 then .low else .high) (k % 2) := by
    intro k hk
    have hk : k < 4 := hk
    interval_cases k
    · exact h0'
    · exact h1
    · exact h2
    · exact h3
  obtain ⟨hlow, hlowMask⟩ := sentGroup_of_both (n := .word) v (k := 0) (by decide) h0' h1
  obtain ⟨hhigh, hhighMask⟩ := sentGroup_of_both (n := .word) v (k := 2) (by decide) h2 h3
  rw [writeN_of_timer v ht (keys := [(ch, .low), (ch, .high)])
    (by simp [Width.bytes, List.range_succ, List.eraseDups_cons]), List.map_cons, List.map_cons, List.map_nil, hlow,
    hlowMask, hhigh, hhighMask]

theorem writeN_half_of_timer (h0 : target s.cfg addr = .timer ch h 0) (h1 : target s.cfg (nth addr 1) = .timer ch h 1)
    (kind : AccessKind) : writeN kind addr .half v s
      = { s with events := s.events ++ [.timerWrite ch h (v.extractLsb' 0 16) 0b11#2] } := by
  have h0' : target s.cfg (nth addr 0) = .timer ch h 0 := by rwa [nth_zero]
  have ht : ∀ k < Width.bytes .half, target s.cfg (nth addr k) = .timer ch h k := by
    intro k hk
    have hk : k < 2 := hk
    interval_cases k
    · exact h0'
    · exact h1
  obtain ⟨hvalue, hmask⟩ := sentGroup_of_both (n := .half) v (k := 0) (by decide) h0' h1
  rw [writeN_of_timer v ht (keys := [(ch, h)]) (by simp [Width.bytes, List.range_succ, List.eraseDups_cons]),
    List.map_cons, List.map_nil, hvalue, hmask]

/-- A byte access writes its one lane, and the other lane of the half is not written. -/
theorem sentGroup_byte (h0 : target c addr = .timer ch h l) :
    (sentGroup c addr .byte v (ch, h)).LaneIs l (byteOf v 0) true
      ∧ ∀ m < 2, m ≠ l → (sentGroup c addr .byte v (ch, h)).LaneIs m 0#8 false := by
  have h0' : target c (nth addr 0) = .timer ch h l := by rwa [nth_zero]
  refine ⟨sentGroup_of_written (n := .byte) v (by decide) h0', fun m hm hne => ?_⟩
  refine sentGroup_of_not_written (n := .byte) v hm fun k hk => ?_
  rw [Nat.lt_one_iff.1 hk, h0']
  simpa using Ne.symm hne

theorem writeN_byte_of_timer (h0 : target s.cfg addr = .timer ch h l) (kind : AccessKind) :
    writeN kind addr .byte v s = { s with events := s.events ++ [.timerWrite ch h
      (sentGroup s.cfg addr .byte v (ch, h)).value (sentGroup s.cfg addr .byte v (ch, h)).mask] } := by
  have ht : ∀ k < Width.bytes .byte, target s.cfg (nth addr k) = .timer ch h l := by
    intro k hk
    rwa [Nat.lt_one_iff.1 hk, nth_zero]
  exact writeN_of_timer v ht (keys := [(ch, h)]) (by simp [Width.bytes, List.eraseDups_cons]) kind

end

end Sys2Proof.Machine

namespace Sys2Proof.Claims

open Sys2Proof.Machine

/-- Settles O47, range by range: each names its region, or lies in none. -/
theorem defaultAddressMap : Obligations.DefaultAddressMap := by
  intro a
  have hregions := target_defaultCfg a
  have hunmapped := target_defaultCfg_unmapped (a := a)
  have hio := target_defaultCfg_io (a := a)
  generalize target defaultCfg a = T at *
  refine eq_ite_of (fun _ => ?_) fun _ => eq_ite_of (fun _ => ?_) fun _ => eq_ite_of (fun _ => ?_) fun _ =>
    eq_ite_of (fun _ => ?_) fun _ => eq_ite_of (fun _ => ?_) fun _ => eq_ite_of (fun _ => ?_) fun _ =>
    eq_ite_of (fun _ => ?_) fun _ => eq_ite_of (fun _ => ?_) fun _ => eq_ite_of (fun _ => ?_) fun _ =>
    eq_ite_of (fun _ => ?_) fun _ => eq_ite_of (fun _ => ?_) fun _ => eq_ite_of (fun _ => ?_) fun _ =>
    eq_ite_of (fun _ => ?_) fun _ => eq_ite_of (fun _ => ?_) fun _ => eq_ite_of (fun _ => ?_) fun _ => ?_
  · rw [hregions, if_pos (by omega)]
  · exact hunmapped (by omega) (by omega) (by omega) (by omega) (by omega)
  · rw [hregions, if_neg (by omega), if_pos (by omega)]
  · exact hunmapped (by omega) (by omega) (by omega) (by omega) (by omega)
  · rw [hregions, if_neg (by omega), if_neg (by omega), if_pos (by omega)]
  · exact hunmapped (by omega) (by omega) (by omega) (by omega) (by omega)
  · rw [hio (by omega), if_neg (by omega), if_neg (by omega), if_neg (by omega), if_neg (by omega)]
  · rw [hio (by omega), if_neg (by omega), if_neg (by omega), if_neg (by omega), if_pos (by omega)]
  · rw [hio (by omega), if_neg (by omega), if_neg (by omega), if_neg (by omega), if_neg (by omega)]
  · rw [hio (by omega), if_pos (by omega)]
  · rw [hio (by omega), if_neg (by omega), if_pos (by omega)]
  · rw [hio (by omega), if_neg (by omega), if_neg (by omega), if_pos (by omega)]
  · rw [hio (by omega), if_neg (by omega), if_neg (by omega), if_neg (by omega), if_neg (by omega)]
  · exact hunmapped (by omega) (by omega) (by omega) (by omega) (by omega)
  · rw [hregions, if_neg (by omega), if_neg (by omega), if_neg (by omega), if_pos (by omega)]
  · exact hunmapped (by omega) (by omega) (by omega) (by omega) (by omega)

/-- Settles O48: a read access by the answers it draws, none of them outside the timer range. -/
theorem readAccess : Obligations.ReadAccess := by
  intro kind addr n s
  refine ⟨?_, fun hn => by rw [readN_of_noTimer hn]⟩
  obtain ⟨answer, hread⟩ := readN_answers kind addr n s
  refine ⟨_, ?_, by rw [hread, List.length_map], fun hn => by rw [timerKeys_of_noTimer hn]; rfl⟩
  simp only [List.forall_mem_map]
  exact fun key _ => ⟨key.1, key.2, answer key, rfl⟩

/-- Settles O49: the events of a write access are those of its groups and its two notes. -/
theorem writeAccessEvents : Obligations.WriteAccessEvents := by
  intro kind addr n v s
  refine ⟨_, ?_, congrArg State.events (writeN_eq kind addr n v s), fun hn => by rw [timerKeys_of_noTimer hn]; rfl⟩
  simp only [List.forall_mem_map]
  exact fun key _ => ⟨key.1, key.2, _, _, rfl⟩

/-- Settles O50: the bytes of an access are at different addresses, so each is stored once. -/
theorem writeAccessBytes : Obligations.WriteAccessBytes := fun kind addr _ v s hi =>
  ⟨fun _ hk => peek_writeN_nth hi hk kind addr v, fun _ ha => peek_writeN_of_ne ha kind v s⟩

/-- Settles O54: an access sends one group for each channel half, each lane with its byte. -/
theorem timerWritesAreForwarded : Obligations.TimerWritesAreForwarded := by
  intro addr s kind v
  refine ⟨fun n => ?_, fun ch h0 h1 h2 h3 => writeN_word_of_timer v h0 h1 h2 h3 kind,
    fun ch h h0 h1 => writeN_half_of_timer v h0 h1 kind, fun ch h h0 => ?_, fun ch h h1 => ?_⟩
  · exact ⟨fun key => (sentGroup s.cfg addr n v key).value, fun key => (sentGroup s.cfg addr n v key).mask,
      fun _ hk _ _ _ ht => sentGroup_of_written v hk ht, fun _ _ _ hl hn => sentGroup_of_not_written v hl hn,
      congrArg State.events (writeN_eq kind addr n v s)⟩
  · obtain ⟨hwritten, hother⟩ := sentGroup_byte v h0
    obtain ⟨hvalue, hmask⟩ := TimerGroup.eq_of_lanes hwritten (hother 1 (by decide) (by decide))
    rw [writeN_byte_of_timer v h0, hvalue, hmask]
    rfl
  · obtain ⟨hwritten, hother⟩ := sentGroup_byte v h1
    obtain ⟨hvalue, hmask⟩ := TimerGroup.eq_of_lanes (hother 0 (by decide) (by decide)) hwritten
    rw [writeN_byte_of_timer v h1, hvalue, hmask]
    rfl

end Sys2Proof.Claims
end

section
/-! Steps from known code: the self-loop (40_execution_cycle.md R123), zero words (70_reset_and_hazards.md R242), and
code that a store has just written (20_memory.md R73). -/

namespace Sys2Proof.Machine

open Sys2Proof.Claims

variable {s t : State}

/-! Register writes that change nothing. -/

theorem setReg_reg (s : State) (r : Reg) : s.setReg r (s.reg r) = s := by
  have hx : (s.setReg r (s.reg r)).x = s.x := State.x_ext fun q => by
    rw [State.reg_setReg]
    split
    next h => rw [h]
    next => rfl
  exact congrArg (fun x => { s with x := x }) hx

theorem setReg_setReg (s : State) (r : Reg) (v w : Word) : (s.setReg r v).setReg r w = s.setReg r w := by
  have hx : ((s.setReg r v).setReg r w).x = (s.setReg r w).x := State.x_ext fun q => by
    simp only [State.reg_setReg]
    split <;> rfl
  exact congrArg (fun x => { s with x := x }) hx

/-! The step when no byte at the pc is a timer byte. -/

/-- The state in which the instruction at the pc runs: the fetch's own event, and the pc past the code. -/
def afterFetch (s : State) (n : Width) (size : Word) : State :=
  ({ s with events := invalidEvents s.cfg .fetch s.pc n } : State).setPc (s.pc + size)

/-- A branch back by what the fetch advanced leaves the pc where it was. -/
theorem afterFetch_setPc_back (s : State) (n : Width) (size : Word) :
    (afterFetch s n size).setPc ((afterFetch s n size).pc - size)
      = { s with events := invalidEvents s.cfg .fetch s.pc n } := by
  rw [afterFetch, pc_setPc, BitVec.add_sub_cancel, State.setPc_eq_setReg, State.setPc_eq_setReg, setReg_setReg]
  exact setReg_reg { s with events := invalidEvents s.cfg .fetch s.pc n } 15

theorem step_of_armWord (ht : s.t = false) (hn : noTimer s.cfg s.pc 4) :
    step s = thenLoaded (exec (decodeArm (valueAt s s.pc .word)) (afterFetch s .word 4)) := by
  obtain ⟨hstep, hread⟩ := (stepRunsDecodedInstruction s).1 ht
  rw [hstep, hread hn]
  rfl

theorem step_of_thumbHalf (ht : s.t = true) (hn : noTimer s.cfg s.pc 2) :
    step s = thenLoaded (exec (decodeThumb ((valueAt s s.pc .half).extractLsb' 0 16)) (afterFetch s .half 2)) := by
  obtain ⟨hstep, hread⟩ := (stepRunsDecodedInstruction s).2 ht
  rw [hstep, hread hn]
  rfl

/-- Bytes that read 0 have the value 0. -/
theorem valueAt_eq_zero {addr : Word} {n : Width} (h : ∀ k < n.bytes, s.peek (nth addr k) = some 0) :
    valueAt s addr n = 0#32 := by
  have hvalue : ∀ b ∈ (byteAddrs addr n.bytes).map fun a => (s.peek a).getD 0#8, b = 0#8 := by
    simp only [byteAddrs_eq_map_nth, List.map_map, List.forall_mem_map, List.mem_range]
    exact fun k hk => by simp [h k hk]
  rw [← wordOfBytes_peek, List.eq_replicate_of_mem hvalue, List.length_map, byteAddrs_length]
  cases n <;> rfl

theorem noTimer_of_peek {addr : Word} {n : Nat} {b : Byte} (h : ∀ k < n, s.peek (nth addr k) = some b) :
    noTimer s.cfg addr n := fun k hk => isTimer_of_peek (h k hk)

/-! The zero codes (R242). -/

/-- The zero word is ANDEQ R0, R0, R0: it writes R0 as it is, or nothing. -/
theorem exec_zeroWord (s : State) : exec (decodeArm 0#32) s = .next s := by
  have hdecode : decodeArm 0#32 = .armAnd ⟨.eq, false, 0, 0, .reg 0#8 0⟩ := by decide
  have hsame : s.setReg 0 (s.reg 0 &&& s.reg 0) = s := by rw [BitVec.and_self, setReg_reg]
  rw [hdecode]
  cases hc : condPasses .eq s with
  | false => exact exec_of_cond_fail rfl hc
  | true =>
    rw [exec, execArmAnd, execLogical, whenCond_pass hc]
    exact congrArg Host.Outcome.next hsame

/-- The zero halfword is LSL R0, R0, #0: it sets N and Z from R0. -/
theorem exec_zeroHalf (s : State) : exec (decodeThumb 0#16) s = .next (setNZ (s.reg 0) s) := by
  have hdecode : decodeThumb 0#16 = .lslImm 0#5 0 0 := by decide
  have hlow : lowReg 0 = 0 := rfl
  rw [hdecode, exec, execLslImm, writeLowNZ, hlow, BitVec.toNat_zero, BitVec.shiftLeft_zero, setReg_reg]

/-! Code read where it is stored (R73). -/

/-- A byte that the CORE holds is what any read takes from its address. -/
theorem byteGiven_of_peek {a : Word} {b : Byte} (h : s.peek a = some b) (answer : TimerKey → Half) :
    s.byteGiven answer a = b := by
  have hnt := isTimer_of_peek h
  unfold State.byteGiven
  unfold isTimer at hnt
  cases ht : target s.cfg a with
  | timer => rw [ht] at hnt; cases hnt
  | _ => simp [h]

theorem extractLsb'_readN_of_peek {addr : Word} {n : Width} {k : Nat} (hk : k < n.bytes) {b : Byte}
    (h : s.peek (nth addr k) = some b) (kind : AccessKind) : (readN kind addr n s).1.extractLsb' (8 * k) 8 = b := by
  obtain ⟨answer, hread⟩ := readN_answers kind addr n s
  rw [hread, extractLsb'_valueGiven s answer addr hk, byteGiven_of_peek h]

theorem bytes_arm (w : Word) {k : Nat} (hk : k < 4) : (Code.arm w).bytes[k]? = some (w.extractLsb' (8 * k) 8) := by
  interval_cases k <;> rfl

theorem bytes_thumb (w : Word) {k : Nat} (hk : k < 2) :
    (Code.thumb (w.extractLsb' 0 16)).bytes[k]? = some (w.extractLsb' (8 * k) 8) := by
  have hbyte := extractLsb'_sub w (lo := 0) (n := 16) rfl (8 * k) 8 (by omega)
  rw [Nat.zero_add] at hbyte
  rw [hbyte]
  interval_cases k <;> rfl

/-- A byte that a state holds is seen by every fetch of its address. -/
theorem seenByFetch_of_peek {a : Word} {b : Byte} (h : t.peek a = some b) : SeenByFetch t a b := by
  rintro u - hu k hk rfl
  have hb := hu.trans h
  cases ht : u.t with
  | false =>
    have hk : k < 4 := by simpa [ht] using hk
    simp only [fetchCode, ht, Bool.false_eq_true, if_false]
    rw [bytes_arm _ hk, extractLsb'_readN_of_peek (n := .word) hk hb]
  | true =>
    have hk : k < 2 := by simpa [ht] using hk
    simp only [fetchCode, ht, if_true]
    rw [bytes_thumb _ hk, extractLsb'_readN_of_peek (n := .half) hk hb]

theorem afterStore_of_plain {a : Word} (h : plainByte s.cfg a) (b : Byte) : afterStore s a b = some b := by
  obtain ⟨o, ho | ho | ho⟩ := h <;> rw [afterStore, ho]

theorem mapped_of_plain {c : Cfg} {a : Word} (h : plainByte c a) : target c a ≠ .unmapped := by
  obtain ⟨o, ho | ho | ho⟩ := h <;> rw [ho] <;> nofun

/-- A read of plain bytes that hold those of `v` gives them and does nothing else. -/
theorem readN_of_plain {addr : Word} {n : Width} (hp : ∀ k < n.bytes, plainByte s.cfg (nth addr k)) {v : Word}
    (hv : ∀ k < n.bytes, s.peek (nth addr k) = some (byteOf v k)) (kind : AccessKind) :
    readN kind addr n s = (wordOfBytes (bytesFrom v 0 n.bytes), s) := by
  rw [readN_of_peek (j := 0) fun k hk => by rw [Nat.zero_add, hv k hk],
    noteUnmapped_of_mapped fun k hk => mapped_of_plain (hp k hk)]

theorem extractLsb'_zeroExtend_half (h : Half) : (h.zeroExtend 32).extractLsb' 0 16 = h := by
  rw [BitVec.zeroExtend_eq_setWidth, ← BitVec.setWidth_eq_extractLsb' (by decide),
    BitVec.setWidth_setWidth_of_le _ (by decide), BitVec.setWidth_eq]

/-- The fetch of an ARM word that stands in plain storage gives it and does nothing else. -/
theorem fetchCode_of_plainWord (ht : s.t = false) (hp : ∀ k < 4, plainByte s.cfg (nth s.pc k)) {w : Word}
    (hw : ∀ k < 4, s.peek (nth s.pc k) = some (byteOf w k)) : fetchCode s = (.arm w, s) := by
  simp only [fetchCode, ht, readN_of_plain (n := .word) hp hw, Bool.false_eq_true, if_false]
  rw [Width.bytes, wordOfBytes_bytesFrom_word]

theorem fetchCode_of_plainHalf (ht : s.t = true) (hp : ∀ k < 2, plainByte s.cfg (nth s.pc k)) {w : Word}
    (hw : ∀ k < 2, s.peek (nth s.pc k) = some (byteOf w k)) : fetchCode s = (.thumb (w.extractLsb' 0 16), s) := by
  simp only [fetchCode, ht, readN_of_plain (n := .half) hp hw, if_true]
  rw [Width.bytes, wordOfBytes_bytesFrom_half, extractLsb'_zeroExtend_half]

theorem step_of_plainWord (ht : s.t = false) (hp : ∀ k < 4, plainByte s.cfg (nth s.pc k)) {w : Word}
    (hw : ∀ k < 4, s.peek (nth s.pc k) = some (byteOf w k)) :
    step s = thenLoaded (exec (decodeArm w) ((beginStep s).setPc (s.pc + 4))) := by
  refine step_of_fetchDecode ?_
  rw [fetchDecode, fetchCode_of_plainWord (s := beginStep s) ht hp hw, fetchWidth, beginStep_t, ht]
  rfl

/-- A host write leaves the registers, the status and the configuration. -/
theorem hostWrite_frame (addr : Word) (n : Width) (v : Word) (s : State) :
    (hostWrite addr n v s).cfg = s.cfg ∧ (hostWrite addr n v s).pc = s.pc ∧ (hostWrite addr n v s).t = s.t := by
  obtain ⟨hcfg, -, -, -, hstatus, -, hregs⟩ := (wrote_writeN .host addr n v (beginStep s)).frame
  exact ⟨hcfg, hregs 15, hstatus.t⟩

theorem peek_hostWrite_of_plain (hi : s.Inv) {addr : Word} {n : Width} {k : Nat} (hk : k < n.bytes)
    (hp : plainByte s.cfg (nth addr k)) (v : Word) : (hostWrite addr n v s).peek (nth addr k) = some (byteOf v k) :=
  peek_writeN_of_plain (s := beginStep s) hi hk hp .host v

theorem peek_storeFrom_of_plain (hi : s.Inv) {n : Width} {f : SdtArgs} {k : Nat} (hk : k < n.bytes)
    (hp : plainByte s.cfg (nth (sdtEa f s) k)) :
    (storeFrom n f s).peek (nth (sdtEa f s) k) = some (byteOf (s.reg f.rd) k) := by
  obtain ⟨x, hx⟩ := storeFrom_eq_writeN_with_regs n f s
  rw [hx]
  exact peek_writeN_of_plain hi hk hp .write (s.reg f.rd)

/-- An ARM instruction with a condition is fetched in ARM state only. -/
theorem arm_of_fetchDecode {i : Instr} {c : Cond} (h : fetchDecode s = (i, t)) (hi : i.cond? = some c) :
    s.t = false := by
  by_contra hthumb
  have hnone := fetchDecode_cond?_of_thumb (Bool.not_eq_false _ ▸ hthumb)
  rw [h, hi] at hnone
  cases hnone

/-- A step from the address of a word just stored runs the word. -/
theorem step_of_storedWord {f : SdtArgs} (hi : s.Inv) (ht : s.t = false)
    (hp : ∀ k < 4, plainByte s.cfg (nth (sdtEa f s) k)) (hpc : (retire (storeFrom .word f s)).pc = sdtEa f s) :
    step (retire (storeFrom .word f s)) = thenLoaded (exec (decodeArm (s.reg f.rd))
      ((beginStep (retire (storeFrom .word f s))).setPc ((retire (storeFrom .word f s)).pc + 4))) := by
  have hstore := storeFrame_storeFrom .word f s
  refine step_of_plainWord (s := retire (storeFrom .word f s)) (hstore.status.t.trans ht) ?_ ?_ <;> rw [hpc]
  · rwa [retire_cfg, hstore.cfg]
  · exact fun k hk => peek_storeFrom_of_plain (n := .word) hi hk (hp k hk)

end Sys2Proof.Machine

namespace Sys2Proof.Claims

open Sys2Proof.Machine

/-- Settles O43: the branch takes back what the fetch advanced, so the step writes no register. -/
theorem selfLoopRepeats : Obligations.SelfLoopRepeats := by
  intro s
  refine ⟨fun ht hn hm hv => ?_, fun ht hn hm hv => ?_⟩
  · have hdecode : decodeArm 0xEAFFFFFF#32 = .b .al 0xFFFFFF#24 := by decide
    rw [step_of_armWord ht hn, hv, hdecode, exec, execB_pass rfl, branchTarget_self, afterFetch_setPc_back,
      invalidEvents_of_mapped (n := .word) hm]
    rfl
  · have hdecode : decodeThumb ((0xE7FF#32).extractLsb' 0 16) = .thumbB 0x7FF#11 := by decide
    rw [step_of_thumbHalf ht hn, hv, hdecode, exec, execThumbB, thumbBranchTarget_self, afterFetch_setPc_back,
      invalidEvents_of_mapped (n := .half) hm]
    rfl

/-- Settles O44: the zero word is ANDEQ R0, R0, R0, and the zero halfword LSL R0, R0, #0. -/
theorem zeroWordsSlide : Obligations.ZeroWordsSlide := by
  intro s
  refine ⟨fun ht hz => ?_, fun ht hz => ?_⟩
  · rw [step_of_armWord ht (noTimer_of_peek hz), valueAt_eq_zero (n := .word) hz, exec_zeroWord]
    rfl
  · have hpast : ∀ r, r ≠ 15 → (afterFetch s .half 2).reg r = s.reg r := fun r hr => State.reg_setReg_ne _ hr _
    have hpc : (afterFetch s .half 2).pc = s.pc + 2 := pc_setPc _ _
    refine ⟨retire (setNZ ((afterFetch s .half 2).reg 0) (afterFetch s .half 2)), ?_, hpc, ?_, rfl, rfl, ht,
      fun r hr => hpast r (List.ne_of_not_mem_cons hr), fun _ => rfl, rfl, rfl⟩
    · rw [step_of_thumbHalf ht (noTimer_of_peek hz), valueAt_eq_zero (n := .half) hz]
      exact congrArg thenLoaded (exec_zeroHalf _)
    · rw [hpast 0 (by decide)]
      exact nzof_setNZ (s.reg 0) (afterFetch s .half 2)

/-- Settles O45: a plain byte holds what was last stored to it, and a fetch reads what its bytes hold. -/
theorem fetchSeesTheLastStore : Obligations.FetchSeesTheLastStore := by
  refine ⟨fun f s hi hc => ⟨⟨storeFrom .word f s, whenCond_pass hc _, fun k hk hp => ?_⟩,
    ⟨storeFrom .byte f s, whenCond_pass hc _, fun hp => ?_⟩⟩, fun f s hi hc => ?_, fun addr n v s hi k hk hp => ?_,
    fun f s s' t hi hfetch hc hp hstep hpc => ?_, fun s w hi ht hp => ?_, fun s w hi ht hp => ?_⟩
  · exact seenByFetch_of_peek (peek_storeFrom_of_plain (n := .word) hi hk hp)
  · have hpeek := peek_storeFrom_of_plain (n := .byte) (k := 0) hi (by decide) (by rwa [nth_zero])
    rw [nth_zero] at hpeek
    exact seenByFetch_of_peek hpeek
  · refine ⟨_, execStm_pass hc, fun r hr k hk hp => seenByFetch_of_peek ?_⟩
    rw [(sameBus_writeBase f _ _).peek, peek_storeRegs_nth (laidOut_listedRegs f s) (listedRegs_length_le f) hi
      (mem_listedRegs.2 hr) hk, afterStore_of_plain hp, byteOf]
  · exact seenByFetch_of_peek (peek_hostWrite_of_plain hi hk hp v)
  · obtain ⟨hbus, hstatus, -⟩ := fetchDecode_frame (beginStep s)
    rw [hfetch] at hbus hstatus
    have hexec : exec (.str f) s' = .next (storeFrom .word f s') := whenCond_pass hc _
    rw [step_of_fetchDecode hfetch, hexec] at hstep
    cases hstep
    exact step_of_storedWord (hbus.inv hi) (hstatus.t.trans (arm_of_fetchDecode hfetch rfl)) (hbus.cfg ▸ hp) hpc
  · obtain ⟨hcfg, hpc, htBit⟩ := hostWrite_frame s.pc .word w s
    refine fetchCode_of_plainWord (htBit.trans ht) ?_ ?_ <;> rw [hpc]
    · rwa [hcfg]
    · exact fun k hk => peek_hostWrite_of_plain (n := .word) hi hk (hp k hk) w
  · obtain ⟨hcfg, hpc, htBit⟩ := hostWrite_frame s.pc .half w s
    refine fetchCode_of_plainHalf (htBit.trans ht) ?_ ?_ <;> rw [hpc]
    · rwa [hcfg]
    · exact fun k hk => peek_hostWrite_of_plain (n := .half) hi hk (hp k hk) w

end Sys2Proof.Claims
end

section
/-! Signed overflow (41_arm_data_processing.md R131), the unsupported opcodes (R140), the layout of the status word
(10_state.md R25), and the registers under the host's moves (70_reset_and_hazards.md R236). -/

namespace Sys2Proof.Machine

variable {s t : State}

/-! Signed overflow: an exact result outside the signed range is not the value of any word. -/

theorem saddOverflow_iff {n : Nat} (a b : BitVec n) : a.saddOverflow b = true ↔ (a + b).toInt ≠ a.toInt + b.toInt := by
  refine ⟨fun h heq => ?_, fun hne => by_contra fun h => hne (BitVec.toInt_add_of_not_saddOverflow h)⟩
  have hlt := BitVec.toInt_lt (x := a + b)
  have hle := BitVec.le_toInt (a + b)
  simp only [BitVec.saddOverflow, Bool.or_eq_true, decide_eq_true_eq] at h
  omega

theorem ssubOverflow_iff {n : Nat} (a b : BitVec n) : a.ssubOverflow b = true ↔ (a - b).toInt ≠ a.toInt - b.toInt := by
  refine ⟨fun h heq => ?_, fun hne => by_contra fun h => hne (BitVec.toInt_sub_of_not_ssubOverflow h)⟩
  have hlt := BitVec.toInt_lt (x := a - b)
  have hle := BitVec.le_toInt (a - b)
  simp only [BitVec.ssubOverflow, Bool.or_eq_true, decide_eq_true_eq] at h
  omega

theorem addOverflow_eq_saddOverflow (a b : Word) : addOverflow a b (a + b) = a.saddOverflow b :=
  (BitVec.saddOverflow_eq a b).symm

theorem subOverflow_eq_ssubOverflow (a b : Word) : subOverflow a b (a - b) = a.ssubOverflow b := by
  rw [BitVec.ssubOverflow_eq, subOverflow]
  cases a.msb <;> cases b.msb <;> cases (a - b).msb <;> rfl

/-! The status word. -/

theorem getLsbD_statusWord (s : State) {i : Nat} (hi : i < 32) : s.statusWord.getLsbD i =
    if i = 31 then s.n else if i = 30 then s.z else if i = 29 then s.c else if i = 28 then s.v
    else if i = 5 then s.t else false := by
  simp only [State.statusWord, BitVec.getLsbD_append, BitVec.getLsbD_zero, BitVec.getLsbD_ofBool]
  interval_cases i <;> simp

/-! The registers under the host's moves. -/

/-- Every host action but `step()` and `reset()` leaves the registers. -/
theorem reg_hostAct {act : HostAction} (hstep : act ≠ .step) (hreset : act ≠ .reset) (h : hostAct act s = .next t)
    (r : Reg) : t.reg r = s.reg r := by
  cases act with
  | loadBootImage bytes =>
    obtain rfl := eq_of_loadBootImage h
    rfl
  | loadImage bytes =>
    obtain rfl := eq_of_loadImage h
    rfl
  | step => exact absurd rfl hstep
  | reset => exact absurd rfl hreset
  | read addr n =>
    cases h
    exact (drew_readN .host addr n (beginStep s)).reg r
  | write addr n v =>
    cases h
    obtain ⟨-, -, -, -, -, -, hregs⟩ := (wrote_writeN .host addr n v (beginStep s)).frame
    exact hregs r
  | raiseIF mask =>
    cases h
    rfl

end Sys2Proof.Machine

namespace Sys2Proof.Claims

open Sys2Proof.Machine

/-- Settles O12: the sign rules are the library's tests of the signed range. -/
theorem overflowFlagIsSignedOverflow : Obligations.OverflowFlagIsSignedOverflow := by
  intro a b
  rw [addOverflow_eq_saddOverflow, subOverflow_eq_ssubOverflow]
  exact ⟨saddOverflow_iff a b, ssubOverflow_iff a b⟩

/-- Settles O13: each is `execUnknownDp` of its own opcode, or the coprocessor's report. -/
theorem unsupportedArmWordsOnlyReport : Obligations.UnsupportedArmWordsOnlyReport := by
  refine ⟨fun f s hc => ?_, fun c op body s hc => execCoprocUnknown_pass hc op body⟩
  simp only [List.forall_mem_cons]
  exact ⟨execUnknownDp_pass hc _, execUnknownDp_pass hc _, execUnknownDp_pass hc _, execUnknownDp_pass hc _,
    execUnknownDp_pass hc _, execUnknownDp_pass hc _, execUnknownDp_pass hc _, execUnknownDp_pass hc _,
    List.forall_mem_nil _⟩

/-- Settles O59, by the host's action. -/
theorem hostNeverWritesRegisters : Obligations.HostNeverWritesRegisters := by
  refine fun act s t hstep hreset h => ⟨reg_hostAct hstep hreset h, sameStatus_hostAct hstep hreset h, ?_⟩
  rintro mask rfl i -
  cases h
  exact BitVec.getLsbD_or

/-- Settles O60, field by field of the concatenation. -/
theorem statusWordLayout : Obligations.StatusWordLayout := fun s _ hi => getLsbD_statusWord s hi

end Sys2Proof.Claims
end
